-- ==== Sys2Proof/Word.lean ====
section
/-! DEFINITION. The words of the command port and of resource memory (spec/00_scope.md R13,
spec/30_encoding.md R110). -/

namespace Sys2Proof

/-- A 32-bit command word, register value or resource-memory address (R40, R110, R116). -/
abbrev Word := BitVec 32

/-- A 16-bit half of an operand word: a coordinate, an extent, a colour or a count (R112). -/
abbrev Half := BitVec 16

/-- A byte of resource memory or of the wire (R45, R71). -/
abbrev Byte := BitVec 8

end Sys2Proof
end

