-- ==== Sys2Proof/Config.lean ====
section
/-! DEFINITION. The configuration record of spec/00_scope.md R8, fixed for the life of a block, and
the free values of the model. The record is a field of `State` that no step changes, so a statement
over every state is a statement over every configuration (notes/assumptions/1.md). -/

namespace Sys2Proof

/-- `VARIANT` (R3, R8): it decides only how many rotations there are. -/
inductive Variant where
  | minimal
  | extended
deriving DecidableEq, Repr

/-- `N`, derived from `VARIANT` (R8, R34). -/
def Variant.count : Variant → Nat
  | .minimal => 4
  | .extended => 8

/-- `SCRATCH` (R8, R48). The capacity is an integer because R50 asks whether it is at least 0. -/
inductive Scratch where
  | resident (cap : Int)
  | transient
deriving DecidableEq, Repr

/-- `INVALID_WINDOW_POLICY` (R8, R159). -/
inductive WindowPolicy where
  | suppress
  | stream
deriving DecidableEq, Repr

/-- `FG_RULE` (R8, R284). -/
inductive FgRule where
  | topIndex
  | nonzero
deriving DecidableEq, Repr

/-- `OFFSET_ORDER` (R8, R75). -/
inductive OffsetOrder where
  | be
  | le
deriving DecidableEq, Repr

/-- `INIT_RESET` (R8, R318). -/
inductive InitReset where
  | hardThenSoft
  | hard
  | soft
deriving DecidableEq, Repr

/-- What a run of length 1 that lies off the screen streams under STREAM, where its own length is not
clamped away: R204, R207 and R159 give its pixel, R221 an empty data bracket, and no ruling settles it.
The model holds both (notes/assumptions/19.md). -/
inductive OffscreenRun where
  | streamsPixel
  | emptyBracket
deriving DecidableEq, Repr

/-- The values of `RES_MEM_SIZE`: 1 to 2^32 bytes (R8). -/
abbrev ResMemSize := { n : Nat // 1 ≤ n ∧ n ≤ 2 ^ 32 }

/-- The values of `SCRATCH_CHUNK`: a positive byte count (R8). -/
abbrev ScratchChunk := { n : Nat // 0 < n }

/-- The values of `MADCTL_MY`, `MADCTL_MX` and `MADCTL_MV`: bytes with one bit set (R8). -/
abbrev OneBit := { b : Byte // ∃ k : Fin 8, b = 1 <<< k.val }

/-- The electrical level of each abstract level (R46). No rule reads it: the trace is abstract. -/
structure Polarity where
  csActiveHigh : Bool
  dcDataHigh : Bool
  rstActiveHigh : Bool
  blOnHigh : Bool
deriving DecidableEq, Repr

/-- The configuration record of R8, in its order, with the `BLOCK_BASE` of R85, the polarities of
R46 and the model's own `offscreenRun`. Of R8's entries, PHYS_W and PHYS_H, HAS_DC and SCRATCH alone may
hold a value that is a configuration error (R50). `FILL_CHUNK_PX` and `BLIT_CHUNK` have one legal value each and are the constants below. -/
structure Config where
  physW : Half
  physH : Half
  variant : Variant
  hasCs : Bool
  hasRst : Bool
  hasBl : Bool
  hasDc : Bool
  scratch : Scratch
  resMemSize : ResMemSize
  scratchChunk : ScratchChunk
  windowPolicy : WindowPolicy
  fgRule : FgRule
  offsetOrder : OffsetOrder
  initReset : InitReset
  cmdSwreset : Byte
  cmdSlpin : Byte
  cmdSlpout : Byte
  cmdNoron : Byte
  cmdInvoff : Byte
  cmdInvon : Byte
  cmdDispon : Byte
  cmdCaset : Byte
  cmdPaset : Byte
  cmdRamwr : Byte
  cmdVscrdef : Byte
  cmdMadctl : Byte
  cmdVscrsadd : Byte
  cmdColmod : Byte
  colmod16bpp : Byte
  madctlMy : OneBit
  madctlMx : OneBit
  madctlMv : OneBit
  madctlBase : Byte
  tRstPulse : Nat
  tRstRecover : Nat
  tSwreset : Nat
  tInitSettle : Nat
  blockBase : Nat
  polarity : Polarity
  offscreenRun : OffscreenRun
deriving DecidableEq, Repr

namespace Config

/-- `FILL_CHUNK_PX` = 128 pixels (R8, R47, R190). -/
def fillChunkPx : Nat := 128

/-- `BLIT_CHUNK` = 256 bytes (R8, R241). -/
def blitChunk : Nat := 256

/-- The values of R8's third column. Where that column says "argument" or OPEN this record holds a
DESIGN CHOICE of the model (notes/assumptions/2.md): the arguments are those of the conventions of
spec/95_test_vectors.md, the four delays and `BLOCK_BASE` are 0, and `offscreenRun` follows the
pseudocode of R204 (notes/assumptions/19.md). The command, colour-mode and MADCTL
bytes and the polarities are the spec's own defaults (its general knowledge, K1, K2, K3, K5). -/
def standard : Config where
  physW := 240
  physH := 320
  variant := .extended
  hasCs := true
  hasRst := true
  hasBl := true
  hasDc := true
  scratch := .resident 4096
  resMemSize := ⟨0x10000, by decide⟩
  scratchChunk := ⟨256, by decide⟩
  windowPolicy := .suppress
  fgRule := .topIndex
  offsetOrder := .be
  initReset := .hardThenSoft
  cmdSwreset := 0x01
  cmdSlpin := 0x10
  cmdSlpout := 0x11
  cmdNoron := 0x13
  cmdInvoff := 0x20
  cmdInvon := 0x21
  cmdDispon := 0x29
  cmdCaset := 0x2A
  cmdPaset := 0x2B
  cmdRamwr := 0x2C
  cmdVscrdef := 0x33
  cmdMadctl := 0x36
  cmdVscrsadd := 0x37
  cmdColmod := 0x3A
  colmod16bpp := 0x55
  madctlMy := ⟨0x80, 7, rfl⟩
  madctlMx := ⟨0x40, 6, rfl⟩
  madctlMv := ⟨0x20, 5, rfl⟩
  madctlBase := 0x08
  tRstPulse := 0
  tRstRecover := 0
  tSwreset := 0
  tInitSettle := 0
  blockBase := 0
  polarity :=
    { csActiveHigh := false, dcDataHigh := true, rstActiveHigh := false, blOnHigh := true }
  offscreenRun := .streamsPixel

/-- The k-th value that BITBASE is left with where R43 and R283 leave it unspecified: a free value,
nothing constrains it (notes/assumptions/5.md). -/
opaque freeBitBase : Nat → BitVec 32

/-- The k-th value that BITPOS is left with where R43 and R283 leave it unspecified: a free value of
the register's 35 bits (notes/assumptions/5.md). -/
opaque freeBitPos : Nat → BitVec 35

/-- What the 35-bit BITPOS holds for a bit position of 2^35 or more, which does not fit it: no rule
says how it is narrowed (R14, R17, R43), so it is a free value (notes/assumptions/6.md). -/
opaque narrowedBitPos : Nat → BitVec 35

end Config

end Sys2Proof
end

