-- ==== Sys2Proof/Syntax.lean ====
section
/-! DEFINITION. The commands of the block as syntax: one constructor per row of
spec/opcode_table.json (spec/30_encoding.md R118), each operand in the order of the assembler line
of R130, at the width of its field (R112, R117). -/

namespace Sys2Proof

/-- A command with its fields decoded (R110 to R118). Coordinates and extents are kept as the 16 bits
of their field; the meanings read them as signed (R113, R114). -/
inductive Instr where
  /-- SEND, opcode 0x01 (R160): `hasCmd` is HASCMD, `cmd` is CMDBYTE. -/
  | send (hasCmd : Bool) (cmd : Byte) (addr len : Word)
  /-- SET_WINDOW, opcode 0x02 (R165): the operand order of 90_conflicts.md C1. -/
  | setWindow (x0 x1 y0 y1 : Half)
  /-- ROTATION, opcode 0x03 (R170). -/
  | rotation (n : Byte)
  /-- FILL, opcode 0x04 (R195). -/
  | fill (c : Half)
  /-- FILL_RECT, opcode 0x05 (R198). -/
  | fillRect (x y w h c : Half)
  /-- PIXEL, opcode 0x06 (R201). -/
  | pixel (x y c : Half)
  /-- HLINE, opcode 0x07 (R205). -/
  | hline (x y len c : Half)
  /-- VLINE, opcode 0x08 (R208). -/
  | vline (x y len c : Half)
  /-- RECT, opcode 0x09 (R211). -/
  | rect (x y w h c : Half)
  /-- LINE, opcode 0x0A (R215). -/
  | line (x0 y0 x1 y1 c : Half)
  /-- BLIT, opcode 0x0B (R241). -/
  | blit (addr len : Word) (x y w h : Half)
  /-- TEXT, opcode 0x0C (R270): `w h first last` are the bytes of FONTGEOM. -/
  | text (font : Word) (w h first last : Byte) (str n : Word) (x y fg bg : Half)
  /-- WRITE, opcode 0x0D (R280): `k` is the sample width, `ow` the offset-entry width. -/
  | write (k ow : Byte) (map mlen widths offsets bits : Word) (hgt : Byte) (str n : Word)
      (x y fg bg : Half)
  /-- WRITE_LEN, opcode 0x0E (R290). -/
  | writeLen (map mlen widths str n : Word)
  /-- BITMAP, opcode 0x0F (R300). -/
  | bitmap (k : Byte) (bits pal plen : Word) (w h fcount fidx x y : Half)
  /-- HARD_RESET, opcode 0x10 (R310). -/
  | hardReset
  /-- SOFT_RESET, opcode 0x11 (R312). -/
  | softReset
  /-- SLEEP, opcode 0x12 (R314). -/
  | sleep (en : Bool)
  /-- INVERT, opcode 0x13 (R316). -/
  | invert (en : Bool)
  /-- INIT, opcode 0x14 (R318). -/
  | init
  /-- VSCROLL_DEFINE, opcode 0x15 (R320). -/
  | vscrollDefine (tfa vsa bfa : Half)
  /-- VSCROLL_SET, opcode 0x16 (R321). -/
  | vscrollSet (vsp : Half)
  /-- WIDTH, opcode 0x17 (R330). -/
  | width
  /-- HEIGHT, opcode 0x18 (R331). -/
  | height
deriving DecidableEq, Repr

/-- L, the number of operand words of a command (R118). -/
def Instr.operandCount : Instr → Nat
  | .send .. => 2
  | .setWindow .. => 2
  | .rotation .. => 0
  | .fill .. => 1
  | .fillRect .. => 3
  | .pixel .. => 2
  | .hline .. => 3
  | .vline .. => 3
  | .rect .. => 3
  | .line .. => 3
  | .blit .. => 4
  | .text .. => 6
  | .write .. => 10
  | .writeLen .. => 5
  | .bitmap .. => 6
  | .hardReset => 0
  | .softReset => 0
  | .sleep .. => 0
  | .invert .. => 0
  | .init => 0
  | .vscrollDefine .. => 2
  | .vscrollSet .. => 1
  | .width => 0
  | .height => 0

end Sys2Proof
end

