-- ==== Sys2Proof/Machine/State.lean ====
section
/-! DEFINITION. The state of the block (spec/10_state.md R30 to R52), with resource memory, the
draws and the host's pending accesses beside it as the model's own fields, and the reset state. -/

namespace Sys2Proof.Machine

/-! ## Output lines and the trace (R45, R46) -/

/-- The abstract level of CS or RST (R46). -/
inductive Act where
  | active
  | inactive
deriving DecidableEq, Repr

/-- The level a `PinSet(DC, ·)` sets (R46). -/
inductive DcMode where
  | command
  | data
deriving DecidableEq, Repr

/-- The DC line: undriven from reset to the first `PinSet(DC, ·)` (R46). -/
inductive DcLine where
  | undriven
  | driven (m : DcMode)
deriving DecidableEq, Repr

/-- The level of the backlight line (R46). -/
inductive Light where
  | on
  | off
deriving DecidableEq, Repr

/-- A trace event (R45): a `PinSet` of each of the four pins, a transfer, a failed transfer, a
delay in milliseconds. -/
inductive Event where
  | cs (l : Act)
  | dc (m : DcMode)
  | rst (l : Act)
  | bl (l : Light)
  | xfer (bytes : List Byte)
  | xferFail (bytes : List Byte)
  | delay (ms : Nat)
deriving DecidableEq, Repr

/-! ## Completion codes, stops and refusals -/

/-- The completion codes of R350. Codes 8 to 15 are reserved and never written; `decodeError` is
reserved too and never raised. -/
inductive Code where
  | ok
  | illegalCommand
  | rangeError
  | resourceError
  | transportError
  | resourceBounds
  | configurationError
  | decodeError
deriving DecidableEq, Repr

/-- A fault raised inside a command's own pseudocode (R352), with the info value of R353 to R356.
The info value is a diagnostic of the model only (R359). -/
inductive Raised where
  /-- R353: the frame index. -/
  | rangeError (fidx : Nat)
  /-- R356: the bytes asked for. -/
  | resourceError (n : Nat)
  /-- R355: the byte count of the failed transfer. -/
  | transportError (n : Nat)
  /-- R354: the first byte address that could not be read. -/
  | resourceBounds (addr : Nat)
deriving DecidableEq, Repr

/-- What stops the whole machine with a fault. No command does: every fault of R350 ends a command
with a completion code and the machine goes on (R363). -/
inductive Fault where
  /-- Raised by a host write to a resource-memory address that does not exist, `RES_MEM_SIZE` or above
  (R70). Safe: the model stops where the spec gives no move. -/
  | hostAddressAbsent (addr : Nat)
deriving DecidableEq, Repr

/-- What the model has no meaning for. -/
inductive Refusal where
  /-- An instruction without a meaning, by its mnemonic. Raised by no arm of `exec` today. Safe. -/
  | notModelled (mnemonic : String)
  /-- Raised by a host register access that is not 32 bits wide and 4-byte aligned, which R41 refuses.
  Safe: such a program is outside the spec (93_implementation_defined.md U14). -/
  | hostAccessShape
deriving DecidableEq, Repr

/-! ## Working registers of a LINE (R44) -/

/-- The line-engine registers, mathematical integers (R44). -/
structure LineRegs where
  steep : Bool
  x0 : Int
  y0 : Int
  x1 : Int
  y1 : Int
  dx : Int
  dy : Int
  err : Int
  ystep : Int
  xs : Int
  dlen : Int
deriving DecidableEq, Repr

/-! ## Resource memory (R70) -/

/-- Resource memory as its bytes that differ from `unlistedByte`, addresses strictly rising. -/
abbrev Memory := List Host.Cell

/-- What an unlisted byte of resource memory reads as. The contents are the host's and no source gives
them: DESIGN CHOICE (notes/assumptions/4.md). -/
def unlistedByte : Byte := 0

/-! ## The host's moves (R10, R40, R41, R86, R390) -/

/-- The width of a host register access; only `word` is accepted (R41). -/
inductive AccessWidth where
  | byte
  | half
  | word
  | double
deriving DecidableEq, Repr

/-- A move of the host or of the platform, in the order they reach the block. -/
inductive HostOp where
  /-- A write of a block register, at an offset of the 5-bit space of R40. -/
  | writeReg (width : AccessWidth) (offset : BitVec 5) (value : Word)
  /-- A read of a block register (R40). -/
  | readReg (width : AccessWidth) (offset : BitVec 5)
  /-- A write of one byte of resource memory, between two commands (R86, R87). -/
  | writeMem (addr : Nat) (value : Byte)
  /-- The block's reset input is asserted (R390, R391). -/
  | assertReset
  /-- The block's reset input is released (R390). -/
  | releaseReset
deriving DecidableEq, Repr

/-! ## The state -/

/-- The bytes of the fill scratch: `FILL_CHUNK_PX` pixels (R47). -/
def fillScratchSize : Nat := 2 * Config.fillChunkPx

/-- The state of the block (R30) and, last, the model's own fields. CFG_BAD and PARTIAL are computed
from `cfg` and `pending` (R38, R42, R50). -/
structure State where
  /-- The configuration (R8). No step changes it. -/
  cfg : Config
  /-- ROT (R34). -/
  rot : BitVec 3
  /-- WIDTH (R35). -/
  width : Half
  /-- HEIGHT (R35). -/
  height : Half
  /-- RESULT (R37). -/
  result : Word
  /-- STATUS.BUSY (R38, R41). -/
  busy : Bool
  /-- STATUS.ERR (R38, R351). -/
  err : Bool
  /-- STATUS.LAST (R38, R351). -/
  last : Code
  /-- The pending-command buffer, oldest word first (R42). -/
  pending : List Word
  /-- CP (R33): between steps, the number of words accepted since reset. -/
  cp : Nat
  /-- BITBASE (R43). -/
  bitBase : BitVec 32
  /-- BITPOS (R43). -/
  bitPos : BitVec 35
  /-- The line-engine registers, which exist only during a LINE (R44). -/
  line : Option LineRegs
  /-- The fill scratch, a fixed buffer of `fillScratchSize` bytes (R47). -/
  fillScratch : List Byte
  /-- The contents of the glyph/bitmap scratch (R48), up to the highest byte written since reset or,
  when it is transient, since it was acquired: byte i is `scratchByte i`, for the `scratchSize` bytes
  that are present. -/
  scratch : List Byte
  /-- The bytes of the acquisition in progress, `none` between two uses (R48, R262). -/
  scratchHeld : Option Nat
  /-- The CS line (R46); an unconfigured CS counts as always ACTIVE, see `csLevel`. -/
  cs : Act
  /-- The DC line (R46). -/
  dc : DcLine
  /-- The RST line (R46). -/
  rst : Act
  /-- The BL line (R46). -/
  bl : Light
  /-- The block's reset input is asserted (R390). -/
  resetHeld : Bool
  /-- The trace, oldest event first (R45). -/
  trace : List Event
  /-- Resource memory (R70), owned by the host. -/
  mem : Memory
  /-- The model's own: the coming draws `xfer_ok` (R9); a draw past the end is true. -/
  xferDraws : List Bool
  /-- The model's own: the coming draws `alloc_ok` (R9); a draw past the end is true. -/
  allocDraws : List Bool
  /-- The model's own: the bit position of the decode in progress, when it does not fit BITPOS (R260;
  notes/assumptions/6.md). -/
  bitOver : Option Nat
  /-- The model's own: how many free values have been taken. -/
  freeCount : Nat
  /-- The model's own: the host's moves that have not reached the block yet, oldest first. -/
  inbox : List HostOp
  /-- The model's own: the value the last host register read returned (R40). -/
  readData : Word
deriving DecidableEq, Repr

namespace State

/-- The reset state of R51 for a configuration, a resource memory and draws, which are the
model's arguments and no state of the block (R8, R9, R30). BITBASE, BITPOS and the contents of the two
scratches have no value in the spec: 0, DESIGN CHOICE (notes/assumptions/3.md, 11.md). -/
def resetWith (c : Config) (m : Memory) (xferDraws allocDraws : List Bool) : State where
  cfg := c
  rot := 0
  width := c.physW
  height := c.physH
  result := 0
  busy := false
  err := false
  last := .ok
  pending := []
  cp := 0
  bitBase := 0
  bitPos := 0
  line := none
  fillScratch := List.replicate fillScratchSize 0
  scratch := []
  scratchHeld := none
  cs := .inactive
  dc := .undriven
  rst := .inactive
  bl := .off
  resetHeld := false
  trace := []
  mem := m
  xferDraws := xferDraws
  allocDraws := allocDraws
  bitOver := none
  freeCount := 0
  inbox := []
  readData := 0

/-- The machine right after reset, under the configuration `Config.standard`, with nothing listed in
resource memory and no draw that fails (notes/assumptions/2.md, 4.md, 7.md). -/
def reset : State := resetWith Config.standard [] [] []

/-- How many bytes of the glyph/bitmap scratch are present: a resident buffer of `cap` bytes always, a
transient one while it is acquired (R48, R262). -/
def scratchSize (s : State) : Nat :=
  match s.cfg.scratch with
  | .resident cap => cap.toNat
  | .transient => s.scratchHeld.getD 0

/-- Byte i of the glyph/bitmap scratch, `none` where no byte is present (R48). A byte that nothing has
written since reset is 0: DESIGN CHOICE (notes/assumptions/11.md). -/
def scratchByte (s : State) (i : Nat) : Option Byte :=
  if i < s.scratchSize then some (s.scratch.getD i 0) else none

end State

end Sys2Proof.Machine
end

