-- ==== Sys2Proof/Machine/Flags.lean ====
section
/-! DEFINITION. The flags of STATUS (spec/10_state.md R38, R49, R50), the one end-of-command status
write (spec/60_exceptions.md R351) and the register as the host reads it. The block has no condition
codes and no arithmetic flags (R49). -/

namespace Sys2Proof.Machine

/-- The 4-bit value of a completion code (R350). -/
def codeBits : Code → BitVec 4
  | .ok => 0
  | .illegalCommand => 1
  | .rangeError => 2
  | .resourceError => 3
  | .transportError => 4
  | .resourceBounds => 5
  | .configurationError => 6
  | .decodeError => 7

/-- The completion code of a raised fault (R350). -/
def raisedCode : Raised → Code
  | .rangeError _ => .rangeError
  | .resourceError _ => .resourceError
  | .transportError _ => .transportError
  | .resourceBounds _ => .resourceBounds

/-- The capacity condition of R50. -/
def scratchLegal : Scratch → Bool
  | .transient => true
  | .resident cap => decide (0 ≤ cap)

/-- The configuration is legal (R50). -/
def configLegal (c : Config) : Bool :=
  decide ((c.physW = 240 ∧ c.physH = 320) ∨ (c.physW = 320 ∧ c.physH = 240))
    && c.hasDc && scratchLegal c.scratch

/-- STATUS.CFG_BAD (R38, R50). -/
def cfgBad (s : State) : Bool := !configLegal s.cfg

/-- STATUS.PARTIAL: a header has been accepted and operand words are outstanding (R38, R42). -/
def partialBit (s : State) : Bool := !s.pending.isEmpty

/-- STATUS, bit by bit (R38); bits 3 and 31:12 are reserved and read 0. -/
def statusWord (s : State) : Word :=
  (0 : BitVec 20) ++ BitVec.ofBool (cfgBad s) ++ s.rot ++ codeBits s.last ++ (0 : BitVec 1)
    ++ BitVec.ofBool (partialBit s) ++ BitVec.ofBool s.err ++ BitVec.ofBool s.busy

/-- The status write at the end of every command (R351): LAST takes the code, ERR is set by a nonzero
code and cleared by none. -/
def recordCompletion (code : Code) (s : State) : State :=
  { s with last := code, err := s.err || decide (code ≠ .ok) }

end Sys2Proof.Machine
end

