-- ==== Sys2Proof/Machine/Operands.lean ====
section
/-! DEFINITION. The operand forms and byte orders of spec/00_scope.md R13, spec/20_memory.md R74,
R75, R77, R78 and spec/30_encoding.md R113: how a field becomes a number and a number becomes
bytes. -/

namespace Sys2Proof.Machine

/-- `s16` of a coordinate or extent field (R13, R113). -/
def s16 (h : Half) : Int := h.toInt

/-- `max(v, 0)` of an extent, as a natural number (R17). -/
def extent (v : Int) : Nat := (max v 0).toNat

/-- `BE16` (R13, R77): the high byte first. -/
def be16 (v : Half) : List Byte := [v.extractLsb' 8 8, v.extractLsb' 0 8]

/-- `BE16` of a window coordinate; exact on the coordinates that pass the window check (R14, R78). -/
def be16Int (v : Int) : List Byte := be16 (BitVec.ofInt 16 v)

/-- `LE16(b0, b1)` (R13, R74). -/
def le16 (b0 b1 : Byte) : Half := b1 ++ b0

/-- `repeat(n, BE16(c))`: n pixels of one colour (R16, R190). -/
def pixels (c : Half) (n : Nat) : List Byte := (List.replicate n (be16 c)).flatten

/-- The value of an offset-table entry's bytes under OFFSET_ORDER (R75). -/
def offsetValue : OffsetOrder → List Byte → Nat
  | .be, bs => bs.foldl (fun v b => 256 * v + b.toNat) 0
  | .le, bs => bs.foldr (fun b v => b.toNat + 256 * v) 0

/-- `ceil(a / b)` (R17). -/
def ceilDiv (a b : Nat) : Nat := (a + b - 1) / b

end Sys2Proof.Machine
end

