-- ==== Sys2Proof/WellFormed.lean ====
section
/-! DEFINITION. The field constraints of spec/30_encoding.md R120: the values a decoded field may
not take. Every other field takes every value of its width (R114, R115, R116). -/

namespace Sys2Proof

/-- K, the sample width of WRITE and BITMAP, is in 1..8 (R120). -/
def sampleWidthOk (k : Byte) : Bool := decide (1 ≤ k.toNat ∧ k.toNat ≤ 8)

/-- OW, the offset-entry width of WRITE, is in 1..3 (R120). -/
def offsetWidthOk (ow : Byte) : Bool := decide (1 ≤ ow.toNat ∧ ow.toNat ≤ 3)

/-- W, the glyph width of TEXT, is a nonzero multiple of 8 (R120). -/
def glyphWidthOk (w : Byte) : Bool := decide (w.toNat ≠ 0 ∧ w.toNat % 8 = 0)

/-- The constraints of R120 on a decoded command. -/
def Instr.wf : Instr → Bool
  | .send .. => true
  | .setWindow .. => true
  | .rotation .. => true
  | .fill .. => true
  | .fillRect .. => true
  | .pixel .. => true
  | .hline .. => true
  | .vline .. => true
  | .rect .. => true
  | .line .. => true
  | .blit .. => true
  | .text _ w .. => glyphWidthOk w
  | .write k ow .. => sampleWidthOk k && offsetWidthOk ow
  | .writeLen .. => true
  | .bitmap k .. => sampleWidthOk k
  | .hardReset => true
  | .softReset => true
  | .sleep .. => true
  | .invert .. => true
  | .init => true
  | .vscrollDefine .. => true
  | .vscrollSet .. => true
  | .width => true
  | .height => true

end Sys2Proof
end

