-- ==== Sys2Proof/Machine/Ops.lean ====
section
/-! DEFINITION. The named operations of the block: resource memory, the trace and the lines, the one
transfer primitive, brackets, scratch, the bit reader's registers, and the beginning and the end of a
command, faults included (spec/20_memory.md, spec/40_protocol_window.md section 1,
spec/60_exceptions.md section 2). -/

namespace Sys2Proof.Machine

/-! ## Resource memory (R70 to R76) -/

/-- One byte of resource memory. -/
def Memory.read : Memory → Nat → Byte
  | [], _ => unlistedByte
  | (k, v) :: m, a => if a = k then v else Memory.read m a

/-- A host write of one byte. Writing the value an unlisted address reads as removes the entry. -/
def Memory.write : Memory → Nat → Byte → Memory
  | [], a, b => if b = unlistedByte then [] else [(a, b)]
  | (k, v) :: m, a, b =>
    if a < k then (if b = unlistedByte then (k, v) :: m else (a, b) :: (k, v) :: m)
    else if a = k then (if b = unlistedByte then m else (a, b) :: m)
    else (k, v) :: Memory.write m a b

/-- The canonical form: addresses strictly rising, no entry equal to an unlisted byte. -/
def Memory.wf (m : Memory) : Bool :=
  decide (m.Pairwise fun p q => p.1 < q.1) && m.all fun p => decide (p.2 ≠ unlistedByte)

/-- The bytes at `addr .. addr+n-1`, in that order. -/
def Memory.readBytes (m : Memory) (addr n : Nat) : List Byte :=
  (List.range n).map fun i => m.read (addr + i)

/-! ## Events and lines (R45, R46) -/

/-- Append one event to the trace; a `PinSet` also sets the level of its line (R46). -/
def State.emit (s : State) (e : Event) : State :=
  match e with
  | .cs l => { s with trace := s.trace ++ [e], cs := l }
  | .dc m => { s with trace := s.trace ++ [e], dc := .driven m }
  | .rst l => { s with trace := s.trace ++ [e], rst := l }
  | .bl l => { s with trace := s.trace ++ [e], bl := l }
  | .xfer _ => { s with trace := s.trace ++ [e] }
  | .xferFail _ => { s with trace := s.trace ++ [e] }
  | .delay _ => { s with trace := s.trace ++ [e] }

/-- `CsAssert()` (R151). -/
def State.csAssert (s : State) : State := if s.cfg.hasCs then s.emit (.cs .active) else s

/-- `CsRelease()` (R151). -/
def State.csRelease (s : State) : State := if s.cfg.hasCs then s.emit (.cs .inactive) else s

/-- The level of CS; an unconfigured CS counts as always ACTIVE (R46). -/
def State.csLevel (s : State) : Act := if s.cfg.hasCs then s.cs else .active

/-- The electrical level of CS, true for high (R46). -/
def State.csHigh (s : State) : Bool :=
  if s.csLevel = .active then s.cfg.polarity.csActiveHigh else !s.cfg.polarity.csActiveHigh

/-- The electrical level of DC, `none` while undriven (R46). -/
def State.dcHigh (s : State) : Option Bool :=
  match s.dc with
  | .undriven => none
  | .driven .data => some s.cfg.polarity.dcDataHigh
  | .driven .command => some (!s.cfg.polarity.dcDataHigh)

/-- The electrical level of RST (R46). -/
def State.rstHigh (s : State) : Bool :=
  if s.rst = .active then s.cfg.polarity.rstActiveHigh else !s.cfg.polarity.rstActiveHigh

/-- The electrical level of BL (R46). -/
def State.blHigh (s : State) : Bool :=
  if s.bl = .on then s.cfg.polarity.blOnHigh else !s.cfg.polarity.blOnHigh

/-! ## A command's pseudocode (R15)

A piece of pseudocode is a function of the state that answers a value and the state after it, or the
fault it raised and the state at the point of the fault (R352). -/

/-- A piece of a command's pseudocode. -/
abbrev Cmd (α : Type) := EStateM Raised State α

/-- `raise F(info)` (R15, R352). -/
def raise {α : Type} (f : Raised) : Cmd α := fun s => .error f s

/-- Pseudocode that reads the state at this point. -/
def withState {α : Type} (g : State → Cmd α) : Cmd α := fun s => g s s

/-- Pseudocode that only updates the state. -/
def update (g : State → State) : Cmd Unit := fun s => .ok () (g s)

/-- `for i in a..a+n-1` (R15). -/
def forUp (n a : Nat) (body : Nat → Cmd Unit) : Cmd Unit :=
  match n with
  | 0 => pure ()
  | n + 1 => do
    body a
    forUp n (a + 1) body

/-- The concatenation of the byte lists of `for i in a..a+n-1`. -/
def collectBytes (n a : Nat) (body : Nat → Cmd (List Byte)) : Cmd (List Byte) :=
  match n with
  | 0 => pure []
  | n + 1 => do
    let here ← body a
    let rest ← collectBytes n (a + 1) body
    pure (here ++ rest)

/-- `MemRead(addr, n)` (R15, R71): nothing is read and nothing can fault when n = 0. The address is a
mathematical integer and never wraps. -/
def memRead (addr n : Nat) : Cmd (List Byte) := fun s =>
  if n = 0 then .ok [] s
  else if addr + n ≤ s.cfg.resMemSize then .ok (s.mem.readBytes addr n) s
  else .error (.resourceBounds addr) s

/-- `MemRead8(addr)` (R15). -/
def memRead8 (addr : Nat) : Cmd Byte := do
  let bs ← memRead addr 1
  pure (bs.headD unlistedByte)

/-- `Delay(ms)` (R15, R45). -/
def delay (ms : Nat) : Cmd Unit := update fun s => s.emit (.delay ms)

/-- `PinSet(DC, ·)` (R15). DC is required, so it is always configured when a command runs (R50). -/
def setDc (m : DcMode) : Cmd Unit := update fun s => s.emit (.dc m)

/-- `PinSet(RST, ·)`, not emitted when RST is not configured (R45). -/
def setRst (l : Act) : Cmd Unit := update fun s => if s.cfg.hasRst then s.emit (.rst l) else s

/-- `PinSet(BL, ·)`, not emitted when BL is not configured (R45). -/
def setBl (l : Light) : Cmd Unit := update fun s => if s.cfg.hasBl then s.emit (.bl l) else s

/-! ## Transfers and brackets (R150 to R155) -/

/-- The next draw `xfer_ok` (R9, R152). -/
def State.nextXferOk (s : State) : Bool := s.xferDraws.headD true

/-- The next draw `alloc_ok` (R9, R262). -/
def State.nextAllocOk (s : State) : Bool := s.allocDraws.headD true

/-- `XferOut(bytes)` (R152, R355). -/
def xferOut (bytes : List Byte) : Cmd Unit := fun s =>
  let t := { s with xferDraws := s.xferDraws.tail }
  if s.nextXferOk then .ok () (t.emit (.xfer bytes))
  else .error (.transportError bytes.length) (t.emit (.xferFail bytes))

/-- A transaction: CS is asserted, the body runs, and CS is released on every exit path, a fault
included (R150, R352). -/
def bracketed (body : Cmd Unit) : Cmd Unit := fun s =>
  match body s.csAssert with
  | .ok _ t => .ok () t.csRelease
  | .error f t => .error f t.csRelease

/-- `DataBracket(body)` (R155). -/
def dataBracket (body : Cmd Unit) : Cmd Unit :=
  bracketed do
    setDc .data
    body

/-! ## Scratch (R47, R48, R262) -/

/-- `AcquireScratch(n)` (R262). -/
def acquireScratch (n : Nat) : Cmd Unit := fun s =>
  match s.cfg.scratch with
  | .resident cap =>
    if (n : Int) > cap then .error (.resourceError n) s
    else .ok () { s with scratchHeld := some n }
  | .transient =>
    let t := { s with allocDraws := s.allocDraws.tail }
    if s.nextAllocOk then .ok () { t with scratchHeld := some n, scratch := [] }
    else .error (.resourceError n) t

/-- The release of the scratch, which emits no event (R262, R352): a resident buffer keeps its bytes, a
transient one is gone (R48). -/
def State.releaseScratch (s : State) : State :=
  { s with
    scratchHeld := none
    scratch := match s.cfg.scratch with
      | .resident _ => s.scratch
      | .transient => [] }

/-- Use the scratch and release it on every exit path, a fault included (R262, R352). -/
def releasing {α : Type} (body : Cmd α) : Cmd α := fun s =>
  match body s with
  | .ok a t => .ok a t.releaseScratch
  | .error f t => .error f t.releaseScratch

/-- Acquire n bytes, use them, and release them (R262). -/
def withScratch {α : Type} (n : Nat) (body : Cmd α) : Cmd α := do
  acquireScratch n
  releasing body

/-- The decoded pixels are written to the scratch from its first byte on (R261); the bytes behind them
stay, and none stands past the end of the buffer. -/
def storeScratch (bytes : List Byte) : Cmd Unit := update fun s =>
  { s with scratch := (bytes ++ s.scratch.drop bytes.length).take s.scratchSize }

/-! ## Registers (R34 to R37, R43) -/

/-- `RESULT <- v mod 2^32` (R17, R37). -/
def setResult (v : Nat) : Cmd Unit := update fun s => { s with result := BitVec.ofNat 32 v }

/-- The bit position of a decode, a mathematical integer that never wraps (R17, R260): BITPOS, or the
position that does not fit it. -/
def State.bitIndex (s : State) : Nat := s.bitOver.getD s.bitPos.toNat

/-- `BITPOS <- pos` (R43). A position of 2^35 or more is kept beside the register for the decode in
progress, and the register takes a free value (notes/assumptions/6.md). -/
def State.atBit (s : State) (pos : Nat) : State :=
  { s with
    bitPos := if pos < 2 ^ 35 then BitVec.ofNat 35 pos else Config.narrowedBitPos pos
    bitOver := if pos < 2 ^ 35 then none else some pos }

/-- `BITBASE <- base; BITPOS <- pos` (R43, R283, R302). -/
def seedCursor (base : Word) (pos : Nat) : Cmd Unit := update fun s =>
  State.atBit { s with bitBase := base } pos

/-- The end of a decode: BITBASE and BITPOS are unspecified from here on, so each takes the next free
value (R43, R283; notes/assumptions/5.md). -/
def forgetCursor : Cmd Unit := update fun s =>
  { s with
    bitBase := Config.freeBitBase s.freeCount
    bitPos := Config.freeBitPos s.freeCount
    bitOver := none
    freeCount := s.freeCount + 1 }

/-! ## The beginning and the end of a command (R33, R351, R352, R357, R358, R362) -/

/-- The end of every command, by success or by a fault: CP advances, what exists only inside a command
is gone and the status write comes last (R33, R44, R262, R351, R352). -/
def endCommand (len : Nat) (code : Code) (s : State) : State :=
  recordCompletion code
    { s with cp := s.cp + len, line := none, scratchHeld := none, bitOver := none, busy := false }

/-- One command of `len` words, atomically (R10): the configuration is checked first, then the
decoder's constraints, then the body runs; a raised fault ends it at its point (R123, R352, R357,
R358, R362). -/
def runCommand (len : Nat) (fieldsOk : Bool) (body : Cmd Unit) (s : State) : State :=
  if configLegal s.cfg = false then endCommand len .configurationError s
  else if fieldsOk = false then endCommand len .illegalCommand s
  else
    match body { s with busy := true } with
    | .ok _ t => endCommand len .ok t
    | .error f t => endCommand len (raisedCode f) t

end Sys2Proof.Machine
end

