-- ==== Sys2Proof/Machine/Protocol.lean ====
section
/-! DEFINITION. The sequencer's framing, the window controller and the rotation mapper, and the
commands SEND, SET_WINDOW and ROTATION (spec/40_protocol_window.md). -/

namespace Sys2Proof.Machine

/-- The command byte of a `Send`, if there is one (R153). -/
def sendHead (c : Option Byte) : Cmd Unit :=
  match c with
  | none => pure ()
  | some b => do
    setDc .command
    xferOut [b]

/-- The payload of a `Send`, if it is not empty (R153). -/
def sendPayload (p : List Byte) : Cmd Unit :=
  if p.isEmpty then pure ()
  else do
    setDc .data
    xferOut p

/-- `Send(c, p)` (R153). -/
def send (c : Option Byte) (p : List Byte) : Cmd Unit :=
  bracketed do
    sendHead c
    sendPayload p

/-- `Send` of one command byte of the configuration. -/
def sendCmd (byte : Config → Byte) (p : List Byte) : Cmd Unit := withState fun s =>
  send (some (byte s.cfg)) p

/-- `WindowRaw` (R156). -/
def windowRaw (x0 y0 x1 y1 : Int) : Cmd Unit := do
  sendCmd Config.cmdCaset (be16Int x0 ++ be16Int x1)
  sendCmd Config.cmdPaset (be16Int y0 ++ be16Int y1)
  sendCmd Config.cmdRamwr []

/-- `Valid` (R157). -/
def validWindow (s : State) (x0 y0 x1 y1 : Int) : Bool :=
  decide (0 ≤ x0 ∧ x0 ≤ x1 ∧ x1 < s.width.toNat ∧ 0 ≤ y0 ∧ y0 ≤ y1 ∧ y1 < s.height.toNat)

/-- `OpenWindow` (R158). -/
def openWindow (x0 y0 x1 y1 : Int) : Cmd Bool := withState fun s =>
  if validWindow s x0 y0 x1 y1 then do
    windowRaw x0 y0 x1 y1
    pure true
  else pure false

/-- `PixelStream` (R159). -/
def pixelStream (x0 y0 x1 y1 : Int) (body : Cmd Unit) : Cmd Unit := do
  let ok ← openWindow x0 y0 x1 y1
  withState fun s =>
    if ok ∨ s.cfg.windowPolicy = .stream then dataBracket body else pure ()

/-- A row of the rotation table: the mirror and exchange bits and the swap of width and height
(R171). -/
structure RotationRow where
  mx : Bool
  my : Bool
  mv : Bool
  swap : Bool
deriving DecidableEq, Repr

/-- The rotation table (R171, R172). -/
def rotationRow (r : Nat) : RotationRow :=
  match r with
  | 0 => ⟨false, false, false, false⟩
  | 1 => ⟨true, false, true, true⟩
  | 2 => ⟨true, true, false, false⟩
  | 3 => ⟨false, true, true, true⟩
  | 4 => ⟨true, false, false, false⟩
  | 5 => ⟨false, false, true, true⟩
  | 6 => ⟨false, true, false, false⟩
  | _ => ⟨true, true, true, true⟩

/-- `bits(r)`: the OR of the MADCTL bits the row names (R171). -/
def rotationBits (c : Config) (r : Nat) : Byte :=
  let row := rotationRow r
  (if row.mx then c.madctlMx.val else 0) ||| (if row.my then c.madctlMy.val else 0)
    ||| (if row.mv then c.madctlMv.val else 0)

/-- WIDTH under rotation r (R36). -/
def rotatedWidth (c : Config) (r : Nat) : Half := if (rotationRow r).swap then c.physH else c.physW

/-- HEIGHT under rotation r (R36). -/
def rotatedHeight (c : Config) (r : Nat) : Half := if (rotationRow r).swap then c.physW else c.physH

/-- The register writes of a rotation (R170). -/
def setRotation (r : Nat) : Cmd Unit := update fun s =>
  { s with rot := BitVec.ofNat 3 r, width := rotatedWidth s.cfg r,
           height := rotatedHeight s.cfg r }

/-- `RotationSeq(n)` (R170, R319): the registers are written before the orientation is sent. -/
def rotationSeq (n : Nat) : Cmd Unit := withState fun s => do
  let r := n % s.cfg.variant.count
  setRotation r
  sendCmd Config.cmdMadctl [s.cfg.madctlBase ||| rotationBits s.cfg r]

/-- SEND (R160). -/
def execSend (hasCmd : Bool) (cmd : Byte) (addr len : Word) (s : State) :
    Host.Outcome State Fault Refusal :=
  .next (runCommand 3 true (do
    let p ← memRead addr.toNat len.toNat
    send (if hasCmd then some cmd else none) p) s)

/-- SET_WINDOW (R165). -/
def execSetWindow (x0 x1 y0 y1 : Half) (s : State) : Host.Outcome State Fault Refusal :=
  .next (runCommand 3 true (do
    let _ ← openWindow (s16 x0) (s16 y0) (s16 x1) (s16 y1)
    pure ()) s)

/-- ROTATION (R170). -/
def execRotation (n : Byte) (s : State) : Host.Outcome State Fault Refusal :=
  .next (runCommand 1 true (rotationSeq n.toNat) s)

end Sys2Proof.Machine
end

