-- ==== Sys2Proof/Machine/Blit.lean ====
section
/-! DEFINITION. The buffer blitter: BLIT (spec/42_blit.md). -/

namespace Sys2Proof.Machine

/-- `MemStream(addr, n, K)` (R240): each chunk is read just before it is sent. -/
def memStream (addr n k : Nat) : Cmd Unit := do
  forUp (n / k) 0 fun i => do
    let bs ← memRead (addr + i * k) k
    xferOut bs
  if n % k = 0 then pure ()
  else do
    let bs ← memRead (addr + n / k * k) (n % k)
    xferOut bs

/-- BLIT (R241, R242): the bytes pass through unswapped. -/
def execBlit (addr len : Word) (x y w h : Half) (s : State) : Host.Outcome State Fault Refusal :=
  .next (runCommand 5 true
    (pixelStream (s16 x) (s16 y) (s16 x + s16 w - 1) (s16 y + s16 h - 1)
      (memStream addr.toNat (min len.toNat (extent (s16 w) * extent (s16 h) * 2))
        Config.blitChunk)) s)

end Sys2Proof.Machine
end

