-- ==== Sys2Proof/Machine/Raster.lean ====
section
/-! DEFINITION. The colour filler and the rasterizer: FILL, FILL_RECT, PIXEL, HLINE, VLINE, RECT and
LINE (spec/41_fill_raster.md). -/

namespace Sys2Proof.Machine

/-- One transfer of the first n pixels of the fill scratch (R190). -/
def xferFill (n : Nat) : Cmd Unit := withState fun s => xferOut (s.fillScratch.take (2 * n))

/-- The filler writes all 128 entries of the fill scratch with the byte-swapped colour (R47, R190). -/
def loadFillScratch (c : Half) : Cmd Unit := update fun s =>
  { s with fillScratch := pixels c Config.fillChunkPx }

/-- `FillStream(c, n)` (R190): the full chunks, then the partial one if there is a remainder. -/
def fillStream (c : Half) (n : Nat) : Cmd Unit := do
  loadFillScratch c
  forUp (n / Config.fillChunkPx) 0 fun _ => xferFill Config.fillChunkPx
  if n % Config.fillChunkPx = 0 then pure () else xferFill (n % Config.fillChunkPx)

/-- The body of FILL: the whole logical screen in one colour (R195). -/
def fillScreen (c : Half) : Cmd Unit := withState fun s =>
  pixelStream 0 0 ((s.width.toNat : Int) - 1) ((s.height.toNat : Int) - 1)
    (fillStream c (s.width.toNat * s.height.toNat))

/-- `PixelOp` (R200). -/
def pixelOp (x y : Int) (c : Half) : Cmd Unit := pixelStream x y x y (xferOut (be16 c))

/-- The pixels that a run of length `len` from (x, y), clamped to `len'`, streams (R204, R207): where the
configuration says so, an off-screen run of length 1 streams none (R221; notes/assumptions/19.md). -/
def runPixels (s : State) (x y len len' : Int) : Nat :=
  if s.cfg.offscreenRun = .emptyBracket ∧ len = 1 ∧ validWindow s x y x y = false then 0
  else extent len'

/-- `HLineOp` (R204): clamped at the right edge only. -/
def hlineOp (x y w : Int) (c : Half) : Cmd Unit := withState fun s =>
  let w' := if x + w > s.width.toNat then s.width.toNat - x else w
  pixelStream x y (x + w' - 1) y (fillStream c (runPixels s x y w w'))

/-- `VLineOp` (R207): clamped at the bottom edge only. -/
def vlineOp (x y h : Int) (c : Half) : Cmd Unit := withState fun s =>
  let h' := if y + h > s.height.toNat then s.height.toNat - y else h
  pixelStream x y x (y + h' - 1) (fillStream c (runPixels s x y h h'))

/-! ## The line engine (R216 to R218) -/

/-- The setup of LINE (R216). -/
def lineSetup (x0 y0 x1 y1 : Int) : LineRegs :=
  let steep := decide ((y1 - y0).natAbs > (x1 - x0).natAbs)
  let a := if steep then (y0, x0, y1, x1) else (x0, y0, x1, y1)
  let b := if a.1 > a.2.2.1 then (a.2.2.1, a.2.2.2, a.1, a.2.1) else a
  let dx := b.2.2.1 - b.1
  { steep := steep, x0 := b.1, y0 := b.2.1, x1 := b.2.2.1, y1 := b.2.2.2, dx := dx,
    dy := (b.2.2.2 - b.2.1).natAbs, err := dx / 2, ystep := if b.2.1 < b.2.2.2 then 1 else -1,
    xs := b.1, dlen := 0 }

/-- A run: its major start, its minor coordinate and its length (R217). -/
structure LineRun where
  start : Int
  minor : Int
  len : Int
deriving DecidableEq, Repr

/-- One step of the walk at major coordinate x: the registers after it and the run it flushes, if the
minor coordinate steps (R217). -/
def lineAdvance (r : LineRegs) (x : Int) : LineRegs × Option LineRun :=
  let dlen := r.dlen + 1
  let err := r.err - r.dy
  if err < 0 then
    ({ r with err := err + r.dx, dlen := 0, y0 := r.y0 + r.ystep, xs := x + 1 },
      some ⟨r.xs, r.y0, dlen⟩)
  else ({ r with err := err, dlen := dlen }, none)

/-- `Flush(s, m, len)` (R217). -/
def flushRun (steep : Bool) (c : Half) (run : LineRun) : Cmd Unit :=
  if run.len = 1 then
    if steep then pixelOp run.minor run.start c else pixelOp run.start run.minor c
  else
    if steep then vlineOp run.minor run.start run.len c
    else hlineOp run.start run.minor run.len c

/-- The flush of a step of the walk, if it has one (R217). -/
def flushStep (steep : Bool) (c : Half) (run : Option LineRun) : Cmd Unit :=
  match run with
  | none => pure ()
  | some run => flushRun steep c run

/-- The line-engine registers are written (R44). -/
def putLine (r : LineRegs) : Cmd Unit := update fun s => { s with line := some r }

/-- The walk over n major coordinates from x (R217). -/
def lineWalk (c : Half) (n : Nat) (x : Int) (r : LineRegs) : Cmd LineRegs :=
  match n with
  | 0 => pure r
  | n + 1 => do
    let next := lineAdvance r x
    putLine next.1
    flushStep r.steep c next.2
    lineWalk c n (x + 1) next.1

/-- LINE without its `pc` step: the setup, the walk, the leftover run (R216 to R218). -/
def lineOp (x0 y0 x1 y1 : Int) (c : Half) : Cmd Unit := do
  let r := lineSetup x0 y0 x1 y1
  putLine r
  let e ← lineWalk c (extent (r.dx + 1)) r.x0 r
  if e.dlen > 0 then flushRun e.steep c ⟨e.xs, e.y0, e.dlen⟩ else pure ()

/-! ## The commands -/

/-- FILL (R195). -/
def execFill (c : Half) (s : State) : Host.Outcome State Fault Refusal :=
  .next (runCommand 2 true (fillScreen c) s)

/-- FILL_RECT (R198): no clamping. -/
def execFillRect (x y w h c : Half) (s : State) : Host.Outcome State Fault Refusal :=
  .next (runCommand 4 true
    (pixelStream (s16 x) (s16 y) (s16 x + s16 w - 1) (s16 y + s16 h - 1)
      (fillStream c (extent (s16 w) * extent (s16 h)))) s)

/-- PIXEL (R201). -/
def execPixel (x y c : Half) (s : State) : Host.Outcome State Fault Refusal :=
  .next (runCommand 3 true (pixelOp (s16 x) (s16 y) c) s)

/-- HLINE (R205). -/
def execHline (x y len c : Half) (s : State) : Host.Outcome State Fault Refusal :=
  .next (runCommand 4 true (hlineOp (s16 x) (s16 y) (s16 len) c) s)

/-- VLINE (R208). -/
def execVline (x y len c : Half) (s : State) : Host.Outcome State Fault Refusal :=
  .next (runCommand 4 true (vlineOp (s16 x) (s16 y) (s16 len) c) s)

/-- RECT (R211): top, left, bottom, right. -/
def execRect (x y w h c : Half) (s : State) : Host.Outcome State Fault Refusal :=
  .next (runCommand 4 true (do
    hlineOp (s16 x) (s16 y) (s16 w) c
    vlineOp (s16 x) (s16 y) (s16 h) c
    hlineOp (s16 x) (s16 y + s16 h - 1) (s16 w) c
    vlineOp (s16 x + s16 w - 1) (s16 y) (s16 h) c) s)

/-- LINE (R215). -/
def execLine (x0 y0 x1 y1 c : Half) (s : State) : Host.Outcome State Fault Refusal :=
  .next (runCommand 4 true (lineOp (s16 x0) (s16 y0) (s16 x1) (s16 y1) c) s)

end Sys2Proof.Machine
end

