-- ==== Sys2Proof/Machine/Control.lean ====
section
/-! DEFINITION. The panel control commands: HARD_RESET, SOFT_RESET, SLEEP, INVERT, INIT,
VSCROLL_DEFINE, VSCROLL_SET, WIDTH and HEIGHT (spec/44_control.md). -/

namespace Sys2Proof.Machine

/-- `Delay` of a duration of the configuration. -/
def delayFor (d : Config → Nat) : Cmd Unit := withState fun s => delay (d s.cfg)

/-- `HardResetSeq()` (R310): without RST the delays are not emitted either. -/
def hardResetSeq : Cmd Unit := withState fun s =>
  if s.cfg.hasRst then do
    setRst .active
    delayFor Config.tRstPulse
    setRst .inactive
    delayFor Config.tRstRecover
  else pure ()

/-- `SoftResetSeq()` (R312). -/
def softResetSeq : Cmd Unit := do
  sendCmd Config.cmdSwreset []
  delayFor Config.tSwreset

/-- The reset step of INIT (R318). -/
def initResetSeq : Cmd Unit := withState fun s =>
  match s.cfg.initReset with
  | .hardThenSoft => do
    hardResetSeq
    softResetSeq
  | .hard => hardResetSeq
  | .soft => softResetSeq

/-- INIT without its `pc` step (R318, R319). -/
def initSeq : Cmd Unit := do
  initResetSeq
  sendCmd Config.cmdSlpout []
  withState fun s => sendCmd Config.cmdColmod [s.cfg.colmod16bpp]
  withState fun s => rotationSeq s.rot.toNat
  sendCmd Config.cmdInvon []
  sendCmd Config.cmdNoron []
  fillScreen 0
  setBl .on
  sendCmd Config.cmdDispon []
  delayFor Config.tInitSettle

/-- HARD_RESET (R310, R311). -/
def execHardReset (s : State) : Host.Outcome State Fault Refusal :=
  .next (runCommand 1 true hardResetSeq s)

/-- SOFT_RESET (R312). -/
def execSoftReset (s : State) : Host.Outcome State Fault Refusal :=
  .next (runCommand 1 true softResetSeq s)

/-- SLEEP (R314). -/
def execSleep (en : Bool) (s : State) : Host.Outcome State Fault Refusal :=
  .next (runCommand 1 true
    (if en then sendCmd Config.cmdSlpin [] else sendCmd Config.cmdSlpout []) s)

/-- INVERT (R316). -/
def execInvert (en : Bool) (s : State) : Host.Outcome State Fault Refusal :=
  .next (runCommand 1 true
    (if en then sendCmd Config.cmdInvon [] else sendCmd Config.cmdInvoff []) s)

/-- INIT (R318). -/
def execInit (s : State) : Host.Outcome State Fault Refusal :=
  .next (runCommand 1 true initSeq s)

/-- VSCROLL_DEFINE (R320): the values are not checked. -/
def execVscrollDefine (tfa vsa bfa : Half) (s : State) : Host.Outcome State Fault Refusal :=
  .next (runCommand 3 true (sendCmd Config.cmdVscrdef (be16 tfa ++ be16 vsa ++ be16 bfa)) s)

/-- VSCROLL_SET (R321): the value is not checked. -/
def execVscrollSet (vsp : Half) (s : State) : Host.Outcome State Fault Refusal :=
  .next (runCommand 2 true (sendCmd Config.cmdVscrsadd (be16 vsp)) s)

/-- The WIDTH command (R330). -/
def execWidth (s : State) : Host.Outcome State Fault Refusal :=
  .next (runCommand 1 true (withState fun t => setResult t.width.toNat) s)

/-- The HEIGHT command (R331). -/
def execHeight (s : State) : Host.Outcome State Fault Refusal :=
  .next (runCommand 1 true (withState fun t => setResult t.height.toNat) s)

end Sys2Proof.Machine
end

