-- ==== Sys2Proof/Machine/Glyph.lean ====
section
/-! DEFINITION. The bit reader, the glyph and the bitmap engines: TEXT, WRITE, WRITE_LEN and BITMAP
(spec/43_glyph_bitmap.md). -/

namespace Sys2Proof.Machine

/-! ## The bit reader and the scratch blit (R260, R263) -/

/-- K steps of the bit reader, `v` being the bits read so far (R260). The address is a mathematical
integer: a position past the end of resource memory faults and never wraps. -/
def bitReadFrom (v k : Nat) : Cmd Nat :=
  match k with
  | 0 => pure v
  | k + 1 => withState fun s => do
    let byte ← memRead8 (s.bitBase.toNat + s.bitIndex / 8)
    update fun t => t.atBit (t.bitIndex + 1)
    bitReadFrom (2 * v + (byte.getLsbD (7 - s.bitIndex % 8)).toNat) k

/-- `BitRead(K)` (R260). -/
def bitRead (k : Nat) : Cmd Nat := bitReadFrom 0 k

/-- `ChunkStream(S, C)` with S the first n bytes of the scratch (R263). -/
def chunkStream (n c : Nat) : Cmd Unit := withState fun s => do
  let bytes := s.scratch.take n
  forUp (bytes.length / c) 0 fun k => xferOut ((bytes.drop (k * c)).take c)
  if bytes.length % c = 0 then pure ()
  else xferOut (bytes.drop (bytes.length / c * c))

/-- `BlitScratch(x, y, w, h, S)` with S the pixels the scratch holds, two bytes each (R263). -/
def blitScratch (x y w h : Int) : Cmd Unit := withState fun s =>
  pixelStream x y (x + w - 1) (y + h - 1)
    (chunkStream (2 * (extent w * extent h)) s.cfg.scratchChunk)

/-- The fit check: the right edge is inside the logical width (R272, R281, R304). -/
def fits (x w : Int) : Cmd Bool := withState fun s => pure (decide (x + w - 1 < s.width.toNat))

/-- The scratch is blitted if it fits (R270, R281, R304). -/
def blitIf (fit : Bool) (x y w h : Int) : Cmd Unit :=
  if fit then blitScratch x y w h else pure ()

/-- The end of every glyph and bitmap: its pixels are written to the scratch and blitted if they fit; it
answers whether they do (R261, R263, R272, R281, R304). -/
def blitDecoded (bytes : List Byte) (x y w h : Int) : Cmd Bool := do
  storeScratch bytes
  let fit ← fits x w
  blitIf fit x y w h
  pure fit

/-! ## TEXT (R270 to R273) -/

/-- The operands of TEXT that no character changes (R270). -/
structure TextArgs where
  font : Nat
  w : Nat
  h : Nat
  first : Nat
  last : Nat
  str : Nat
  y : Int
  fg : Half
  bg : Half
deriving DecidableEq, Repr

/-- The eight pixels of a raster-font byte, the most significant bit leftmost (R271). -/
def rasterByte (fg bg : Half) (byte : Byte) : List Byte :=
  (List.range 8).flatMap fun i => be16 (if byte.getLsbD (7 - i) then fg else bg)

/-- `Glyph(ch)` (R271). -/
def rasterGlyph (a : TextArgs) (ch : Nat) : Cmd (List Byte) :=
  let bpr := a.w / 8
  let base := a.font + (ch - a.first) * a.h * bpr
  collectBytes a.h 0 fun row =>
    collectBytes bpr 0 fun b => do
      let byte ← memRead8 (base + row * bpr + b)
      pure (rasterByte a.fg a.bg byte)

/-- One in-range character at pen position x (R270): whether it was drawn. -/
def textGlyph (a : TextArgs) (ch : Nat) (x : Int) : Cmd Bool :=
  withScratch (a.w * a.h * 2) do
    let g ← rasterGlyph a ch
    blitDecoded g x a.y a.w a.h

/-- The loop of TEXT over the characters i .. i+n-1, the pen at x (R270, R272). -/
def textLoop (a : TextArgs) (n i : Nat) (x : Int) : Cmd Unit :=
  match n with
  | 0 => pure ()
  | n + 1 => do
    let ch ← memRead8 (a.str + i)
    if a.first ≤ ch.toNat ∧ ch.toNat ≤ a.last then do
      let _ ← textGlyph a ch.toNat x
      textLoop a n (i + 1) (x + a.w)
    else textLoop a n (i + 1) x

/-- TEXT (R270). -/
def execText (font : Word) (w h first last : Byte) (str n : Word) (x y fg bg : Half) (s : State) :
    Host.Outcome State Fault Refusal :=
  .next (runCommand 7 (glyphWidthOk w)
    (textLoop ⟨font.toNat, w.toNat, h.toNat, first.toNat, last.toNat, str.toNat, s16 y, fg, bg⟩
      n.toNat 0 (s16 x)) s)

/-! ## WRITE and WRITE_LEN (R279 to R290) -/

/-- `Lookup(map, mlen, ch)` over the positions j .. j+mlen-1: the first that holds `ch` (R279). -/
def lookupFrom (map : Nat) (ch : Byte) (mlen j : Nat) : Cmd (Option Nat) :=
  match mlen with
  | 0 => pure none
  | mlen + 1 => do
    let b ← memRead8 (map + j)
    if b = ch then pure (some j) else lookupFrom map ch mlen (j + 1)

/-- `ReadOffset(A, OW)` (R282): the entry is assembled from single-byte reads (R72, R75). -/
def readOffset (a ow : Nat) : Cmd Nat := do
  let bs ← collectBytes ow 0 fun k => do
    let b ← memRead8 (a + k)
    pure [b]
  withState fun s => pure (offsetValue s.cfg.offsetOrder bs)

/-- `IsFg(idx)` (R284). -/
def isFg (rule : FgRule) (k idx : Nat) : Bool :=
  match rule with
  | .topIndex => decide (idx = 2 ^ k - 1)
  | .nonzero => decide (idx ≠ 0)

/-- The operands of WRITE that no character changes (R280). -/
structure WriteArgs where
  k : Nat
  ow : Nat
  map : Nat
  mlen : Nat
  widths : Nat
  offsets : Nat
  bits : Word
  hgt : Nat
  str : Nat
  y : Int
  fg : Half
  bg : Half
deriving DecidableEq, Repr

/-- The samples of one variable-font glyph, from the cursor on (R281, R284). -/
def decodeGlyph (a : WriteArgs) (count : Nat) : Cmd (List Byte) :=
  collectBytes count 0 fun _ => do
    let idx ← bitRead a.k
    withState fun s => pure (be16 (if isFg s.cfg.fgRule a.k idx then a.fg else a.bg))

/-- One mapped character of WRITE, glyph j at pen position x (R281 to R285): its width and whether it
was drawn. -/
def writeGlyph (a : WriteArgs) (j : Nat) (x : Int) : Cmd (Nat × Bool) := do
  let wb ← memRead8 (a.widths + j)
  let off ← readOffset (a.offsets + j * a.ow) a.ow
  withScratch (wb.toNat * a.hgt * 2) do
    seedCursor a.bits off
    let g ← decodeGlyph a (wb.toNat * a.hgt)
    let fit ← blitDecoded g x a.y wb.toNat a.hgt
    pure (wb.toNat, fit)

/-- The loop of WRITE over the characters i .. i+n-1, the pen at x and `total` advanced so far; it
answers the advanced width and stops at the first glyph that does not fit (R281, R285). -/
def writeLoop (a : WriteArgs) (n i : Nat) (x : Int) (total : Nat) : Cmd Nat :=
  match n with
  | 0 => pure total
  | n + 1 => do
    let ch ← memRead8 (a.str + i)
    let j ← lookupFrom a.map ch a.mlen 0
    match j with
    | none => writeLoop a n (i + 1) x total
    | some j => do
      let (w, fit) ← writeGlyph a j x
      if fit then writeLoop a n (i + 1) (x + w) (total + w) else pure total

/-- WRITE (R280, R281). -/
def execWrite (k ow : Byte) (map mlen widths offsets bits : Word) (hgt : Byte) (str n : Word)
    (x y fg bg : Half) (s : State) : Host.Outcome State Fault Refusal :=
  .next (runCommand 11 (sampleWidthOk k && offsetWidthOk ow) (do
    let total ← writeLoop
      ⟨k.toNat, ow.toNat, map.toNat, mlen.toNat, widths.toNat, offsets.toNat, bits, hgt.toNat,
        str.toNat, s16 y, fg, bg⟩ n.toNat 0 (s16 x) 0
    setResult total
    forgetCursor) s)

/-- The loop of WRITE_LEN over the characters i .. i+n-1 (R290). -/
def measureLoop (map mlen widths str n i total : Nat) : Cmd Nat :=
  match n with
  | 0 => pure total
  | n + 1 => do
    let ch ← memRead8 (str + i)
    let j ← lookupFrom map ch mlen 0
    match j with
    | none => measureLoop map mlen widths str n (i + 1) total
    | some j => do
      let w ← memRead8 (widths + j)
      measureLoop map mlen widths str n (i + 1) (total + w.toNat)

/-- WRITE_LEN (R290). -/
def execWriteLen (map mlen widths str n : Word) (s : State) : Host.Outcome State Fault Refusal :=
  .next (runCommand 6 true (do
    let total ← measureLoop map.toNat mlen.toNat widths.toNat str.toNat n.toNat 0 0
    setResult total) s)

/-! ## BITMAP (R300 to R305) -/

/-- One decoded pixel through the palette (R300, R303). -/
def palettePixel (k pal plen : Nat) : Cmd (List Byte) := do
  let idx ← bitRead k
  if idx ≥ plen then raise (.resourceBounds (pal + 2 * idx))
  else do
    let b0 ← memRead8 (pal + 2 * idx)
    let b1 ← memRead8 (pal + 2 * idx + 1)
    pure (be16 (le16 b0 b1))

/-- The frame check (R301). -/
def frameCheck (fcount fidx : Nat) : Cmd Unit :=
  if fcount ≠ 0 ∧ fidx ≥ fcount then raise (.rangeError fidx) else pure ()

/-- BITMAP without its `pc` step (R300). -/
def bitmapOp (k : Nat) (bits : Word) (pal plen : Nat) (w h : Int) (fcount fidx : Nat) (x y : Int) :
    Cmd Unit := do
  frameCheck fcount fidx
  let npx := extent w * extent h
  let start := if fcount ≠ 0 then fidx * npx * k else 0
  let _ ← withScratch (npx * 2) do
    seedCursor bits start
    let pix ← collectBytes npx 0 fun _ => palettePixel k pal plen
    blitDecoded pix x y w h
  forgetCursor

/-- BITMAP (R300). -/
def execBitmap (k : Byte) (bits pal plen : Word) (w h fcount fidx x y : Half) (s : State) :
    Host.Outcome State Fault Refusal :=
  .next (runCommand 7 (sampleWidthOk k)
    (bitmapOp k.toNat bits pal.toNat plen.toNat (s16 w) (s16 h) fcount.toNat fidx.toNat (s16 x)
      (s16 y)) s)

end Sys2Proof.Machine
end

