-- ==== Sys2Proof/Machine/Dispatch.lean ====
section
/-! DEFINITION. The meaning of every command: one arm per constructor of `Instr`. -/

namespace Sys2Proof.Machine

def exec (i : Instr) (s : State) : Host.Outcome State Fault Refusal :=
  match i with
  | .send hasCmd cmd addr len => Sys2Proof.Machine.execSend hasCmd cmd addr len s
  | .setWindow x0 x1 y0 y1 => Sys2Proof.Machine.execSetWindow x0 x1 y0 y1 s
  | .rotation n => Sys2Proof.Machine.execRotation n s
  | .fill c => Sys2Proof.Machine.execFill c s
  | .fillRect x y w h c => Sys2Proof.Machine.execFillRect x y w h c s
  | .pixel x y c => Sys2Proof.Machine.execPixel x y c s
  | .hline x y len c => Sys2Proof.Machine.execHline x y len c s
  | .vline x y len c => Sys2Proof.Machine.execVline x y len c s
  | .rect x y w h c => Sys2Proof.Machine.execRect x y w h c s
  | .line x0 y0 x1 y1 c => Sys2Proof.Machine.execLine x0 y0 x1 y1 c s
  | .blit addr len x y w h => Sys2Proof.Machine.execBlit addr len x y w h s
  | .text font w h first last str n x y fg bg => Sys2Proof.Machine.execText font w h first last str n x y fg bg s
  | .write k ow map mlen widths offsets bits hgt str n x y fg bg => Sys2Proof.Machine.execWrite k ow map mlen widths offsets bits hgt str n x y fg bg s
  | .writeLen map mlen widths str n => Sys2Proof.Machine.execWriteLen map mlen widths str n s
  | .bitmap k bits pal plen w h fcount fidx x y => Sys2Proof.Machine.execBitmap k bits pal plen w h fcount fidx x y s
  | .hardReset => Sys2Proof.Machine.execHardReset s
  | .softReset => Sys2Proof.Machine.execSoftReset s
  | .sleep en => Sys2Proof.Machine.execSleep en s
  | .invert en => Sys2Proof.Machine.execInvert en s
  | .init => Sys2Proof.Machine.execInit s
  | .vscrollDefine tfa vsa bfa => Sys2Proof.Machine.execVscrollDefine tfa vsa bfa s
  | .vscrollSet vsp => Sys2Proof.Machine.execVscrollSet vsp s
  | .width => Sys2Proof.Machine.execWidth s
  | .height => Sys2Proof.Machine.execHeight s

end Sys2Proof.Machine
end

