-- ==== Sys2Proof/Decode.lean ====
section
/-! DEFINITION. The decoder of spec/30_encoding.md (R110 to R124): total on every list of words,
rejecting by name; then the encoder, written from the same tables; then the pseudo-instructions of
R131 and the numbering of spec/opcode_table.json. -/

namespace Sys2Proof

/-! ## Fields of a word (R111, R113) -/

/-- OPC, bits 7:0 of the header (R111). -/
def headerOpc (h : Word) : Byte := h.extractLsb' 0 8

/-- A, bits 15:8 of the header (R111). -/
def headerA (h : Word) : Byte := h.extractLsb' 8 8

/-- B, bits 23:16 of the header (R111). -/
def headerB (h : Word) : Byte := h.extractLsb' 16 8

/-- RSV, bits 31:24 of the header (R111). -/
def headerRsv (h : Word) : Byte := h.extractLsb' 24 8

/-- Bits 15:0 of an operand word (R112). -/
def lowHalf (w : Word) : Half := w.extractLsb' 0 16

/-- Bits 31:16 of an operand word (R112). -/
def highHalf (w : Word) : Half := w.extractLsb' 16 16

/-- Byte `k` of an operand word, byte 0 in bits 7:0 (R112, FONTGEOM and HGT). -/
def wordByte (w : Word) (k : Nat) : Byte := w.extractLsb' (8 * k) 8

/-- The operand word `op[k]`, counted from 1 (R15); a list too short reads as zero words. -/
def opWord (ops : List Word) (k : Nat) : Word := ops.getD (k - 1) 0

/-! ## The opcode map (R112, R117, R118) -/

/-- The operand word formats of R112. -/
inductive Format where
  | xy
  | wh
  | xx
  | yy
  | len16
  | color1
  | color2
  | addr
  | len32
  | fontgeom
  | hgt
  | frames
  | scroll2
  | scroll1
deriving DecidableEq, Repr

/-- The bits of a format that R112 marks "must be 0". -/
def Format.mustBeZero : Format → Word
  | .len16 => 0xFFFF0000
  | .color1 => 0xFFFF0000
  | .scroll1 => 0xFFFF0000
  | .hgt => 0xFFFFFF00
  | .xy => 0
  | .wh => 0
  | .xx => 0
  | .yy => 0
  | .color2 => 0
  | .addr => 0
  | .len32 => 0
  | .fontgeom => 0
  | .frames => 0
  | .scroll2 => 0

/-- A row of the opcode map: the bits of A and of B that must be 0 (R117) and the operand formats,
in order (R118). -/
structure OpcodeRow where
  aZero : Byte
  bZero : Byte
  formats : List Format
deriving DecidableEq, Repr

/-- The opcode map of R118; an opcode not in it has no row (R124). -/
def opcodeRow (opc : Byte) : Option OpcodeRow :=
  match opc.toNat with
  | 0x01 => some ⟨0x00, 0xFE, [.addr, .len32]⟩
  | 0x02 => some ⟨0xFF, 0xFF, [.xx, .yy]⟩
  | 0x03 => some ⟨0x00, 0xFF, []⟩
  | 0x04 => some ⟨0xFF, 0xFF, [.color1]⟩
  | 0x05 => some ⟨0xFF, 0xFF, [.xy, .wh, .color1]⟩
  | 0x06 => some ⟨0xFF, 0xFF, [.xy, .color1]⟩
  | 0x07 => some ⟨0xFF, 0xFF, [.xy, .len16, .color1]⟩
  | 0x08 => some ⟨0xFF, 0xFF, [.xy, .len16, .color1]⟩
  | 0x09 => some ⟨0xFF, 0xFF, [.xy, .wh, .color1]⟩
  | 0x0A => some ⟨0xFF, 0xFF, [.xy, .xy, .color1]⟩
  | 0x0B => some ⟨0xFF, 0xFF, [.addr, .len32, .xy, .wh]⟩
  | 0x0C => some ⟨0xFF, 0xFF, [.addr, .fontgeom, .addr, .len32, .xy, .color2]⟩
  | 0x0D => some ⟨0x00, 0x00,
      [.addr, .len32, .addr, .addr, .addr, .hgt, .addr, .len32, .xy, .color2]⟩
  | 0x0E => some ⟨0xFF, 0xFF, [.addr, .len32, .addr, .addr, .len32]⟩
  | 0x0F => some ⟨0x00, 0xFF, [.addr, .addr, .len32, .wh, .frames, .xy]⟩
  | 0x10 => some ⟨0xFF, 0xFF, []⟩
  | 0x11 => some ⟨0xFF, 0xFF, []⟩
  | 0x12 => some ⟨0xFE, 0xFF, []⟩
  | 0x13 => some ⟨0xFE, 0xFF, []⟩
  | 0x14 => some ⟨0xFF, 0xFF, []⟩
  | 0x15 => some ⟨0xFF, 0xFF, [.scroll2, .scroll1]⟩
  | 0x16 => some ⟨0xFF, 0xFF, [.scroll1]⟩
  | 0x17 => some ⟨0xFF, 0xFF, []⟩
  | 0x18 => some ⟨0xFF, 0xFF, []⟩
  | _ => none

/-- The operand fields of a known opcode, read as R118 lays them out, whatever the must-be-0 bits and
the constraints say of them. -/
def readFields (h : Word) (ops : List Word) : Option Instr :=
  let lo := fun k => lowHalf (opWord ops k)
  let hi := fun k => highHalf (opWord ops k)
  let full := fun k => opWord ops k
  match (headerOpc h).toNat with
  | 0x01 => some (.send (h.getLsbD 16) (headerA h) (full 1) (full 2))
  | 0x02 => some (.setWindow (lo 1) (hi 1) (lo 2) (hi 2))
  | 0x03 => some (.rotation (headerA h))
  | 0x04 => some (.fill (lo 1))
  | 0x05 => some (.fillRect (lo 1) (hi 1) (lo 2) (hi 2) (lo 3))
  | 0x06 => some (.pixel (lo 1) (hi 1) (lo 2))
  | 0x07 => some (.hline (lo 1) (hi 1) (lo 2) (lo 3))
  | 0x08 => some (.vline (lo 1) (hi 1) (lo 2) (lo 3))
  | 0x09 => some (.rect (lo 1) (hi 1) (lo 2) (hi 2) (lo 3))
  | 0x0A => some (.line (lo 1) (hi 1) (lo 2) (hi 2) (lo 3))
  | 0x0B => some (.blit (full 1) (full 2) (lo 3) (hi 3) (lo 4) (hi 4))
  | 0x0C => some (.text (full 1) (wordByte (full 2) 0) (wordByte (full 2) 1) (wordByte (full 2) 2)
      (wordByte (full 2) 3) (full 3) (full 4) (lo 5) (hi 5) (lo 6) (hi 6))
  | 0x0D => some (.write (headerA h) (headerB h) (full 1) (full 2) (full 3) (full 4) (full 5)
      (wordByte (full 6) 0) (full 7) (full 8) (lo 9) (hi 9) (lo 10) (hi 10))
  | 0x0E => some (.writeLen (full 1) (full 2) (full 3) (full 4) (full 5))
  | 0x0F => some (.bitmap (headerA h) (full 1) (full 2) (full 3) (lo 4) (hi 4) (lo 5) (hi 5)
      (lo 6) (hi 6))
  | 0x10 => some .hardReset
  | 0x11 => some .softReset
  | 0x12 => some (.sleep (h.getLsbD 8))
  | 0x13 => some (.invert (h.getLsbD 8))
  | 0x14 => some .init
  | 0x15 => some (.vscrollDefine (lo 1) (hi 1) (lo 2))
  | 0x16 => some (.vscrollSet (lo 1))
  | 0x17 => some .width
  | 0x18 => some .height
  | _ => none

/-! ## The decoder (R121, R122, R124) -/

/-- Why the decoder rejects a command. Every reason has the one completion code ILLEGAL_COMMAND. -/
inductive IllegalReason where
  /-- The opcode is not in the map (R124). -/
  | opcode
  /-- RSV is not 0 (R121). -/
  | reservedBits
  /-- A bit of A or B marked "must be 0" by R117 is 1 (R121). -/
  | headerField
  /-- An operand bit marked "must be 0" by R112 is 1 (R121). -/
  | operandField
  /-- A constraint of R120 fails (R121). -/
  | constraint
deriving DecidableEq, Repr

/-- What a list of words, read as a header and its operands, decodes to. -/
inductive Decoded where
  /-- A legal command; `operandCount` further words belong to it. -/
  | command (i : Instr)
  /-- An illegal command that takes `len` words (R121, R124). -/
  | illegal (why : IllegalReason) (len : Nat)
  /-- `missing` more words are needed (R42). -/
  | incomplete (missing : Nat)
deriving DecidableEq, Repr

/-- No must-be-0 bit of an operand word is 1 (R112, R121). -/
def operandBitsOk : List Format → List Word → Bool
  | [], _ => true
  | f :: fs, w :: ws => decide (w &&& f.mustBeZero = 0) && operandBitsOk fs ws
  | _ :: _, [] => false

/-- The check of R121 on a command of a known opcode whose words have all been received. -/
def checkCommand (row : OpcodeRow) (h : Word) (ops : List Word) : Decoded :=
  let len := 1 + row.formats.length
  if headerRsv h ≠ 0 then .illegal .reservedBits len
  else if headerA h &&& row.aZero ≠ 0 ∨ headerB h &&& row.bZero ≠ 0 then .illegal .headerField len
  else if operandBitsOk row.formats ops = false then .illegal .operandField len
  else
    match readFields h ops with
    | none => .illegal .opcode 1
    | some i => if i.wf then .command i else .illegal .constraint len

/-- The decoder: the first words of the list are a header and its operands (R110, R118, R121,
R124). -/
def decodeWords : List Word → Decoded
  | [] => .incomplete 1
  | h :: ops =>
    match opcodeRow (headerOpc h) with
    | none => .illegal .opcode 1
    | some row =>
      let n := row.formats.length
      if ops.length < n then .incomplete (n - ops.length) else checkCommand row h (ops.take n)

/-! ## The encoder (R111, R112, R117, R118) -/

/-- A header word from its fields, RSV = 0 (R111). -/
def packHeader (opc a b : Byte) : Word := (0 : Byte) ++ b ++ a ++ opc

/-- An operand word from its low and its high half (R112). -/
def packHalves (lo hi : Half) : Word := hi ++ lo

/-- An operand word with a low half alone: LEN16, COLOR1, SCROLL1 (R112). -/
def packLow (lo : Half) : Word := packHalves lo 0

/-- An operand word from its bytes, byte 0 first: FONTGEOM, HGT (R112). -/
def packBytes (b0 b1 b2 b3 : Byte) : Word := b3 ++ b2 ++ b1 ++ b0

/-- A one-bit field in bit 0 of a header byte: HASCMD and EN (R117). -/
def flagByte (b : Bool) : Byte := if b then 1 else 0

/-- The words of a command (R118). -/
def encode : Instr → List Word
  | .send hasCmd cmd addr len => [packHeader 0x01 cmd (flagByte hasCmd), addr, len]
  | .setWindow x0 x1 y0 y1 => [packHeader 0x02 0 0, packHalves x0 x1, packHalves y0 y1]
  | .rotation n => [packHeader 0x03 n 0]
  | .fill c => [packHeader 0x04 0 0, packLow c]
  | .fillRect x y w h c => [packHeader 0x05 0 0, packHalves x y, packHalves w h, packLow c]
  | .pixel x y c => [packHeader 0x06 0 0, packHalves x y, packLow c]
  | .hline x y len c => [packHeader 0x07 0 0, packHalves x y, packLow len, packLow c]
  | .vline x y len c => [packHeader 0x08 0 0, packHalves x y, packLow len, packLow c]
  | .rect x y w h c => [packHeader 0x09 0 0, packHalves x y, packHalves w h, packLow c]
  | .line x0 y0 x1 y1 c => [packHeader 0x0A 0 0, packHalves x0 y0, packHalves x1 y1, packLow c]
  | .blit addr len x y w h => [packHeader 0x0B 0 0, addr, len, packHalves x y, packHalves w h]
  | .text font w h first last str n x y fg bg =>
    [packHeader 0x0C 0 0, font, packBytes w h first last, str, n, packHalves x y, packHalves fg bg]
  | .write k ow map mlen widths offsets bits hgt str n x y fg bg =>
    [packHeader 0x0D k ow, map, mlen, widths, offsets, bits, packBytes hgt 0 0 0, str, n,
      packHalves x y, packHalves fg bg]
  | .writeLen map mlen widths str n => [packHeader 0x0E 0 0, map, mlen, widths, str, n]
  | .bitmap k bits pal plen w h fcount fidx x y =>
    [packHeader 0x0F k 0, bits, pal, plen, packHalves w h, packHalves fcount fidx, packHalves x y]
  | .hardReset => [packHeader 0x10 0 0]
  | .softReset => [packHeader 0x11 0 0]
  | .sleep en => [packHeader 0x12 (flagByte en) 0]
  | .invert en => [packHeader 0x13 (flagByte en) 0]
  | .init => [packHeader 0x14 0 0]
  | .vscrollDefine tfa vsa bfa => [packHeader 0x15 0 0, packHalves tfa vsa, packLow bfa]
  | .vscrollSet vsp => [packHeader 0x16 0 0, packLow vsp]
  | .width => [packHeader 0x17 0 0]
  | .height => [packHeader 0x18 0 0]

/-! ## Pseudo-instructions (R131) -/

/-- `CLS` is `FILL 0x0000`. -/
def pseudoCls : Instr := .fill 0

/-- `WAKE` is `SLEEP 0`. -/
def pseudoWake : Instr := .sleep false

/-- `DOZE` is `SLEEP 1`. -/
def pseudoDoze : Instr := .sleep true

/-- `CMD c` is `SEND c, 0, 0`. -/
def pseudoCmd (c : Byte) : Instr := .send true c 0 0

/-- `DATA addr, len` is `SEND -, addr, len`. -/
def pseudoData (addr len : Word) : Instr := .send false 0 addr len

/-! ## The numbering of spec/opcode_table.json -/

/-- The first `n` 32-bit words of a number, the least significant first. -/
def numberWords : Nat → Nat → List Word
  | 0, _ => []
  | n + 1, w => BitVec.ofNat 32 w :: numberWords n (w / 2 ^ 32)

/-- The words of the one command whose bits are `w`, every bit from `nbits` up being 0: the header and
as many operand words as its opcode has; an illegal opcode has none (R118, R124). -/
def tableWords (nbits w : Nat) : List Word :=
  match numberWords 11 (w % 2 ^ nbits) with
  | [] => []
  | h :: ops =>
    match opcodeRow (headerOpc h) with
    | none => [h]
    | some row => h :: ops.take row.formats.length

/-- The command the decoder reads from a table row's bits. -/
def decodeTableWord (nbits w : Nat) : Option Instr :=
  match decodeWords (tableWords nbits w) with
  | .command i => some i
  | .illegal _ _ => none
  | .incomplete _ => none

end Sys2Proof
end

