-- ==== Sys2Proof/Machine/Port.lean ====
section
/-! DEFINITION. The host's side of the block: the register map, the command port with its
pending-command buffer, CTRL, host writes of resource memory, and the block reset
(spec/10_state.md R33, R38 to R42, spec/20_memory.md R86, R87, spec/70_reset_and_hazards.md R390). -/

namespace Sys2Proof.Machine

/-- What the block does with the host's next move. -/
inductive PortAction where
  /-- A complete legal command is executed from this state (R42). -/
  | run (i : Instr) (s : State)
  /-- The move is done, with no legal command to execute. -/
  | settled (o : Host.Outcome State Fault Refusal)

/-- An illegal command of `len` words: only the status write and CP (R121, R124, R357, R358). -/
def illegalCommand (len : Nat) (s : State) : State := runCommand len false (pure ()) s

/-- A word is accepted on CMD (R33, R42). When it completes a command the buffer is emptied and CP
goes back to the index of the command's header, from which the command advances it by 1 + L. -/
def acceptWord (w : Word) (s : State) : PortAction :=
  let words := s.pending ++ [w]
  let atHeader := { s with pending := [], cp := s.cp - s.pending.length }
  match decodeWords words with
  | .command i => .run i atHeader
  | .illegal _ len => .settled (.next (illegalCommand len atHeader))
  | .incomplete _ => .settled (.next { s with pending := words, cp := s.cp + 1 })

/-- A write of CTRL (R39): bit 0 is CLR_ERR, bit 1 is DISCARD, the rest is ignored. -/
def writeCtrl (v : Word) (s : State) : State :=
  { s with err := s.err && !v.getLsbD 0, pending := if v.getLsbD 1 then [] else s.pending }

/-- The value a read of a register returns (R40): CMD, CTRL and the reserved offsets read 0. -/
def registerValue (offset : BitVec 5) (s : State) : Word :=
  match offset.toNat with
  | 0x04 => statusWord s
  | 0x08 => s.result
  | _ => 0

/-- A 32-bit aligned write of a register (R40): STATUS, RESULT and the reserved offsets ignore it. CMD
accepts no word while the reset input is asserted (R390; notes/assumptions/16.md). -/
def writeRegister (offset : BitVec 5) (v : Word) (s : State) : PortAction :=
  match offset.toNat with
  | 0x00 => if s.resetHeld then .settled (.next s) else acceptWord v s
  | 0x0C => .settled (.next (writeCtrl v s))
  | _ => .settled (.next s)

/-- An access is 32 bits wide and aligned to 4 bytes (R41). -/
def accessOk (width : AccessWidth) (offset : BitVec 5) : Bool :=
  decide (width = .word ∧ offset.toNat % 4 = 0)

/-- The values after the block's reset (R51, R390): every piece of block state takes its reset value.
The configuration, resource memory, the draws and the host's own moves are not block state (R30). -/
def blockReset (s : State) : State :=
  { State.resetWith s.cfg s.mem s.xferDraws s.allocDraws with
    freeCount := s.freeCount, inbox := s.inbox, readData := s.readData }

/-- The reset input is asserted: the words of a partly received command are discarded (R390, R391). -/
def assertReset (s : State) : State := { s with resetHeld := true, pending := [] }

/-- The reset input is released: the block takes its reset values, if the input was asserted (R390). -/
def releaseReset (s : State) : State := if s.resetHeld then blockReset s else s

/-- One move of the host. -/
def hostMove (op : HostOp) (s : State) : PortAction :=
  match op with
  | .writeReg width offset v =>
    if accessOk width offset then writeRegister offset v s else .settled (.refused .hostAccessShape)
  | .readReg width offset =>
    if accessOk width offset then
      .settled (.next { s with readData := registerValue offset s })
    else .settled (.refused .hostAccessShape)
  | .writeMem addr b =>
    if addr < s.cfg.resMemSize then .settled (.next { s with mem := s.mem.write addr b })
    else .settled (.fault (.hostAddressAbsent addr))
  | .assertReset => .settled (.next (assertReset s))
  | .releaseReset => .settled (.next (releaseReset s))

/-- What the block does next. With no move waiting it is idle or waits for operand words without
limit (R42, R369); while a command executes the host is stalled (R41), which no state between two
steps shows. -/
def portNext (s : State) : PortAction :=
  if s.busy then .settled (.next s)
  else
    match s.inbox with
    | [] => .settled (.next s)
    | op :: rest => hostMove op { s with inbox := rest }

/-- The host has written all but the last of these words to CMD, with the reset input released, and the
write of the last one is its next move. -/
def State.withCommandWords (s : State) (words : List Word) : State :=
  match words.getLast? with
  | none => s
  | some w =>
    { s with
      busy := false
      resetHeld := false
      pending := words.dropLast
      cp := s.cp + words.dropLast.length
      inbox := .writeReg .word 0 w :: s.inbox }

end Sys2Proof.Machine
end

