-- ==== Sys2Proof/Machine/Step.lean ====
section
/-! DEFINITION. One step of the machine: one move of the host, and with the last word of a command
the whole command (spec/00_scope.md R10, spec/10_state.md R41, R42, spec/20_memory.md R87). -/

namespace Sys2Proof.Machine

/-- One step. -/
def step (s : State) : Host.Outcome State Fault Refusal :=
  match portNext s with
  | .run i t => exec i t
  | .settled o => o

/-- The state in which the command of the bits `w` is the next to run: the host has written all its
words to CMD but the last, and the write of the last is its next move (notes/assumptions/8.md). -/
def State.withFetchWord (s : State) (nbits w : Nat) : State :=
  s.withCommandWords (tableWords nbits w)

end Sys2Proof.Machine
end

