-- ==== Sys2Proof/Machine/Panel.lean ====
section
/-! DEFINITION. The reference panel (spec/20_memory.md R80 to R84): an observation function of the
trace, so that a statement can say what a command draws. No rule of the block reads it. -/

namespace Sys2Proof.Machine

/-- The pixels the panel holds, by (page, column), keys strictly rising; an unlisted pixel is
unknown (R80). -/
abbrev Gram := List ((Nat × Nat) × Half)

/-- Row-major order of (page, column). -/
def gramBefore (p q : Nat × Nat) : Bool := decide (p.1 < q.1 ∨ (p.1 = q.1 ∧ p.2 < q.2))

/-- The pixel at column x, page y, `none` when unknown. -/
def gramRead : Gram → Nat → Nat → Option Half
  | [], _, _ => none
  | (k, v) :: g, x, y => if k = (y, x) then some v else gramRead g x y

/-- Store a pixel at column x, page y. -/
def gramWrite : Gram → Nat → Nat → Half → Gram
  | [], x, y, v => [((y, x), v)]
  | (k, u) :: g, x, y, v =>
    if gramBefore (y, x) k then ((y, x), v) :: (k, u) :: g
    else if k = (y, x) then ((y, x), v) :: g
    else (k, u) :: gramWrite g x y v

/-- Whether the panel is taking pixel data (R80). -/
inductive PanelMode where
  | idle
  | writing
deriving DecidableEq, Repr

/-- The state of the reference panel (R80). The write pointer has no width there; it counts past a last
column of 65535, as R82 compares it with XE. -/
structure Panel where
  xs : Half
  xe : Half
  ys : Half
  ye : Half
  col : Nat
  page : Nat
  mode : PanelMode
  half : Option Byte
  cur : Option Byte
  par : List Byte
  dc : DcLine
  gram : Gram
  /-- The model's own: a BLIT left a half pixel in the memory write in progress, so no pixel of it is
  known any more (93_implementation_defined.md U4; notes/assumptions/9.md). -/
  torn : Bool
deriving DecidableEq, Repr

/-- The panel before any event. R80 gives its mode, `cur` and GRAM. The rest is the model's choice
(notes/assumptions/25.md): the four window registers, which no source gives (R401,
93_implementation_defined.md U6), are the reader's arguments; the write pointer is (0, 0), no half
pixel is pending or was left, the parameter list is empty and DC is undriven. -/
def panelStart (xs xe ys ye : Half) : Panel where
  xs := xs
  xe := xe
  ys := ys
  ye := ye
  col := 0
  page := 0
  mode := .idle
  half := none
  cur := none
  par := []
  dc := .undriven
  gram := []
  torn := false

/-- Every pixel of the window becomes unknown (R82). -/
def forgetWindow (p : Panel) : Panel :=
  { p with gram := p.gram.filter fun e =>
      !decide (p.xs.toNat ≤ e.1.2 ∧ e.1.2 ≤ p.xe.toNat ∧ p.ys.toNat ≤ e.1.1 ∧ e.1.1 ≤ p.ye.toNat) }

/-- The end of a BLIT: a half pixel that is pending there was left by it, and makes the window unknown
(R83, 93_implementation_defined.md U4; notes/assumptions/9.md). -/
def leaveHalf (p : Panel) : Panel :=
  if p.half.isSome then { forgetWindow p with torn := true } else p

/-- A whole pixel word in writing mode (R82). Behind a half pixel that a BLIT left, no word is known to
reach any one pixel of the window (U4; notes/assumptions/9.md). -/
def panelPixel (p : Panel) (w : Half) : Panel :=
  if p.torn = false ∧ p.page ≤ p.ye.toNat then
    let q := { p with gram := gramWrite p.gram p.col p.page w }
    if p.col + 1 > p.xe.toNat then { q with col := p.xs.toNat, page := p.page + 1 }
    else { q with col := p.col + 1 }
  else forgetWindow p

/-- A command byte, which clears the pending byte (R81). -/
def panelCommand (c : Config) (p : Panel) (b : Byte) : Panel :=
  let q := { p with cur := some b, par := [], half := none, mode := .idle, torn := false }
  if b = c.cmdRamwr then { q with mode := .writing, col := q.xs.toNat, page := q.ys.toNat } else q

/-- A parameter byte outside writing mode (R81). -/
def panelParam (c : Config) (p : Panel) (b : Byte) : Panel :=
  let par := p.par ++ [b]
  let q := { p with par := par }
  if par.length = 4 then
    let lo : Half := par.getD 0 0 ++ par.getD 1 0
    let hi : Half := par.getD 2 0 ++ par.getD 3 0
    if p.cur = some c.cmdCaset then { q with xs := lo, xe := hi }
    else if p.cur = some c.cmdPaset then { q with ys := lo, ye := hi }
    else q
  else q

/-- A byte sent while DC = DATA (R81, R82). That pixel bytes pair into 16-bit words whatever colour mode the
panel is in, also before INIT, after a panel reset or after a SEND that changes the mode, where U6 and
U29 leave it open, is the model's choice (notes/assumptions/26.md, 28.md). -/
def panelData (c : Config) (p : Panel) (b : Byte) : Panel :=
  match p.mode with
  | .idle => panelParam c p b
  | .writing =>
    match p.half with
    | none => { p with half := some b }
    | some hi => panelPixel { p with half := none } (hi ++ b)

/-- One byte of a transfer, by the DC level it is sent under (R81). The block sends none while DC is
undriven (R153, R155). -/
def panelByte (c : Config) (p : Panel) (b : Byte) : Panel :=
  match p.dc with
  | .undriven => p
  | .driven .command => panelCommand c p b
  | .driven .data => panelData c p b

/-- What the panel reads of a trace, as R80 to R82 say it: no event but a transfer or a DC level changes
it, and a memory write goes on from one bracket to the next, a pending byte with it. What a BLIT's half
pixel does is added by `panelSees`, since the events do not name their command.

Read so, some points that the spec leaves open are the model's choice. The panel keeps its window
registers and its mode across a pulse of RST, and its window registers across the software-reset
command, and reads pixels as 16-bit words before INIT and after them (U6, R401;
notes/assumptions/26.md). Under STREAM, the pixels of an invalid window take their colours in the window
the panel last held (U19, R408; notes/assumptions/27.md). After a SEND of an orientation or window
command, the bytes of later commands are read in the window the panel then holds, past WIDTH and HEIGHT
too, and an orientation byte changes nothing (U29, R406, R84; notes/assumptions/28.md). A panel that
sleeps, or has its display off, stores pixels like any other (R315; notes/assumptions/29.md).

`arrived` gives, for each failed transfer in turn, how many of its bytes reached the panel: a free input,
any prefix being possible (R355, U5). -/
def panelRead (c : Config) : List Nat → List Event → Panel → Panel
  | _, [], p => p
  | arrived, .dc m :: es, p => panelRead c arrived es { p with dc := .driven m }
  | arrived, .cs _ :: es, p => panelRead c arrived es p
  | arrived, .rst _ :: es, p => panelRead c arrived es p
  | arrived, .bl _ :: es, p => panelRead c arrived es p
  | arrived, .delay _ :: es, p => panelRead c arrived es p
  | arrived, .xfer bs :: es, p => panelRead c arrived es (bs.foldl (panelByte c) p)
  | arrived, .xferFail bs :: es, p =>
    panelRead c arrived.tail es ((bs.take (arrived.headD 0)).foldl (panelByte c) p)

/-- The commands whose half pixel makes the window unknown: BLIT alone (R83,
93_implementation_defined.md U4). -/
def leavesHalf : Instr → Bool
  | .send .. => false
  | .setWindow .. => false
  | .rotation .. => false
  | .fill .. => false
  | .fillRect .. => false
  | .pixel .. => false
  | .hline .. => false
  | .vline .. => false
  | .rect .. => false
  | .line .. => false
  | .blit .. => true
  | .text .. => false
  | .write .. => false
  | .writeLen .. => false
  | .bitmap .. => false
  | .hardReset => false
  | .softReset => false
  | .sleep .. => false
  | .invert .. => false
  | .init => false
  | .vscrollDefine .. => false
  | .vscrollSet .. => false
  | .width => false
  | .height => false

/-- The event is a transfer, failed or not. -/
def isTransfer : Event → Bool
  | .xfer _ => true
  | .xferFail _ => true
  | .cs _ => false
  | .dc _ => false
  | .rst _ => false
  | .bl _ => false
  | .delay _ => false

/-- What the panel reads of the events `es` of the command i: their bytes (R80 to R82), and at the end of
a BLIT that sent any the half pixel it leaves (R83, U4; notes/assumptions/9.md). -/
def panelSees (c : Config) (i : Instr) (arrived : List Nat) (es : List Event) (p : Panel) : Panel :=
  let q := panelRead c arrived es p
  if leavesHalf i && es.any isTransfer then leaveHalf q else q

end Sys2Proof.Machine
end

