-- ==== Sys2Proof/Safety.lean ====
section
/-! DEFINITION. The terms the statements are made in: the invariant of the states between two steps,
when every transfer and every acquisition succeeds, and the trace a command makes then, written in
the closed form of the spec's trace notation (spec/00_scope.md R16) and not as the machine's loops. -/

namespace Sys2Proof.Machine

/-! ## The invariant -/

/-- The bracket automaton of R150: whether a bracket is open after the events, or `none` when the
brackets are nested, closed twice, or a transfer lies outside one. Without a CS pin no bracket shows
and no CS event may stand. -/
def bracketScan (hasCs : Bool) (isOpen : Bool) : List Event → Option Bool
  | [] => some isOpen
  | .cs .active :: es => if hasCs && !isOpen then bracketScan hasCs true es else none
  | .cs .inactive :: es => if hasCs && isOpen then bracketScan hasCs false es else none
  | .xfer _ :: es => if isOpen || !hasCs then bracketScan hasCs isOpen es else none
  | .xferFail _ :: es => if isOpen || !hasCs then bracketScan hasCs isOpen es else none
  | .dc _ :: es => bracketScan hasCs isOpen es
  | .rst _ :: es => bracketScan hasCs isOpen es
  | .bl _ :: es => bracketScan hasCs isOpen es
  | .delay _ :: es => bracketScan hasCs isOpen es

/-- An event the block may emit under a configuration: no `PinSet` of a pin that is not configured
(R45), no transfer without bytes (R45, R152). -/
def eventOk (c : Config) : Event → Bool
  | .cs _ => c.hasCs
  | .dc _ => true
  | .rst _ => c.hasRst
  | .bl _ => c.hasBl
  | .xfer bs => !bs.isEmpty
  | .xferFail bs => !bs.isEmpty
  | .delay _ => true

/-- The levels of CS, DC, RST and BL. -/
abbrev Levels := Act × DcLine × Act × Light

/-- The levels after reset (R46). -/
def resetLevels : Levels := (.inactive, .undriven, .inactive, .off)

/-- The levels after one more event (R46). -/
def levelAfter (l : Levels) : Event → Levels
  | .cs a => (a, l.2.1, l.2.2.1, l.2.2.2)
  | .dc m => (l.1, .driven m, l.2.2.1, l.2.2.2)
  | .rst a => (l.1, l.2.1, a, l.2.2.2)
  | .bl b => (l.1, l.2.1, l.2.2.1, b)
  | .xfer _ => l
  | .xferFail _ => l
  | .delay _ => l

/-- The levels the lines of a state hold. -/
def State.levels (s : State) : Levels := (s.cs, s.dc, s.rst, s.bl)

/-- What holds of every state between two steps. -/
structure State.Inv (s : State) : Prop where
  /-- Resource memory is in its canonical form. -/
  memory : s.mem.wf = true
  /-- ROT is a legal rotation (R34). -/
  rotation : s.rot.toNat < s.cfg.variant.count
  /-- WIDTH follows ROT: the odd rotations swap (R35, R36). -/
  widthFollows : s.width = if s.rot.toNat % 2 = 1 then s.cfg.physH else s.cfg.physW
  /-- HEIGHT follows ROT (R35, R36). -/
  heightFollows : s.height = if s.rot.toNat % 2 = 1 then s.cfg.physW else s.cfg.physH
  /-- The buffer holds a header and some, but not all, of its operands, or nothing (R42). -/
  partialCommand : s.pending ≠ [] → ∃ n, 0 < n ∧ decodeWords s.pending = .incomplete n
  /-- The pending words are among the accepted ones (R33). -/
  counted : s.pending.length ≤ s.cp
  /-- No command is executing, and nothing of one is left (R38, R44, R262). -/
  idle : s.busy = false ∧ s.line = none ∧ s.scratchHeld = none ∧ s.bitOver = none
  /-- The fill scratch is its whole buffer of 128 pixels (R47). -/
  fillBuffer : s.fillScratch.length = 256
  /-- No byte stands past the end of the glyph/bitmap scratch; a transient one is gone (R48). -/
  scratchBuffer : s.scratch.length ≤ s.scratchSize
  /-- While the reset input is asserted, no command is partly received (R390, R391). -/
  resetDiscards : s.resetHeld = true → s.pending = []
  /-- The reserved code is never written (R350). -/
  codeWritten : s.last ≠ .decodeError
  /-- Brackets are neither nested nor left open, and every transfer lies inside one (R150). -/
  brackets : bracketScan s.cfg.hasCs false s.trace = some false
  /-- Every event of the trace is one the configuration allows (R45, R152). -/
  events : s.trace.all (eventOk s.cfg) = true
  /-- Each line holds the level of the last `PinSet` emitted for it (R46). -/
  lines : s.levels = s.trace.foldl levelAfter resetLevels

/-! ## When nothing fails -/

/-- No transfer to come fails: every draw `xfer_ok` is true (R9). -/
def TransportUp (s : State) : Prop := ∀ b ∈ s.xferDraws, b = true

/-- The configuration is legal and no transfer to come fails. -/
def Ready (s : State) : Prop := configLegal s.cfg = true ∧ TransportUp s

/-- Bytes `addr .. addr+n-1` can be read (R71). -/
def Readable (s : State) (addr n : Nat) : Prop := n = 0 ∨ addr + n ≤ s.cfg.resMemSize

/-- n bytes do not exceed a resident scratch (R262). -/
def ScratchFor (s : State) (n : Nat) : Prop := ∀ cap, s.cfg.scratch = .resident cap → (n : Int) ≤ cap

/-- The next k acquisitions of a transient scratch succeed (R9, R262). -/
def AllocUp (s : State) (k : Nat) : Prop :=
  s.cfg.scratch = .transient → ∀ b ∈ s.allocDraws.take k, b = true

/-- The draws `alloc_ok` left after k acquisitions (R9, R262). -/
def allocLeft (s : State) (k : Nat) : List Bool :=
  match s.cfg.scratch with
  | .resident _ => s.allocDraws
  | .transient => s.allocDraws.drop k

/-! ## The trace of a command that does not fail (R16) -/

/-- The number of transfers among events, the failed ones included: each takes one draw (R9, R152). -/
def xferCount : List Event → Nat
  | [] => 0
  | .xfer _ :: es => xferCount es + 1
  | .xferFail _ :: es => xferCount es + 1
  | .cs _ :: es => xferCount es
  | .dc _ :: es => xferCount es
  | .rst _ :: es => xferCount es
  | .bl _ :: es => xferCount es
  | .delay _ :: es => xferCount es

/-- The state after these events: they stand at the end of the trace, each line holds the level of the
last `PinSet` emitted for it (R45, R46), and one draw is taken for each transfer (R9). -/
def State.performs (s : State) (es : List Event) : State :=
  let l := es.foldl levelAfter s.levels
  { s with
    trace := s.trace ++ es, cs := l.1, dc := l.2.1, rst := l.2.2.1, bl := l.2.2.2
    xferDraws := s.xferDraws.drop (xferCount es) }

/-- The state after the end of a command of `len` words with this code: CP advances (R33), LAST takes
the code and ERR is set by a fault (R351), and what exists only inside a command is gone (R38, R44,
R262). -/
def State.ended (s : State) (len : Nat) (code : Code) : State :=
  { s with
    cp := s.cp + len, last := code, err := s.err || decide (code ≠ .ok), busy := false
    line := none, scratchHeld := none, bitOver := none }

/-- The state after a command of `len` words that made these events and ended with code OK. -/
def State.completed (s : State) (len : Nat) (es : List Event) : State :=
  (s.performs es).ended len .ok

/-- `CS+`. -/
def csOn (c : Config) : List Event := if c.hasCs then [.cs .active] else []

/-- `CS-`. -/
def csOff (c : Config) : List Event := if c.hasCs then [.cs .inactive] else []

/-- The command byte of a `Send`, if there is one (R153). -/
def headEvents : Option Byte → List Event
  | none => []
  | some b => [.dc .command, .xfer [b]]

/-- The payload of a `Send`, if it is not empty (R153). -/
def payloadEvents (p : List Byte) : List Event := if p = [] then [] else [.dc .data, .xfer p]

/-- The events of `Send(c, p)` (R153). -/
def sendEvents (c : Config) (cmd : Option Byte) (p : List Byte) : List Event :=
  csOn c ++ headEvents cmd ++ payloadEvents p ++ csOff c

/-- `WIN(x0,y0,x1,y1)` (R156). -/
def windowEvents (c : Config) (x0 y0 x1 y1 : Int) : List Event :=
  sendEvents c (some c.cmdCaset) (be16Int x0 ++ be16Int x1)
    ++ sendEvents c (some c.cmdPaset) (be16Int y0 ++ be16Int y1)
    ++ sendEvents c (some c.cmdRamwr) []

/-- A data bracket of these transfers (R155). -/
def dataEvents (c : Config) (transfers : List (List Byte)) : List Event :=
  csOn c ++ [.dc .data] ++ transfers.map Event.xfer ++ csOff c

/-- The events of `PixelStream` (R158, R159). -/
def streamEvents (s : State) (x0 y0 x1 y1 : Int) (transfers : List (List Byte)) : List Event :=
  if validWindow s x0 y0 x1 y1 = true then
    windowEvents s.cfg x0 y0 x1 y1 ++ dataEvents s.cfg transfers
  else if s.cfg.windowPolicy = .stream then dataEvents s.cfg transfers
  else []

/-- A byte list cut into chunks of k bytes, the last one shorter when k does not divide the length
(R190, R240, R263). -/
def chunksOf (k : Nat) (bytes : List Byte) : List (List Byte) :=
  (List.range (ceilDiv bytes.length k)).map fun i => (bytes.drop (i * k)).take k

/-- The transfers of `FillStream(c, n)`: n pixels in chunks of 128 (R191). -/
def fillTransfers (c : Half) (n : Nat) : List (List Byte) := chunksOf 256 (pixels c n)

/-- What a fill command of this colour may leave in the fill scratch: all of it holds the colour or, where
nothing was streamed, what it held (R47, R190). -/
def FillScratchAfter (s : State) (c : Half) (f : List Byte) : Prop :=
  f = s.fillScratch ∨ f = pixels c 128

/-- The events of `PixelOp` (R200). -/
def pixelEvents (s : State) (x y : Int) (c : Half) : List Event :=
  streamEvents s x y x y [be16 c]

/-- The width of a run clamped at the right or the bottom edge (R204, R207). -/
def clampRun (start len limit : Int) : Int := min len (limit - start)

/-- The pixel (x, y) is on the logical screen (R157). -/
def onScreen (s : State) (x y : Int) : Bool :=
  decide (0 ≤ x ∧ x < s.width.toNat ∧ 0 ≤ y ∧ y < s.height.toNat)

/-- A run of this length from (x, y) is the one that R221 gives an empty data bracket under STREAM, and
the configuration follows R221 (notes/assumptions/19.md). -/
def runEmptied (s : State) (x y len : Int) : Bool :=
  decide (s.cfg.offscreenRun = .emptyBracket ∧ len = 1) && !onScreen s x y

/-- The transfers of a run of length `len` from (x, y), clamped to `len'` (R204, R207, R221). -/
def runTransfers (s : State) (x y len len' : Int) (c : Half) : List (List Byte) :=
  if runEmptied s x y len then [] else fillTransfers c len'.toNat

/-- The events of `HLineOp` (R204). -/
def hlineEvents (s : State) (x y w : Int) (c : Half) : List Event :=
  let w' := clampRun x w s.width.toNat
  streamEvents s x y (x + w' - 1) y (runTransfers s x y w w' c)

/-- The events of `VLineOp` (R207). -/
def vlineEvents (s : State) (x y h : Int) (c : Half) : List Event :=
  let h' := clampRun y h s.height.toNat
  streamEvents s x y x (y + h' - 1) (runTransfers s x y h h' c)

/-- The events of FILL: the whole logical screen (R195). -/
def screenEvents (s : State) (c : Half) : List Event :=
  streamEvents s 0 0 ((s.width.toNat : Int) - 1) ((s.height.toNat : Int) - 1)
    (fillTransfers c (s.width.toNat * s.height.toNat))

/-! ## Lines (R216 to R219) -/

/-- The runs the walk flushes over n major coordinates from x, and the registers after it (R217). -/
def walkRuns : Nat → Int → LineRegs → List LineRun × LineRegs
  | 0, _, r => ([], r)
  | n + 1, x, r =>
    let next := lineAdvance r x
    let rest := walkRuns n (x + 1) next.1
    (next.2.toList ++ rest.1, rest.2)

/-- The runs of a line in the order they are flushed, the leftover run last (R217, R218). -/
def lineRuns (x0 y0 x1 y1 : Int) : List LineRun :=
  let r := lineSetup x0 y0 x1 y1
  let walk := walkRuns (extent (r.dx + 1)) r.x0 r
  walk.1 ++ (if walk.2.dlen > 0 then [⟨walk.2.xs, walk.2.y0, walk.2.dlen⟩] else [])

/-- The events of `Flush` (R217). -/
def runEvents (s : State) (steep : Bool) (c : Half) (run : LineRun) : List Event :=
  match decide (run.len = 1), steep with
  | true, true => pixelEvents s run.minor run.start c
  | true, false => pixelEvents s run.start run.minor c
  | false, true => vlineEvents s run.minor run.start run.len c
  | false, false => hlineEvents s run.start run.minor run.len c

/-! ## Glyphs and bitmaps (R260 to R305) -/

/-- Bit `pos` of the stream at `base`, bit 0 the most significant of the first byte (R260). -/
def streamBit (m : Memory) (base pos : Nat) : Bool :=
  (m.read (base + pos / 8)).getLsbD (7 - pos % 8)

/-- n calls of `BitRead(K)`, one after the other, and what they answer (R264). -/
def readSamples (k : Nat) : Nat → Cmd (List Nat)
  | 0 => pure []
  | n + 1 => do
    let v ← bitRead k
    let vs ← readSamples k n
    pure (v :: vs)

/-- The K-bit sample at bit `pos`, most significant bit first (R260). -/
def sampleAt (m : Memory) (base pos k : Nat) : Nat :=
  (List.range k).foldl (fun v i => 2 * v + (streamBit m base (pos + i)).toNat) 0

/-- The events of `BlitScratch` of these bytes (R263). -/
def blitEvents (s : State) (x y w h : Int) (bytes : List Byte) : List Event :=
  streamEvents s x y (x + w - 1) (y + h - 1) (chunksOf s.cfg.scratchChunk bytes)

/-- The address of a fixed raster font's glyph: `H * W/8` contiguous bytes for each code (R271). -/
def glyphAddress (a : TextArgs) (ch : Nat) : Nat := a.font + (ch - a.first) * a.h * (a.w / 8)

/-- The pixels of a fixed raster font's glyph, row by row: pixel i is bit i of the glyph's bytes, the
most significant bit of a byte first, a 1 bit the foreground (R271). -/
def rasterPixels (m : Memory) (a : TextArgs) (ch : Nat) : List Byte :=
  (List.range (a.h * a.w)).flatMap fun i =>
    be16 (if streamBit m (glyphAddress a ch) i then a.fg else a.bg)

/-- A character code is in FIRST..LAST (R270). -/
def inRange (a : TextArgs) (ch : Byte) : Bool :=
  decide (a.first ≤ ch.toNat ∧ ch.toNat ≤ a.last)

/-- The events of TEXT for these characters from pen position x on (R270, R272). -/
def textEvents (s : State) (a : TextArgs) : List Byte → Int → List Event
  | [], _ => []
  | ch :: chs, x =>
    if inRange a ch then
      (if x + a.w - 1 < s.width.toNat then
        blitEvents s x a.y a.w a.h (rasterPixels s.mem a ch.toNat)
      else []) ++ textEvents s a chs (x + a.w)
    else textEvents s a chs x

/-- Every read of a TEXT of n characters succeeds, and its glyphs do not exceed a resident scratch. -/
def TextReadable (s : State) (a : TextArgs) (n : Nat) : Prop :=
  Readable s a.str n ∧ ∀ ch ∈ s.mem.readBytes a.str n, inRange a ch = true →
    Readable s (glyphAddress a ch.toNat) (a.h * (a.w / 8)) ∧ ScratchFor s (a.w * a.h * 2)

/-- The first position of the map that holds a character (R279). -/
def mapIndex (m : Memory) (map mlen : Nat) (ch : Byte) : Option Nat :=
  (List.range mlen).find? fun j => decide (m.read (map + j) = ch)

/-- The width of glyph j (R279). -/
def glyphWidth (m : Memory) (widths j : Nat) : Nat := (m.read (widths + j)).toNat

/-- The value of an offset-table entry of `ow` bytes at `addr` under OFFSET_ORDER (R75). -/
def tableOffset (order : OffsetOrder) (m : Memory) (addr ow : Nat) : Nat :=
  ((List.range ow).map fun k => (m.read (addr + k)).toNat * 256 ^ (match order with
    | .be => ow - 1 - k
    | .le => k)).sum

/-- The bit offset of glyph j (R282). -/
def glyphOffset (s : State) (a : WriteArgs) (j : Nat) : Nat :=
  tableOffset s.cfg.offsetOrder s.mem (a.offsets + j * a.ow) a.ow

/-- The colour of a variable font's sample: the foreground for the top index, or for any but 0, as
FG_RULE says (R284). -/
def sampleColour (rule : FgRule) (k : Nat) (fg bg : Half) (idx : Nat) : Half :=
  match rule with
  | .topIndex => if idx + 1 = 2 ^ k then fg else bg
  | .nonzero => if 0 < idx then fg else bg

/-- The pixels of glyph j of a variable font (R281, R284). -/
def glyphPixels (s : State) (a : WriteArgs) (j : Nat) : List Byte :=
  (List.range (glyphWidth s.mem a.widths j * a.hgt)).flatMap fun i =>
    be16 (sampleColour s.cfg.fgRule a.k a.fg a.bg
      (sampleAt s.mem a.bits.toNat (glyphOffset s a j + i * a.k) a.k))

/-- What a WRITE of these characters from pen position x on does: its events, the width it advances
and how many glyphs it acquires scratch for (R281, R285). -/
def writePlan (s : State) (a : WriteArgs) : List Byte → Int → List Event × Nat × Nat
  | [], _ => ([], 0, 0)
  | ch :: chs, x =>
    match mapIndex s.mem a.map a.mlen ch with
    | none => writePlan s a chs x
    | some j =>
      let w := glyphWidth s.mem a.widths j
      if x + w - 1 < s.width.toNat then
        let rest := writePlan s a chs (x + w)
        (blitEvents s x a.y w a.hgt (glyphPixels s a j) ++ rest.1, w + rest.2.1, rest.2.2 + 1)
      else ([], 0, 1)

/-- Every byte of the map that the lookup of a character reads can be read: up to the first that holds
it, or all of them (R279). -/
def LookupReadable (s : State) (map mlen : Nat) (ch : Byte) : Prop :=
  Readable s map (match mapIndex s.mem map mlen ch with
    | none => mlen
    | some j => j + 1)

/-- Every read of glyph j succeeds, and it does not exceed a resident scratch (R281). -/
def GlyphReadable (s : State) (a : WriteArgs) (j : Nat) : Prop :=
  let count := glyphWidth s.mem a.widths j * a.hgt
  Readable s (a.widths + j) 1 ∧ Readable s (a.offsets + j * a.ow) a.ow
    ∧ (count = 0 ∨
        a.bits.toNat * 8 + glyphOffset s a j + count * a.k ≤ s.cfg.resMemSize * 8)
    ∧ ScratchFor s (count * 2)

/-- Every read that a WRITE of the characters i .. i+n-1 from pen position x on makes succeeds, and no
glyph it decodes exceeds a resident scratch. Nothing is asked of what lies behind the first glyph that
does not fit, which WRITE does not read (R281, R285). -/
def WriteReadable (s : State) (a : WriteArgs) : Nat → Nat → Int → Prop
  | 0, _, _ => True
  | n + 1, i, x =>
    let ch := s.mem.read (a.str + i)
    Readable s (a.str + i) 1 ∧ LookupReadable s a.map a.mlen ch ∧
      match mapIndex s.mem a.map a.mlen ch with
      | none => WriteReadable s a n (i + 1) x
      | some j =>
        let w := glyphWidth s.mem a.widths j
        GlyphReadable s a j ∧ (x + w - 1 < s.width.toNat → WriteReadable s a n (i + 1) (x + w))

/-- The measured width of a string: the sum of the widths of its mapped characters (R290). -/
def measuredWidth (m : Memory) (map mlen widths : Nat) (chs : List Byte) : Nat :=
  (chs.map fun ch => match mapIndex m map mlen ch with
    | none => 0
    | some j => glyphWidth m widths j).sum

/-- The bit at which a bitmap's frame starts (R302). -/
def frameStart (fcount fidx npx k : Nat) : Nat := if fcount = 0 then 0 else fidx * npx * k

/-- The pixels of a bitmap whose samples start at bit `start`: a palette entry stands low byte first in
memory and goes out high byte first (R74, R77, R300, R303). -/
def bitmapPixels (m : Memory) (bits pal k start npx : Nat) : List Byte :=
  (List.range npx).flatMap fun i =>
    let entry := pal + 2 * sampleAt m bits (start + i * k) k
    [m.read (entry + 1), m.read entry]

/-- Every read of a bitmap's samples and palette entries succeeds, and every index is in the palette
(R300, R303). -/
def BitmapReadable (s : State) (bits pal plen k start npx : Nat) : Prop :=
  npx = 0 ∨ (bits * 8 + start + npx * k ≤ s.cfg.resMemSize * 8 ∧
    ∀ i < npx, sampleAt s.mem bits (start + i * k) k < plen ∧
      Readable s (pal + 2 * sampleAt s.mem bits (start + i * k) k) 2)

/-! ## Control sequences (R310 to R318) -/

/-- The registers of a rotation by n: the odd rotations swap width and height (R170, R36). -/
def State.rotated (s : State) (n : Nat) : State :=
  let r := n % s.cfg.variant.count
  { s with
    rot := BitVec.ofNat 3 r
    width := if r % 2 = 1 then s.cfg.physH else s.cfg.physW
    height := if r % 2 = 1 then s.cfg.physW else s.cfg.physH }

/-- The events of `HardResetSeq()` (R310). -/
def hardResetEvents (c : Config) : List Event :=
  if c.hasRst then
    [.rst .active, .delay c.tRstPulse, .rst .inactive, .delay c.tRstRecover]
  else []

/-- The events of `SoftResetSeq()` (R312). -/
def softResetEvents (c : Config) : List Event :=
  sendEvents c (some c.cmdSwreset) [] ++ [.delay c.tSwreset]

/-- The orientation byte of rotation r (R170, R171). -/
def orientation (c : Config) (r : Nat) : Byte := c.madctlBase ||| rotationBits c r

/-- The events of the reset step of INIT (R318). -/
def initResetEvents (c : Config) : InitReset → List Event
  | .hardThenSoft => hardResetEvents c ++ softResetEvents c
  | .hard => hardResetEvents c
  | .soft => softResetEvents c

/-- The events of INIT in a state that holds the rotation INIT applies (R318). -/
def initEvents (s : State) : List Event :=
  let c := s.cfg
  initResetEvents c c.initReset
  ++ sendEvents c (some c.cmdSlpout) []
  ++ sendEvents c (some c.cmdColmod) [c.colmod16bpp]
  ++ sendEvents c (some c.cmdMadctl) [orientation c s.rot.toNat]
  ++ sendEvents c (some c.cmdInvon) []
  ++ sendEvents c (some c.cmdNoron) []
  ++ screenEvents s 0
  ++ (if c.hasBl then [.bl .on] else [])
  ++ sendEvents c (some c.cmdDispon) []
  ++ [.delay c.tInitSettle]

/-! ## Which commands do what -/

/-- The commands that read resource memory (R70). -/
def readsMemory : Instr → Bool
  | .send .. => true
  | .setWindow .. => false
  | .rotation .. => false
  | .fill .. => false
  | .fillRect .. => false
  | .pixel .. => false
  | .hline .. => false
  | .vline .. => false
  | .rect .. => false
  | .line .. => false
  | .blit .. => true
  | .text .. => true
  | .write .. => true
  | .writeLen .. => true
  | .bitmap .. => true
  | .hardReset => false
  | .softReset => false
  | .sleep .. => false
  | .invert .. => false
  | .init => false
  | .vscrollDefine .. => false
  | .vscrollSet .. => false
  | .width => false
  | .height => false

/-- The commands that write RESULT (R37). -/
def writesResult : Instr → Bool
  | .send .. => false
  | .setWindow .. => false
  | .rotation .. => false
  | .fill .. => false
  | .fillRect .. => false
  | .pixel .. => false
  | .hline .. => false
  | .vline .. => false
  | .rect .. => false
  | .line .. => false
  | .blit .. => false
  | .text .. => false
  | .write .. => true
  | .writeLen .. => true
  | .bitmap .. => false
  | .hardReset => false
  | .softReset => false
  | .sleep .. => false
  | .invert .. => false
  | .init => false
  | .vscrollDefine .. => false
  | .vscrollSet .. => false
  | .width => true
  | .height => true

/-- The commands that decode through the cursor (R43). -/
def usesCursor : Instr → Bool
  | .send .. => false
  | .setWindow .. => false
  | .rotation .. => false
  | .fill .. => false
  | .fillRect .. => false
  | .pixel .. => false
  | .hline .. => false
  | .vline .. => false
  | .rect .. => false
  | .line .. => false
  | .blit .. => false
  | .text .. => false
  | .write .. => true
  | .writeLen .. => false
  | .bitmap .. => true
  | .hardReset => false
  | .softReset => false
  | .sleep .. => false
  | .invert .. => false
  | .init => false
  | .vscrollDefine .. => false
  | .vscrollSet .. => false
  | .width => false
  | .height => false

/-- The commands that fill through the fill scratch (R47). -/
def usesFillScratch : Instr → Bool
  | .send .. => false
  | .setWindow .. => false
  | .rotation .. => false
  | .fill .. => true
  | .fillRect .. => true
  | .pixel .. => false
  | .hline .. => true
  | .vline .. => true
  | .rect .. => true
  | .line .. => true
  | .blit .. => false
  | .text .. => false
  | .write .. => false
  | .writeLen .. => false
  | .bitmap .. => false
  | .hardReset => false
  | .softReset => false
  | .sleep .. => false
  | .invert .. => false
  | .init => true
  | .vscrollDefine .. => false
  | .vscrollSet .. => false
  | .width => false
  | .height => false

/-- The commands that decode into the glyph/bitmap scratch (R48). -/
def usesGlyphScratch : Instr → Bool
  | .send .. => false
  | .setWindow .. => false
  | .rotation .. => false
  | .fill .. => false
  | .fillRect .. => false
  | .pixel .. => false
  | .hline .. => false
  | .vline .. => false
  | .rect .. => false
  | .line .. => false
  | .blit .. => false
  | .text .. => true
  | .write .. => true
  | .writeLen .. => false
  | .bitmap .. => true
  | .hardReset => false
  | .softReset => false
  | .sleep .. => false
  | .invert .. => false
  | .init => false
  | .vscrollDefine .. => false
  | .vscrollSet .. => false
  | .width => false
  | .height => false

/-- The operand counts of the opcodes 0x01 to 0x18, in order (R118). -/
def operandCounts : List Nat :=
  [2, 2, 0, 1, 3, 2, 3, 3, 3, 3, 4, 6, 10, 5, 6, 0, 0, 0, 0, 0, 2, 1, 0, 0]

/-! ## Faults in the middle of a command (R352) -/

/-- The events up to the k-th transfer (counted from 0), which is replaced by a failed one and ends
them (R152, R352, R355). Events that hold no k-th transfer are all kept. -/
def cutAtTransfer : Nat → List Event → List Event
  | _, [] => []
  | k, .xfer bs :: es =>
    if k = 0 then [.xferFail bs] else .xfer bs :: cutAtTransfer (k - 1) es
  | k, .xferFail bs :: es =>
    if k = 0 then [.xferFail bs] else .xferFail bs :: cutAtTransfer (k - 1) es
  | k, .cs a :: es => .cs a :: cutAtTransfer k es
  | k, .dc m :: es => .dc m :: cutAtTransfer k es
  | k, .rst a :: es => .rst a :: cutAtTransfer k es
  | k, .bl b :: es => .bl b :: cutAtTransfer k es
  | k, .delay ms :: es => .delay ms :: cutAtTransfer k es

/-- The faults a command can raise besides CONFIGURATION_ERROR and ILLEGAL_COMMAND: the table of
R361. -/
def mayRaise : Instr → List Code
  | .send .. => [.transportError, .resourceBounds]
  | .setWindow .. => [.transportError]
  | .rotation .. => [.transportError]
  | .fill .. => [.transportError]
  | .fillRect .. => [.transportError]
  | .pixel .. => [.transportError]
  | .hline .. => [.transportError]
  | .vline .. => [.transportError]
  | .rect .. => [.transportError]
  | .line .. => [.transportError]
  | .blit .. => [.transportError, .resourceBounds]
  | .text .. => [.resourceError, .transportError, .resourceBounds]
  | .write .. => [.resourceError, .transportError, .resourceBounds]
  | .writeLen .. => [.resourceBounds]
  | .bitmap .. => [.rangeError, .resourceError, .transportError, .resourceBounds]
  | .hardReset => []
  | .softReset => [.transportError]
  | .sleep .. => [.transportError]
  | .invert .. => [.transportError]
  | .init => [.transportError]
  | .vscrollDefine .. => [.transportError]
  | .vscrollSet .. => [.transportError]
  | .width => []
  | .height => []

end Sys2Proof.Machine
end

