-- ==== Sys2Proof/Certificates/Slice0/Obligations.lean ====
section
/-! DEFINITION. The statements about the block, from the numbered rules of spec/. Each docstring names
the rules; `completed`, `ended`, `performs` and the event lists are those of Sys2Proof/Safety.lean. -/

section

open Sys2Proof Sys2Proof.Machine

/-! ## Encoding (spec/30_encoding.md) -/

/-- Decoding the words of a legal command gives the command back, every operand at every value
(R111 to R118, R120). -/
def Obligations.DecodeOfEncode : Prop :=
  ∀ i : Instr, i.wf = true → decodeWords (encode i) = .command i

/-- A command is decoded from its own words alone: the words read are exactly its encoding, so no bit
of a legal command is ignored (R111, R112, R117, R118, R121). -/
def Obligations.EncodeOfDecode : Prop :=
  ∀ (ws : List Word) (i : Instr), decodeWords ws = .command i →
    i.wf = true ∧ 1 + i.operandCount ≤ ws.length ∧ ws.take (1 + i.operandCount) = encode i

/-- The decoder is total, and the opcode alone decides how many words a command takes: an illegal
opcode one, a known one its header and L operands, for which it waits (R110, R118, R121, R122,
R124). -/
def Obligations.OpcodeDecidesLength : Prop :=
  ∀ (h : Word) (ops : List Word),
    let opc := (headerOpc h).toNat
    ((opc = 0 ∨ 0x18 < opc) → decodeWords (h :: ops) = .illegal .opcode 1) ∧
    (1 ≤ opc → opc ≤ 0x18 →
      let n := operandCounts.getD (opc - 1) 0
      (ops.length < n → decodeWords (h :: ops) = .incomplete (n - ops.length)) ∧
      (n ≤ ops.length →
        (∃ i, decodeWords (h :: ops) = .command i ∧ i.operandCount = n) ∨
        (∃ why, why ≠ .opcode ∧ decodeWords (h :: ops) = .illegal why (1 + n))))

/-- R132: each worked command encodes as the words given for it and those words decode to it; the two
worked headers carry K and OW in their fields. -/
def Obligations.WorkedEncodings : Prop :=
  (∀ p ∈ [
      (Instr.pixel 10 20 0xF800, [0x00000006, 0x0014000A, 0x0000F800]),
      (Instr.line 0 0 5 2 0x07E0, [0x0000000A, 0x00000000, 0x00020005, 0x000007E0]),
      (Instr.hline (-3) 7 12 0x001F, [0x00000007, 0x0007FFFD, 0x0000000C, 0x0000001F]),
      (pseudoCmd 0x2C, [0x00012C01, 0x00000000, 0x00000000]),
      (Instr.rotation 5, [0x00000503]),
      (Instr.sleep true, [0x00000112]),
      (Instr.setWindow 1 2 3 4, [0x00000002, 0x00020001, 0x00040003])],
    encode p.1 = p.2 ∧ decodeWords p.2 = .command p.1) ∧
  pseudoCmd 0x2C = .send true 0x2C 0 0 ∧
  (∀ map mlen widths offsets bits hgt str n x y fg bg,
    (encode (.write 1 2 map mlen widths offsets bits hgt str n x y fg bg)).head? =
      some 0x0002010D) ∧
  (∀ bits pal plen w h fcount fidx x y,
    (encode (.bitmap 2 bits pal plen w h fcount fidx x y)).head? = some 0x0000020F)

/-! ## The command port (spec/10_state.md R32, R33, R39 to R42) -/

/-- When the next word on CMD completes a legal command, the step executes exactly that command: the
buffer is emptied and CP stands at the command's header (R10, R33, R42, R390). One host move a step is
the model's form (notes/assumptions/8.md). -/
def Obligations.StepRunsDecoded : Prop :=
  ∀ (s : State) (w : Word) (rest : List HostOp) (i : Instr),
    s.busy = false → s.resetHeld = false → s.inbox = .writeReg .word 0 w :: rest →
    decodeWords (s.pending ++ [w]) = .command i →
    step s = exec i { s with inbox := rest, pending := [], cp := s.cp - s.pending.length }

/-- While words of a command are outstanding the block takes the next word into the buffer, counts it
and does nothing else: PARTIAL reads 1 and no event is emitted (R33, R38, R42). -/
def Obligations.StepTakesOperand : Prop :=
  ∀ (s : State) (w : Word) (rest : List HostOp) (n : Nat),
    s.busy = false → s.resetHeld = false → s.inbox = .writeReg .word 0 w :: rest →
    decodeWords (s.pending ++ [w]) = .incomplete n →
    ∃ t, step s = .next t ∧
      t = { s with inbox := rest, pending := s.pending ++ [w], cp := s.cp + 1 } ∧
      partialBit t = true

/-- A host that writes the words of a legal command to an empty buffer runs that command from the
state it found (R11, R42). -/
def Obligations.EncodedCommandRuns : Prop :=
  ∀ (s : State) (i : Instr), s.busy = false → s.resetHeld = false → s.pending = [] →
    i.wf = true → step (s.withCommandWords (encode i)) = exec i s

/-- R124: an illegal opcode takes one word, sets LAST and ERR, advances CP by 1, emits nothing and
changes nothing else, and the buffer is empty for the next header. -/
def Obligations.IllegalOpcode : Prop :=
  ∀ (s : State) (w : Word) (rest : List HostOp),
    s.Inv → configLegal s.cfg = true → s.resetHeld = false → s.pending = [] →
    s.inbox = .writeReg .word 0 w :: rest →
    ((headerOpc w).toNat = 0 ∨ 0x18 < (headerOpc w).toNat) →
    step s = .next
      { s with inbox := rest, cp := s.cp + 1, last := .illegalCommand, err := true }

/-- R121: a known opcode with a bad field, once all its 1 + L words are in, has no effect but LAST,
ERR and CP; the words stand written out as the rule lists what is bad. -/
def Obligations.IllegalFields : Prop :=
  ∀ (s : State) (h w : Word) (rest : List HostOp) (row : OpcodeRow),
    s.Inv → configLegal s.cfg = true → s.resetHeld = false →
    s.inbox = .writeReg .word 0 w :: rest → (s.pending ++ [w]).head? = some h →
    opcodeRow (headerOpc h) = some row →
    s.pending.length = row.formats.length →
    (headerRsv h ≠ 0 ∨ headerA h &&& row.aZero ≠ 0 ∨ headerB h &&& row.bZero ≠ 0 ∨
      (∃ p ∈ ((s.pending ++ [w]).tail).zip row.formats, p.1 &&& p.2.mustBeZero ≠ 0) ∨
      (∃ i, readFields h (s.pending ++ [w]).tail = some i ∧ i.wf = false)) →
    ∃ t, step s = .next t ∧
      t = { s with
        inbox := rest, pending := [], cp := s.cp + 1, last := .illegalCommand, err := true }

/-- R357: while CFG_BAD is 1 every command, legal or not, ends with CONFIGURATION_ERROR, has no other
effect and advances CP by 1 + L (by 1 where the opcode is illegal); the block still accepts words. -/
def Obligations.ConfigurationError : Prop :=
  (∀ (i : Instr) (s : State), cfgBad s = true →
    exec i s = .next (s.ended (1 + i.operandCount) .configurationError)) ∧
  (∀ (s : State) (h w : Word) (rest : List HostOp) (why : IllegalReason) (len : Nat),
    cfgBad s = true → s.busy = false → s.resetHeld = false →
    s.inbox = .writeReg .word 0 w :: rest → (s.pending ++ [w]).head? = some h →
    decodeWords (s.pending ++ [w]) = .illegal why len →
    len = (match opcodeRow (headerOpc h) with
      | none => 1
      | some row => 1 + row.formats.length) ∧
    step s = .next (State.ended
      { s with inbox := rest, pending := [], cp := s.cp - s.pending.length } len
      .configurationError)) ∧
  (∀ (s : State) (w : Word) (rest : List HostOp) (n : Nat),
    cfgBad s = true → s.busy = false → s.resetHeld = false →
    s.inbox = .writeReg .word 0 w :: rest → decodeWords (s.pending ++ [w]) = .incomplete n →
    step s = .next
      { s with inbox := rest, pending := s.pending ++ [w], cp := s.cp + 1 })

/-- R39: what a write of CTRL does, and what a read of it returns. -/
def Obligations.ControlRegister : Prop :=
  (∀ (s : State) (v : Word) (rest : List HostOp),
    s.busy = false → s.inbox = .writeReg .word 0x0C v :: rest →
    step s = .next
      { s with
        inbox := rest
        err := if v.getLsbD 0 then false else s.err
        pending := if v.getLsbD 1 then [] else s.pending }) ∧
  (∀ (s : State) (rest : List HostOp),
    s.busy = false → s.inbox = .readReg .word 0x0C :: rest →
    step s = .next { s with inbox := rest, readData := 0 })

/-- A read of STATUS returns each field of R38 in its place and 0 in the reserved bits, and changes
nothing: LAST is one of the codes 0 to 7 of R350, and CFG_BAD is 1 unless R50's three conditions
hold. -/
def Obligations.StatusRead : Prop :=
  [Code.ok, .illegalCommand, .rangeError, .resourceError, .transportError, .resourceBounds,
    .configurationError, .decodeError].map codeBits = [0, 1, 2, 3, 4, 5, 6, 7] ∧
  ∀ (s : State) (rest : List HostOp),
    s.busy = false → s.inbox = .readReg .word 0x04 :: rest →
    ∃ v : Word, step s = .next { s with inbox := rest, readData := v } ∧
      v.getLsbD 0 = false ∧ v.getLsbD 1 = s.err ∧ v.getLsbD 2 = !s.pending.isEmpty ∧
      v.getLsbD 3 = false ∧ v.extractLsb' 4 4 = codeBits s.last ∧ v.extractLsb' 8 3 = s.rot ∧
      (v.getLsbD 11 = false ↔
        ((s.cfg.physW = 240 ∧ s.cfg.physH = 320) ∨ (s.cfg.physW = 320 ∧ s.cfg.physH = 240)) ∧
          s.cfg.hasDc = true ∧ ∀ cap, s.cfg.scratch = .resident cap → 0 ≤ cap) ∧
      ∀ k, 12 ≤ k → v.getLsbD k = false

/-- The rest of the register map (R40) and the access rule (R41): RESULT reads as it stands, CMD and
the reserved offsets read 0, STATUS and the reserved offsets ignore writes (R38, R40), and an access
that is not 32 bits wide and aligned is refused. That a write to RESULT is ignored is the model's
reading of its "read-only" in R37 and R40 (notes/assumptions/15.md). -/
def Obligations.RegisterMap : Prop :=
  ∀ (s : State) (rest : List HostOp), s.busy = false →
    (s.inbox = .readReg .word 0x08 :: rest →
      step s = .next { s with inbox := rest, readData := s.result }) ∧
    (∀ o : BitVec 5, o = 0x00 ∨ o = 0x10 ∨ o = 0x14 ∨ o = 0x18 ∨ o = 0x1C →
      s.inbox = .readReg .word o :: rest →
      step s = .next { s with inbox := rest, readData := 0 }) ∧
    (∀ (o : BitVec 5) (v : Word),
      o = 0x04 ∨ o = 0x08 ∨ o = 0x10 ∨ o = 0x14 ∨ o = 0x18 ∨ o = 0x1C →
      s.inbox = .writeReg .word o v :: rest → step s = .next { s with inbox := rest }) ∧
    (∀ (width : AccessWidth) (o : BitVec 5) (v : Word), width ≠ .word ∨ o.toNat % 4 ≠ 0 →
      (s.inbox = .writeReg width o v :: rest → step s = .refused .hostAccessShape) ∧
      (s.inbox = .readReg width o :: rest → step s = .refused .hostAccessShape))

/-- Between commands the host can write any byte of resource memory that exists and no other state;
later reads see it (R70, R87). An address that does not exist stops the machine: the model's choice
(notes/assumptions/10.md). -/
def Obligations.HostWritesMemory : Prop :=
  ∀ (s : State) (a : Nat) (b : Byte) (rest : List HostOp),
    s.busy = false → s.mem.wf = true → s.inbox = .writeMem a b :: rest →
    (a < s.cfg.resMemSize → ∃ t, step s = .next t ∧ t.mem.read a = b ∧
      (∀ a', a' ≠ a → t.mem.read a' = s.mem.read a') ∧
      t = { s with inbox := rest, mem := t.mem }) ∧
    (s.cfg.resMemSize ≤ a → step s = .fault (.hostAddressAbsent a))

/-! ## Reset (spec/10_state.md R51, spec/70_reset_and_hazards.md R390) -/

/-- R51: when the reset input is released every piece of block state takes its value of the table.
BITBASE, BITPOS and the contents of the scratches have none there; the configuration and resource
memory are no block state (R30). Asserting the input discards the words of a partly received command,
and a word written to CMD while it is asserted is not accepted (R390, R391); that the word is lost, and
that a release without an assertion does nothing, is the model's choice (notes/assumptions/16.md). -/
def Obligations.BlockReset : Prop :=
  ∀ (s : State) (rest : List HostOp), s.busy = false →
    (s.inbox = .assertReset :: rest →
      step s = .next { s with inbox := rest, resetHeld := true, pending := [] }) ∧
    (∀ w, s.resetHeld = true → s.inbox = .writeReg .word 0 w :: rest →
      step s = .next { s with inbox := rest }) ∧
    (s.resetHeld = false → s.inbox = .releaseReset :: rest →
      step s = .next { s with inbox := rest }) ∧
    (s.resetHeld = true → s.inbox = .releaseReset :: rest →
      ∃ t, step s = .next t ∧ t.resetHeld = false ∧ t.cfg = s.cfg ∧ t.mem = s.mem ∧
        t.inbox = rest ∧ t.rot = 0 ∧ t.width = s.cfg.physW ∧ t.height = s.cfg.physH ∧
        t.result = 0 ∧ t.busy = false ∧ t.err = false ∧ partialBit t = false ∧ t.last = .ok ∧
        cfgBad t = !configLegal s.cfg ∧ t.pending = [] ∧ t.cp = 0 ∧ t.line = none ∧
        t.fillScratch.length = 256 ∧
        (∀ cap, s.cfg.scratch = .resident cap → t.scratchSize = cap.toNat) ∧
        (s.cfg.scratch = .transient → t.scratchSize = 0) ∧
        t.cs = .inactive ∧ t.dc = .undriven ∧ t.rst = .inactive ∧ t.bl = .off ∧ t.trace = [])

/-! ## The invariant -/

/-- The invariant holds after reset, whatever the configuration, the contents of resource memory and
the draws (R36, R51). -/
def Obligations.InvAfterReset : Prop :=
  State.reset.Inv ∧
  ∀ (c : Config) (m : Memory) (xs as : List Bool), m.wf = true →
    (State.resetWith c m xs as).Inv

/-- Every step keeps the invariant: the memory's form, the legal rotation and its geometry, the
pending buffer, the two scratch buffers, the reset input, the brackets, the legal events and the lines
that follow them (R34, R36, R42, R45 to R48, R150, R350, R391). -/
def Obligations.InvKept : Prop :=
  ∀ s t : State, s.Inv → step s = .next t → t.Inv

/-! ## What every command does (spec/60_exceptions.md, spec/10_state.md) -/

/-- Every command, from every state, ends: CP has advanced by 1 + L, LAST holds a code, ERR is set by
a nonzero one and cleared by none, and the reserved code is not written (R33, R125, R350, R351). -/
def Obligations.EveryCommandEnds : Prop :=
  ∀ (i : Instr) (s : State), ∃ t, exec i s = .next t ∧ t.cp = s.cp + (1 + i.operandCount) ∧
    t.err = (s.err || decide (t.last ≠ .ok)) ∧ t.last ≠ .decodeError ∧ t.busy = false

/-- The frame of every command, faulting or not: what no command writes, and which commands alone
write the geometry, RESULT, the cursor, the scratches, RST and BL; a command that faults writes no
RESULT; no byte of resource memory changes, nothing of the command is left over and the trace only
grows; that a scratch keeps its bytes between uses is the model's choice (notes/assumptions/11.md) (R34, R35, R37, R43 to R45, R47, R48, R71, R262, R310, R318, R352). -/
def Obligations.CommandFrame : Prop :=
  ∀ (i : Instr) (s t : State), exec i s = .next t →
    t.cfg = s.cfg ∧ (∀ a, t.mem.read a = s.mem.read a) ∧ t.mem = s.mem ∧
    t.pending = s.pending ∧ t.inbox = s.inbox ∧ t.readData = s.readData ∧
    t.resetHeld = s.resetHeld ∧ t.line = none ∧ t.scratchHeld = none ∧ t.bitOver = none ∧
    (∃ es, t.trace = s.trace ++ es) ∧
    ((∀ n, i ≠ .rotation n) → i ≠ .init →
      t.rot = s.rot ∧ t.width = s.width ∧ t.height = s.height) ∧
    (writesResult i = false ∨ t.last ≠ .ok → t.result = s.result) ∧
    (usesCursor i = false →
      t.bitBase = s.bitBase ∧ t.bitPos = s.bitPos ∧ t.freeCount = s.freeCount) ∧
    (usesFillScratch i = false → t.fillScratch = s.fillScratch) ∧
    (usesGlyphScratch i = false → t.scratch = s.scratch ∧ t.allocDraws = s.allocDraws) ∧
    (i ≠ .hardReset → i ≠ .init → t.rst = s.rst) ∧ (i ≠ .init → t.bl = s.bl)

/-- The faults a legal command can end with under a legal configuration are those of its row in the
table of R361. -/
def Obligations.FaultTable : Prop :=
  ∀ (i : Instr) (s t : State), i.wf = true → configLegal s.cfg = true → exec i s = .next t →
    t.last = .ok ∨ t.last ∈ mayRaise i

/-- R150: the events of every command, faulting or not, are whole brackets: none nested, none left
open, every transfer inside one; and no event is one the configuration does not allow (R45, R152). -/
def Obligations.BracketsClose : Prop :=
  ∀ (i : Instr) (s t : State), exec i s = .next t →
    ∃ es, t.trace = s.trace ++ es ∧ bracketScan s.cfg.hasCs false es = some false ∧
      es.all (eventOk s.cfg) = true

/-- A transport failure cuts a command at its point (R352, R355, R363). Take any command and what it
does when no transfer fails: if instead its transfer k (counted from 0) fails, the events up to it
stand, the failed transfer is recorded as such, CS is released and nothing follows; RESULT stays and
the command ends with TRANSPORT_ERROR. -/
def Obligations.TransportFailureCuts : Prop :=
  ∀ (i : Instr) (s u : State) (es : List Event) (k : Nat) (rest : List Bool),
    exec i { s with xferDraws := [] } = .next u → u.trace = s.trace ++ es →
    k < xferCount es → s.xferDraws = List.replicate k true ++ false :: rest →
    ∃ t, exec i s = .next t ∧
      t.trace = s.trace ++ (cutAtTransfer k es ++ csOff s.cfg) ∧
      t.last = .transportError ∧ t.err = true ∧ t.cp = s.cp + (1 + i.operandCount) ∧
      t.result = s.result ∧ t.xferDraws = rest

/-- Only SEND, BLIT, TEXT, WRITE, WRITE_LEN and BITMAP read resource memory: every other command does
the same whatever memory holds (R70). -/
def Obligations.OnlyReadersReadMemory : Prop :=
  ∀ (i : Instr) (s t : State) (m : Memory), readsMemory i = false → exec i s = .next t →
    exec i { s with mem := m } = .next { t with mem := m }

/-- No command reads LAST, ERR, RESULT or the cursor that an earlier command left: its events, its
code, its geometry, the lines, CP and the RESULT it returns are the same whatever they hold (R37, R43,
R49). -/
def Obligations.NoCommandReadsFlagsOrCursor : Prop :=
  ∀ (i : Instr) (s t u : State) (e : Bool) (l : Code) (r : Word) (base : BitVec 32)
    (pos : BitVec 35), exec i s = .next t →
    exec i { s with err := e, last := l, result := r, bitBase := base, bitPos := pos } = .next u →
    u.trace = t.trace ∧ u.last = t.last ∧ u.rot = t.rot ∧ u.width = t.width ∧
      u.height = t.height ∧ u.xferDraws = t.xferDraws ∧ u.allocDraws = t.allocDraws ∧
      u.err = (e || decide (t.last ≠ .ok)) ∧ u.cp = t.cp ∧ u.levels = t.levels ∧
      (writesResult i = true → t.last = .ok → u.result = t.result)

/-! ## The protocol and window family (spec/40_protocol_window.md) -/

/-- SEND of bytes that can be read makes the events of one `Send` with them as payload, and nothing
else (R153, R154, R160). -/
def Obligations.SendSends : Prop :=
  ∀ (hasCmd : Bool) (cmd : Byte) (addr len : Word) (s : State),
    Ready s → Readable s addr.toNat len.toNat →
    exec (.send hasCmd cmd addr len) s = .next (s.completed 3
      (sendEvents s.cfg (if hasCmd then some cmd else none)
        (s.mem.readBytes addr.toNat len.toNat)))

/-- SEND of bytes past the end of resource memory ends with RESOURCE_BOUNDS before any event (R71,
R160, R354). -/
def Obligations.SendOutOfBounds : Prop :=
  ∀ (hasCmd : Bool) (cmd : Byte) (addr len : Word) (s : State),
    configLegal s.cfg = true → len ≠ 0 → s.cfg.resMemSize < addr.toNat + len.toNat →
    exec (.send hasCmd cmd addr len) s = .next (s.ended 3 .resourceBounds)

/-- SET_WINDOW sends the three window commands when the window is valid and nothing otherwise (R156 to
R158, R165). -/
def Obligations.SetWindowPrograms : Prop :=
  ∀ (x0 x1 y0 y1 : Half) (s : State), Ready s →
    exec (.setWindow x0 x1 y0 y1) s = .next (s.completed 3
      (if 0 ≤ s16 x0 ∧ s16 x0 ≤ s16 x1 ∧ s16 x1 < s.width.toNat ∧
          0 ≤ s16 y0 ∧ s16 y0 ≤ s16 y1 ∧ s16 y1 < s.height.toNat then
        windowEvents s.cfg (s16 x0) (s16 y0) (s16 x1) (s16 y1)
      else []))

/-- ROTATION writes ROT, WIDTH and HEIGHT for n mod N and sends the orientation byte (R36, R170,
R172). -/
def Obligations.RotationSends : Prop :=
  ∀ (n : Byte) (s : State), Ready s →
    exec (.rotation n) s = .next ((s.rotated n.toNat).completed 1
      (sendEvents s.cfg (some s.cfg.cmdMadctl)
        [orientation s.cfg (n.toNat % s.cfg.variant.count)]))

/-- ROTATION writes ROT, WIDTH and HEIGHT before it sends, so they keep their new values whatever its
transfers do: an odd rotation swaps the physical width and height (R36, R170, R171, R352). -/
def Obligations.RotationRegistersStand : Prop :=
  ∀ (n : Byte) (s t : State), configLegal s.cfg = true → exec (.rotation n) s = .next t →
    t.rot.toNat = n.toNat % s.cfg.variant.count ∧
    t.width = (if n.toNat % s.cfg.variant.count % 2 = 1 then s.cfg.physH else s.cfg.physW) ∧
    t.height = (if n.toNat % s.cfg.variant.count % 2 = 1 then s.cfg.physW else s.cfg.physH)

/-- R173: two ROTATIONs with the same n mod N do the same from any state and, one after the other,
leave the same registers; a rotation that does not swap restores the physical geometry after one that
does. -/
def Obligations.RotationIdempotent : Prop :=
  (∀ (n n' : Byte) (s : State), n.toNat % s.cfg.variant.count = n'.toNat % s.cfg.variant.count →
    exec (.rotation n) s = exec (.rotation n') s ∧
    (∀ t u, configLegal s.cfg = true → exec (.rotation n) s = .next t →
      exec (.rotation n') t = .next u →
      u.rot = t.rot ∧ u.width = t.width ∧ u.height = t.height)) ∧
  (∀ (n m : Byte) (s t u : State), configLegal s.cfg = true →
    (rotationRow (n.toNat % s.cfg.variant.count)).swap = true →
    (rotationRow (m.toNat % s.cfg.variant.count)).swap = false →
    exec (.rotation n) s = .next t → exec (.rotation m) t = .next u →
    u.width = s.cfg.physW ∧ u.height = s.cfg.physH)

/-- The rotation table with the default MADCTL bits: the orientation byte and the swap of each row
(R171). -/
def Obligations.RotationTable : Prop :=
  (List.range 8).map (fun r => (orientation Config.standard r, (rotationRow r).swap)) =
    [(0x08, false), (0x68, true), (0xC8, false), (0xA8, true),
     (0x48, false), (0x28, true), (0x88, false), (0xE8, true)]

/-! ## The fill and raster family (spec/41_fill_raster.md) -/

/-- R191: `FillStream(c, n)` makes exactly ceil(n / 128) transfers, all but the last of 256 bytes, of
2n bytes in all, every pair the colour, its high byte first (R77); it fills the whole fill scratch
(R47). -/
def Obligations.FillStreamTransfers : Prop :=
  ∀ (c : Half) (n : Nat) (s : State), TransportUp s →
    ∃ (t : State) (ts : List (List Byte)), fillStream c n s = .ok () t ∧
      t.trace = s.trace ++ ts.map Event.xfer ∧
      t.fillScratch = (List.replicate 128 [c.extractLsb' 8 8, c.extractLsb' 0 8]).flatten ∧
      ts.length = ceilDiv n 128 ∧ (∀ b ∈ ts.dropLast, b.length = 256) ∧
      (∀ b, ts.getLast? = some b → b.length = 2 * (n - 128 * (ceilDiv n 128 - 1))) ∧
      ts.flatten = (List.replicate n [c.extractLsb' 8 8, c.extractLsb' 0 8]).flatten ∧
      ts.flatten.length = 2 * n

/-- FILL streams the colour into the window of the whole logical screen (R195). -/
def Obligations.FillFillsScreen : Prop :=
  ∀ (c : Half) (s : State), Ready s →
    ∃ f, FillScratchAfter s c f ∧ exec (.fill c) s = .next (State.completed
      { s with fillScratch := f } 2 (screenEvents s c))

/-- In every state the block can reach, FILL's window is valid and its pixels are 600 transfers of 256
bytes with no partial one; the fill scratch is left full of the colour (R47, R191, R195). -/
def Obligations.FillMakesSixHundredTransfers : Prop :=
  ∀ (c : Half) (s : State), s.Inv → Ready s →
    exec (.fill c) s = .next (State.completed { s with fillScratch := pixels c 128 } 2
      (windowEvents s.cfg 0 0 (s.width.toNat - 1) (s.height.toNat - 1)
        ++ dataEvents s.cfg (List.replicate 600 (pixels c 128))))

/-- FILL_RECT streams max(w,0) * max(h,0) pixels into its window, without clamping (R159, R198). -/
def Obligations.FillRectFills : Prop :=
  ∀ (x y w h c : Half) (s : State), Ready s →
    ∃ f, FillScratchAfter s c f ∧ exec (.fillRect x y w h c) s = .next (State.completed
      { s with fillScratch := f } 4
      (streamEvents s (s16 x) (s16 y) (s16 x + s16 w - 1) (s16 y + s16 h - 1)
        (fillTransfers c ((s16 w).toNat * (s16 h).toNat))))

/-- PIXEL opens a one-pixel window and sends its two bytes, or nothing off the screen (R200, R201). -/
def Obligations.PixelDraws : Prop :=
  ∀ (x y c : Half) (s : State), Ready s →
    exec (.pixel x y c) s = .next (s.completed 3 (pixelEvents s (s16 x) (s16 y) c))

/-- HLINE streams its run, clamped at the right edge alone (R204, R205; an off-screen run of length 1 under
STREAM as notes/assumptions/19.md says). -/
def Obligations.HlineDraws : Prop :=
  ∀ (x y len c : Half) (s : State), Ready s →
    ∃ f, FillScratchAfter s c f ∧ exec (.hline x y len c) s = .next (State.completed
      { s with fillScratch := f } 4
      (hlineEvents s (s16 x) (s16 y) (s16 len) c))

/-- VLINE streams its run, clamped at the bottom edge alone (R207, R208; an off-screen run of length 1 under
STREAM as notes/assumptions/19.md says). -/
def Obligations.VlineDraws : Prop :=
  ∀ (x y len c : Half) (s : State), Ready s →
    ∃ f, FillScratchAfter s c f ∧ exec (.vline x y len c) s = .next (State.completed
      { s with fillScratch := f } 4
      (vlineEvents s (s16 x) (s16 y) (s16 len) c))

/-- RECT draws its top, left, bottom and right sides in that order, each clamped and checked on its own
(R211; an off-screen run of length 1 under STREAM as notes/assumptions/19.md says). -/
def Obligations.RectDraws : Prop :=
  ∀ (x y w h c : Half) (s : State), Ready s →
    ∃ f, FillScratchAfter s c f ∧ exec (.rect x y w h c) s = .next (State.completed
      { s with fillScratch := f } 4
      (hlineEvents s (s16 x) (s16 y) (s16 w) c
        ++ vlineEvents s (s16 x) (s16 y) (s16 h) c
        ++ hlineEvents s (s16 x) (s16 y + s16 h - 1) (s16 w) c
        ++ vlineEvents s (s16 x + s16 w - 1) (s16 y) (s16 h) c))

/-- LINE draws its runs in the order of the walk, each as one fast run or one pixel (R215 to R218). -/
def Obligations.LineDraws : Prop :=
  ∀ (x0 y0 x1 y1 c : Half) (s : State), Ready s →
    ∃ f, FillScratchAfter s c f ∧ exec (.line x0 y0 x1 y1 c) s = .next (State.completed
      { s with fillScratch := f } 4
      ((lineRuns (s16 x0) (s16 y0) (s16 x1) (s16 y1)).flatMap
        (runEvents s (lineSetup (s16 x0) (s16 y0) (s16 x1) (s16 y1)).steep c)))

/-- The setup of a line takes its two endpoints, transposed when it is steep, in the order that makes the
major coordinate rise (R216), and its runs partition its dx + 1 pixels: none is empty, each starts
where the one before it ends and one minor step away, the first starts at the first endpoint and the
last ends at the other; with dy = 0 there is one run (R217 to R219). -/
def Obligations.LineRunsPartition : Prop :=
  ∀ x0 y0 x1 y1 : Int,
    let r := lineSetup x0 y0 x1 y1
    let runs := lineRuns x0 y0 x1 y1
    let p := if r.steep then (r.y0, r.x0) else (r.x0, r.y0)
    let q := if r.steep then (r.y1, r.x1) else (r.x1, r.y1)
    r.steep = decide ((x1 - x0).natAbs < (y1 - y0).natAbs) ∧
    ((p = (x0, y0) ∧ q = (x1, y1)) ∨ (p = (x1, y1) ∧ q = (x0, y0))) ∧
    r.x0 ≤ r.x1 ∧ r.dx = r.x1 - r.x0 ∧ r.dy = ((r.y1 - r.y0).natAbs : Int) ∧
    r.ystep = (if r.y0 < r.y1 then 1 else -1) ∧
    (∀ a ∈ runs, 0 < a.len) ∧ (runs.map LineRun.len).sum = r.dx + 1 ∧
    runs.IsChain (fun a b => b.start = a.start + a.len ∧ b.minor = a.minor + r.ystep) ∧
    (∃ a, runs.head? = some a ∧ a.start = r.x0 ∧ a.minor = r.y0) ∧
    (∃ b, runs.getLast? = some b ∧ b.start + b.len - 1 = r.x1 ∧ b.minor = r.y1) ∧
    (r.dy = 0 → runs = [⟨r.x0, r.y0, r.dx + 1⟩]) ∧
    (r.dx = r.dy → ∀ a ∈ runs, a.len = 1)

/-- Under SUPPRESS, PIXEL and a fast run of length 1 at the same place make the same trace and end
with the same code, whatever the transfers do (R205, R221). Under STREAM they differ off the screen:
PIXEL sends 2 bytes, and the run an empty data bracket, where the clamp leaves it no pixel and, with the
configuration as R221 has it, elsewhere too; as the pseudocode of R204 and R207 has it, it sends its
pixel there. That the configuration says which is the model's choice (notes/assumptions/19.md). -/
def Obligations.RunOfOneIsPixel : Prop :=
  (∀ (x y c : Half) (s t u v : State), s.cfg.windowPolicy = .suppress →
    exec (.pixel x y c) s = .next t → exec (.hline x y 1 c) s = .next u →
    exec (.vline x y 1 c) s = .next v →
    u.trace = t.trace ∧ u.last = t.last ∧ v.trace = t.trace ∧ v.last = t.last) ∧
  (∀ (x y c : Half) (s : State), Ready s → s.cfg.windowPolicy = .stream →
    onScreen s (s16 x) (s16 y) = false →
    let run (i : Instr) (transfers : List (List Byte)) : Prop :=
      ∃ f, FillScratchAfter s c f ∧ exec i s = .next
        (State.completed { s with fillScratch := f } 4 (dataEvents s.cfg transfers))
    exec (.pixel x y c) s =
      .next (s.completed 3 (dataEvents s.cfg [[c.extractLsb' 8 8, c.extractLsb' 0 8]])) ∧
    (s.cfg.offscreenRun = .emptyBracket ∨ s.width.toNat ≤ s16 x →
      run (.hline x y 1 c) []) ∧
    (s.cfg.offscreenRun = .emptyBracket ∨ s.height.toNat ≤ s16 y →
      run (.vline x y 1 c) []) ∧
    (s.cfg.offscreenRun = .streamsPixel → s16 x < s.width.toNat →
      run (.hline x y 1 c) [[c.extractLsb' 8 8, c.extractLsb' 0 8]]) ∧
    (s.cfg.offscreenRun = .streamsPixel → s16 y < s.height.toNat →
      run (.vline x y 1 c) [[c.extractLsb' 8 8, c.extractLsb' 0 8]]))

/-! ## The blit family (spec/42_blit.md) -/

/-- BLIT streams min(len, w*h*2) bytes of memory, unswapped, in chunks of 256 bytes; when its window
sends nothing it reads nothing (R240 to R243). -/
def Obligations.BlitStreams : Prop :=
  ∀ (addr len : Word) (x y w h : Half) (s : State), Ready s →
    let n := min len.toNat ((s16 w).toNat * (s16 h).toNat * 2)
    (validWindow s (s16 x) (s16 y) (s16 x + s16 w - 1) (s16 y + s16 h - 1) = true ∨
      s.cfg.windowPolicy = .stream → Readable s addr.toNat n) →
    exec (.blit addr len x y w h) s = .next (s.completed 5
      (streamEvents s (s16 x) (s16 y) (s16 x + s16 w - 1) (s16 y + s16 h - 1)
        (chunksOf 256 (s.mem.readBytes addr.toNat n))))

/-- A BLIT that runs past the end of resource memory sends the whole chunks before it, closes the
bracket and ends with RESOURCE_BOUNDS (R71, R240, R352, R354). -/
def Obligations.BlitOutOfBounds : Prop :=
  ∀ (addr len : Word) (x y w h : Half) (s : State), Ready s →
    let n := min len.toNat ((s16 w).toNat * (s16 h).toNat * 2)
    validWindow s (s16 x) (s16 y) (s16 x + s16 w - 1) (s16 y + s16 h - 1) = true →
    n ≠ 0 → s.cfg.resMemSize < addr.toNat + n →
    exec (.blit addr len x y w h) s = .next ((s.performs
      (windowEvents s.cfg (s16 x) (s16 y) (s16 x + s16 w - 1) (s16 y + s16 h - 1)
        ++ dataEvents s.cfg ((chunksOf 256 (s.mem.readBytes addr.toNat n)).take
            ((s.cfg.resMemSize - addr.toNat) / 256)))).ended 5 .resourceBounds)

/-! ## The glyph and bitmap family (spec/43_glyph_bitmap.md) -/

/-- Values packed most significant bit first from bit p on are read back in order, across byte boundaries
too, and the cursor ends after the last of them (R264). What BITPOS holds for an end that its 35 bits do
not, which the first clause covers too, is the model's choice (notes/assumptions/6.md). -/
def Obligations.BitReaderRoundTrip : Prop :=
  ∀ (k p : Nat) (vs : List Nat) (s : State), 1 ≤ k → k ≤ 8 →
    s.bitPos.toNat = p → s.bitOver = none →
    (∀ v ∈ vs, v < 2 ^ k) →
    (∀ i v, vs[i]? = some v → ∀ j < k,
      streamBit s.mem s.bitBase.toNat (p + i * k + j) = v.testBit (k - 1 - j)) →
    s.bitBase.toNat * 8 + p + vs.length * k ≤ s.cfg.resMemSize * 8 →
    readSamples k vs.length s = .ok vs (s.atBit (p + vs.length * k)) ∧
    (p + vs.length * k < 2 ^ 35 →
      readSamples k vs.length s =
        .ok vs { s with bitPos := BitVec.ofNat 35 (p + vs.length * k), bitOver := none })

/-- TEXT draws the glyph of every character in range that fits, advances over every one in range, and
goes on past the edge. The bytes it leaves in the scratch are not specified (R48, R262, R263, R270 to
R273). -/
def Obligations.TextDraws : Prop :=
  ∀ (font : Word) (w h first last : Byte) (str n : Word) (x y fg bg : Half) (s : State),
    let a : TextArgs := ⟨font.toNat, w.toNat, h.toNat, first.toNat, last.toNat, str.toNat, s16 y,
      fg, bg⟩
    let chs := s.mem.readBytes str.toNat n.toNat
    Ready s → glyphWidthOk w = true → TextReadable s a n.toNat →
    AllocUp s (chs.countP (inRange a)) →
    ∃ sc, exec (.text font w h first last str n x y fg bg) s = .next (State.completed
      { s with allocDraws := allocLeft s (chs.countP (inRange a)), scratch := sc } 7
      (textEvents s a chs (s16 x)))

/-- WRITE draws its mapped glyphs until the first that does not fit, reads nothing behind it, and leaves
their total width in RESULT; BITBASE and BITPOS are unspecified after it, free values of the model
(notes/assumptions/5.md), and so are the bytes it leaves in the scratch (R43, R48, R279 to R286). -/
def Obligations.WriteDraws : Prop :=
  ∀ (k ow : Byte) (map mlen widths offsets bits : Word) (hgt : Byte) (str n : Word)
    (x y fg bg : Half) (s : State),
    let a : WriteArgs := ⟨k.toNat, ow.toNat, map.toNat, mlen.toNat, widths.toNat, offsets.toNat,
      bits, hgt.toNat, str.toNat, s16 y, fg, bg⟩
    let plan := writePlan s a (s.mem.readBytes str.toNat n.toNat) (s16 x)
    Ready s → sampleWidthOk k = true → offsetWidthOk ow = true →
    WriteReadable s a n.toNat 0 (s16 x) → AllocUp s plan.2.2 →
    ∃ base pos sc, exec (.write k ow map mlen widths offsets bits hgt str n x y fg bg) s =
      .next (State.completed
        { s with
          allocDraws := allocLeft s plan.2.2, result := BitVec.ofNat 32 plan.2.1, scratch := sc
          bitBase := base, bitPos := pos, freeCount := s.freeCount + 1 } 11 plan.1)

/-- WRITE_LEN leaves the sum of the widths of the mapped characters in RESULT and emits nothing
(R279, R290). -/
def Obligations.WriteLenMeasures : Prop :=
  ∀ (map mlen widths str n : Word) (s : State),
    let chs := s.mem.readBytes str.toNat n.toNat
    configLegal s.cfg = true → Readable s str.toNat n.toNat →
    (∀ ch ∈ chs, LookupReadable s map.toNat mlen.toNat ch ∧
      ∀ j, mapIndex s.mem map.toNat mlen.toNat ch = some j → Readable s (widths.toNat + j) 1) →
    exec (.writeLen map mlen widths str n) s = .next (State.completed
      { s with
        result := BitVec.ofNat 32 (measuredWidth s.mem map.toNat mlen.toNat widths.toNat chs) }
      6 [])

/-- BITMAP draws the frame's samples through the palette if the right edge fits, and nothing otherwise;
where a sample or an entry cannot be read, or an index is not below `plen`, it ends with
RESOURCE_BOUNDS before any event, drawn or not. BITBASE, BITPOS and the bytes left in the scratch are
unspecified after it (R43, R48, R261 to R263, R300 to R305, R352, R354). -/
def Obligations.BitmapDraws : Prop :=
  ∀ (k : Byte) (bits pal plen : Word) (w h fcount fidx x y : Half) (s : State),
    let npx := (s16 w).toNat * (s16 h).toNat
    let start := frameStart fcount.toNat fidx.toNat npx k.toNat
    sampleWidthOk k = true → (fcount = 0 ∨ fidx.toNat < fcount.toNat) →
    ScratchFor s (npx * 2) → AllocUp s 1 →
    (Ready s →
      BitmapReadable s bits.toNat pal.toNat plen.toNat k.toNat start npx →
      ∃ base pos sc, exec (.bitmap k bits pal plen w h fcount fidx x y) s = .next (State.completed
        { s with
          allocDraws := allocLeft s 1, scratch := sc, bitBase := base, bitPos := pos
          freeCount := s.freeCount + 1 } 7
        (if s16 x + s16 w - 1 < s.width.toNat then
          blitEvents s (s16 x) (s16 y) (s16 w) (s16 h)
            (bitmapPixels s.mem bits.toNat pal.toNat k.toNat start npx)
        else []))) ∧
    (configLegal s.cfg = true →
      ¬ BitmapReadable s bits.toNat pal.toNat plen.toNat k.toNat start npx →
      ∃ base pos sc, exec (.bitmap k bits pal plen w h fcount fidx x y) s = .next (State.ended
        { s with allocDraws := allocLeft s 1, scratch := sc, bitBase := base, bitPos := pos } 7
        .resourceBounds))

/-- RANGE_ERROR is the frame check of BITMAP and nothing else: it comes first and leaves no effect
(R301, R353). -/
def Obligations.RangeErrorIsFrameCheck : Prop :=
  (∀ (k : Byte) (bits pal plen : Word) (w h fcount fidx x y : Half) (s : State),
    configLegal s.cfg = true → sampleWidthOk k = true → fcount ≠ 0 →
    fcount.toNat ≤ fidx.toNat →
    exec (.bitmap k bits pal plen w h fcount fidx x y) s = .next (s.ended 7 .rangeError)) ∧
  (∀ (i : Instr) (s t : State), exec i s = .next t → t.last = .rangeError →
    ∃ k bits pal plen w h, ∃ fcount fidx : Half, ∃ x y,
      i = .bitmap k bits pal plen w h fcount fidx x y ∧ fcount ≠ 0 ∧
        fcount.toNat ≤ fidx.toNat)

/-- RESOURCE_ERROR: an acquisition of more than the resident capacity, or one whose draw fails, ends
BITMAP, TEXT at its first glyph and WRITE at its first mapped one before any event; TEXT at a later
glyph, whose draw fails, after the events of the glyphs before it (R262, R279, R352, R356). -/
def Obligations.ResourceErrorAtAcquisition : Prop :=
  (∀ (k : Byte) (bits pal plen : Word) (w h fcount fidx x y : Half) (s : State),
    configLegal s.cfg = true → sampleWidthOk k = true →
    (fcount = 0 ∨ fidx.toNat < fcount.toNat) →
    (∀ cap, s.cfg.scratch = .resident cap →
      cap < ((s16 w).toNat * (s16 h).toNat * 2 : Nat) →
      exec (.bitmap k bits pal plen w h fcount fidx x y) s =
        .next (s.ended 7 .resourceError)) ∧
    (∀ rest, s.cfg.scratch = .transient → s.allocDraws = false :: rest →
      exec (.bitmap k bits pal plen w h fcount fidx x y) s =
        .next (State.ended { s with allocDraws := rest } 7 .resourceError))) ∧
  (∀ (font : Word) (w h first last : Byte) (str n : Word) (x y fg bg : Half) (s : State) (m : Nat),
    let a : TextArgs := ⟨font.toNat, w.toNat, h.toNat, first.toNat, last.toNat, str.toNat, s16 y,
      fg, bg⟩
    let before := s.mem.readBytes str.toNat m
    configLegal s.cfg = true → glyphWidthOk w = true → m < n.toNat →
    Readable s str.toNat (m + 1) → inRange a (s.mem.read (str.toNat + m)) = true →
    (∀ cap, s.cfg.scratch = .resident cap → cap < (w.toNat * h.toNat * 2 : Nat) →
      before.countP (inRange a) = 0 →
      exec (.text font w h first last str n x y fg bg) s =
        .next (s.ended 7 .resourceError)) ∧
    (∀ rest, s.cfg.scratch = .transient → TransportUp s →
      (∀ ch ∈ before, inRange a ch = true →
        Readable s (glyphAddress a ch.toNat) (a.h * (a.w / 8))) →
      s.allocDraws = List.replicate (before.countP (inRange a)) true ++ false :: rest →
      ∃ sc, exec (.text font w h first last str n x y fg bg) s = .next (State.ended
        (State.performs { s with allocDraws := rest, scratch := sc }
          (textEvents s a before (s16 x))) 7 .resourceError))) ∧
  (∀ (k ow : Byte) (map mlen widths offsets bits : Word) (hgt : Byte) (str n : Word)
    (x y fg bg : Half) (s : State) (m j : Nat),
    let size := glyphWidth s.mem widths.toNat j * hgt.toNat * 2
    configLegal s.cfg = true → sampleWidthOk k = true → offsetWidthOk ow = true → m < n.toNat →
    Readable s str.toNat (m + 1) →
    (∀ i ≤ m, LookupReadable s map.toNat mlen.toNat (s.mem.read (str.toNat + i))) →
    (∀ i < m, mapIndex s.mem map.toNat mlen.toNat (s.mem.read (str.toNat + i)) = none) →
    mapIndex s.mem map.toNat mlen.toNat (s.mem.read (str.toNat + m)) = some j →
    Readable s (widths.toNat + j) 1 → Readable s (offsets.toNat + j * ow.toNat) ow.toNat →
    (∀ cap, s.cfg.scratch = .resident cap → cap < (size : Nat) →
      exec (.write k ow map mlen widths offsets bits hgt str n x y fg bg) s =
        .next (s.ended 11 .resourceError)) ∧
    (∀ rest, s.cfg.scratch = .transient → s.allocDraws = false :: rest →
      exec (.write k ow map mlen widths offsets bits hgt str n x y fg bg) s =
        .next (State.ended { s with allocDraws := rest } 11 .resourceError)))

/-! ## The control family (spec/44_control.md) -/

/-- HARD_RESET pulses RST with its two delays, or does nothing without the pin; it needs no transport
and changes no register (R310, R311). -/
def Obligations.HardResetPulses : Prop :=
  ∀ s : State, configLegal s.cfg = true →
    exec .hardReset s = .next (s.completed 1 (hardResetEvents s.cfg))

/-- SOFT_RESET sends the software-reset command and waits (R312). -/
def Obligations.SoftResetSends : Prop :=
  ∀ s : State, Ready s → exec .softReset s = .next (s.completed 1 (softResetEvents s.cfg))

/-- SLEEP sends sleep-in or sleep-out and keeps no record of it (R314, R315). -/
def Obligations.SleepSends : Prop :=
  ∀ (en : Bool) (s : State), Ready s →
    exec (.sleep en) s = .next (s.completed 1
      (sendEvents s.cfg (some (if en then s.cfg.cmdSlpin else s.cfg.cmdSlpout)) []))

/-- INVERT sends inversion-on or inversion-off and keeps no record of it (R316). -/
def Obligations.InvertSends : Prop :=
  ∀ (en : Bool) (s : State), Ready s →
    exec (.invert en) s = .next (s.completed 1
      (sendEvents s.cfg (some (if en then s.cfg.cmdInvon else s.cfg.cmdInvoff)) []))

/-- INIT makes the events of the power-on sequence in order, under the rotation it holds; in a state
the block can reach it leaves ROT, WIDTH and HEIGHT as they are (R318, R319). -/
def Obligations.InitPowersOn : Prop :=
  (∀ s : State, Ready s →
    ∃ f, FillScratchAfter s 0 f ∧ exec .init s = .next (State.completed
      { s.rotated s.rot.toNat with fillScratch := f } 1 (initEvents (s.rotated s.rot.toNat)))) ∧
  (∀ s t : State, s.Inv → exec .init s = .next t →
    t.rot = s.rot ∧ t.width = s.width ∧ t.height = s.height)

/-- VSCROLL_DEFINE sends its three values unchecked, big-endian (R78, R320). -/
def Obligations.VscrollDefineSends : Prop :=
  ∀ (tfa vsa bfa : Half) (s : State), Ready s →
    exec (.vscrollDefine tfa vsa bfa) s = .next (s.completed 3
      (sendEvents s.cfg (some s.cfg.cmdVscrdef) (be16 tfa ++ be16 vsa ++ be16 bfa)))

/-- VSCROLL_SET sends its value unchecked, big-endian (R78, R321). -/
def Obligations.VscrollSetSends : Prop :=
  ∀ (vsp : Half) (s : State), Ready s →
    exec (.vscrollSet vsp) s = .next (s.completed 2
      (sendEvents s.cfg (some s.cfg.cmdVscrsadd) (be16 vsp)))

/-- WIDTH and HEIGHT leave the logical width and height, zero-extended, in RESULT and emit nothing
(R330, R331). -/
def Obligations.GeometryQueries : Prop :=
  ∀ s : State, configLegal s.cfg = true →
    exec .width s = .next (State.completed { s with result := s.width.setWidth 32 } 1 []) ∧
    exec .height s = .next (State.completed { s with result := s.height.setWidth 32 } 1 [])

/-! ## What the panel shows (spec/20_memory.md R80 to R84) -/

/-- What FILL_RECT draws on the reference panel, whatever the panel held: every pixel of a rectangle on
the screen takes the colour and every other pixel stays. The premise on the command bytes is met by the
defaults (R80 to R84, R198). Before INIT, after a panel reset, after a SEND behind
the block and while the panel sleeps this is the model's panel alone (notes/assumptions/26.md, 28.md,
29.md). -/
def Obligations.PanelShowsFillRect : Prop :=
  ∀ (x y w h c : Half) (s t : State) (p : Panel) (es : List Event) (arrived : List Nat),
    Ready s → s.cfg.cmdCaset ≠ s.cfg.cmdRamwr → s.cfg.cmdPaset ≠ s.cfg.cmdRamwr →
    s.cfg.cmdCaset ≠ s.cfg.cmdPaset →
    0 ≤ s16 x → 0 ≤ s16 y → 0 < s16 w → 0 < s16 h →
    s16 x + s16 w ≤ s.width.toNat → s16 y + s16 h ≤ s.height.toNat →
    exec (.fillRect x y w h c) s = .next t → t.trace = s.trace ++ es →
    let q := panelSees s.cfg (.fillRect x y w h c) arrived es p
    ∀ a b : Nat,
      ((s16 x ≤ a ∧ a < s16 x + s16 w ∧ s16 y ≤ b ∧ b < s16 y + s16 h) →
        gramRead q.gram a b = some c) ∧
      (¬ (s16 x ≤ a ∧ a < s16 x + s16 w ∧ s16 y ≤ b ∧ b < s16 y + s16 h) →
        gramRead q.gram a b = gramRead p.gram a b)

end
end

