-- ==== Sys2Proof/Laws/Memory.lean ====
section
/-! SUPPORT. The laws of resource memory: a read after a write, and the canonical form that every
operation keeps (spec/20_memory.md R70, R71, R76). -/

namespace Sys2Proof.Machine

/-- The canonical form, in the two facts it stands for. -/
theorem Memory_wf_iff (m : Memory) :
    m.wf = true ↔ m.Pairwise (fun p q => p.1 < q.1) ∧ ∀ p ∈ m, p.2 ≠ unlistedByte := by
  simp [Memory.wf]

theorem Memory_wf_nil : Memory.wf [] = true := by decide

theorem Memory_wf_cons (k : Nat) (v : Byte) (m : Memory) :
    Memory.wf ((k, v) :: m) = true ↔
      (∀ p ∈ m, k < p.1) ∧ v ≠ unlistedByte ∧ Memory.wf m = true := by
  rw [Memory_wf_iff, Memory_wf_iff, List.pairwise_cons]
  simp only [List.mem_cons, forall_eq_or_imp]
  tauto

/-- An address below every listed one is unlisted. -/
theorem Memory_read_below (m : Memory) (a : Nat) (h : ∀ p ∈ m, a < p.1) :
    m.read a = unlistedByte := by
  induction m with
  | nil => rfl
  | cons p m ih =>
    have hp := h p (by simp)
    rw [Memory.read, if_neg (by omega), ih fun q hq => h q (by simp [hq])]

/-- A read after a write to the same address gives the value written. -/
theorem Memory_read_write_same (m : Memory) (a : Nat) (b : Byte) (h : m.wf = true) :
    (m.write a b).read a = b := by
  induction m with
  | nil =>
    by_cases hb : b = unlistedByte
    · simp [Memory.write, Memory.read, hb]
    · simp [Memory.write, Memory.read, hb]
  | cons p m ih =>
    obtain ⟨k, v⟩ := p
    obtain ⟨hlt, -, hm⟩ := (Memory_wf_cons k v m).1 h
    rcases Nat.lt_trichotomy a k with hak | hak | hak
    · have hbelow : Memory.read ((k, v) :: m) a = unlistedByte := by
        apply Memory_read_below
        intro p hp
        rcases List.mem_cons.1 hp with rfl | hp
        · exact hak
        · exact Nat.lt_trans hak (hlt p hp)
      by_cases hb : b = unlistedByte
      · rw [Memory.write, if_pos hak, if_pos hb, hbelow, hb]
      · rw [Memory.write, if_pos hak, if_neg hb, Memory.read, if_pos rfl]
    · subst hak
      by_cases hb : b = unlistedByte
      · rw [Memory.write, if_neg (Nat.lt_irrefl a), if_pos rfl, if_pos hb, hb]
        exact Memory_read_below m a hlt
      · rw [Memory.write, if_neg (Nat.lt_irrefl a), if_pos rfl, if_neg hb, Memory.read, if_pos rfl]
    · rw [Memory.write, if_neg (by omega), if_neg (by omega), Memory.read, if_neg (by omega), ih hm]

/-- A write leaves every other address alone. -/
theorem Memory_read_write_other (m : Memory) (a a' : Nat) (b : Byte) (ha : a' ≠ a) :
    (m.write a b).read a' = m.read a' := by
  induction m with
  | nil =>
    by_cases hb : b = unlistedByte
    · simp [Memory.write, hb]
    · simp [Memory.write, Memory.read, hb, ha]
  | cons p m ih =>
    obtain ⟨k, v⟩ := p
    rw [Memory.write]
    split
    · split
      · rfl
      · rw [Memory.read, if_neg ha]
    · split
      · rename_i hak
        subst hak
        split
        · rw [Memory.read, if_neg ha]
        · rw [Memory.read, Memory.read, if_neg ha, if_neg ha]
      · rw [Memory.read, Memory.read, ih]

/-- A write lists no address that was neither listed nor written. -/
theorem Memory_write_addresses (m : Memory) (a : Nat) (b : Byte) (p : Host.Cell)
    (hp : p ∈ m.write a b) : p ∈ m ∨ p = (a, b) := by
  induction m with
  | nil =>
    rw [Memory.write] at hp
    split at hp
    · cases hp
    · exact .inr (by simpa using hp)
  | cons q m ih =>
    obtain ⟨k, v⟩ := q
    rw [Memory.write] at hp
    split at hp
    · split at hp
      · exact .inl hp
      · rcases List.mem_cons.1 hp with rfl | hp
        · exact .inr rfl
        · exact .inl hp
    · split at hp
      · split at hp
        · exact .inl (List.mem_cons_of_mem _ hp)
        · rcases List.mem_cons.1 hp with rfl | hp
          · exact .inr rfl
          · exact .inl (List.mem_cons_of_mem _ hp)
      · rcases List.mem_cons.1 hp with rfl | hp
        · exact .inl List.mem_cons_self
        · rcases ih hp with h | h
          · exact .inl (List.mem_cons_of_mem _ h)
          · exact .inr h

/-- A write keeps the canonical form. -/
theorem Memory_write_wf (m : Memory) (a : Nat) (b : Byte) (h : m.wf = true) :
    (m.write a b).wf = true := by
  induction m with
  | nil =>
    rw [Memory.write]
    split
    · exact Memory_wf_nil
    · exact (Memory_wf_cons a b []).2 ⟨by simp, ‹_›, Memory_wf_nil⟩
  | cons q m ih =>
    obtain ⟨k, v⟩ := q
    obtain ⟨hlt, hv, hm⟩ := (Memory_wf_cons k v m).1 h
    rw [Memory.write]
    split
    · split
      · exact h
      · refine (Memory_wf_cons a b _).2 ⟨?_, ‹_›, h⟩
        intro p hp
        rcases List.mem_cons.1 hp with rfl | hp
        · assumption
        · exact Nat.lt_trans ‹_› (hlt p hp)
    · split
      · rename_i hak
        subst hak
        split
        · exact hm
        · exact (Memory_wf_cons a b m).2 ⟨hlt, ‹_›, hm⟩
      · refine (Memory_wf_cons k v _).2 ⟨?_, hv, ih hm⟩
        intro p hp
        rcases Memory_write_addresses m a b p hp with hp | rfl
        · exact hlt p hp
        · show k < a
          omega

/-- n bytes are read. -/
@[simp] theorem Memory_readBytes_length (m : Memory) (addr n : Nat) :
    (m.readBytes addr n).length = n := by
  simp [Memory.readBytes]

@[simp] theorem Memory_readBytes_zero (m : Memory) (addr : Nat) : m.readBytes addr 0 = [] := rfl

/-- The first byte, then the rest. -/
theorem Memory_readBytes_succ (m : Memory) (addr n : Nat) :
    m.readBytes addr (n + 1) = m.read addr :: m.readBytes (addr + 1) n := by
  simp only [Memory.readBytes, List.range_succ_eq_map, List.map_cons, List.map_map, Nat.add_zero]
  congr 1
  apply List.map_congr_left
  intro i _
  simp only [Function.comp, Nat.succ_eq_add_one]
  congr 1
  omega

end Sys2Proof.Machine
end

