-- ==== Sys2Proof/Laws/Chunks.lean ====
section
/-! SUPPORT. The laws of byte lists cut into transfers: the full chunks and the remainder of a chunked
stream, and the pixels of a fill (spec/41_fill_raster.md R190, R191, spec/42_blit.md R240). -/

namespace Sys2Proof.Machine

theorem ceilDiv_eq (a k : Nat) (hk : 0 < k) :
    ceilDiv a k = a / k + if a % k = 0 then 0 else 1 := by
  unfold ceilDiv
  have h := Nat.div_add_mod a k
  have hm := Nat.mod_lt a hk
  generalize hq : a / k = q at *
  generalize hr : a % k = r at *
  subst h
  split
  · rename_i h0
    rw [Nat.div_eq_iff hk]
    constructor
    · simp only [Nat.add_zero]; rw [Nat.mul_comm]; omega
    · simp only [Nat.add_zero]; rw [Nat.mul_comm]; omega
  · rename_i h0
    rw [Nat.div_eq_iff hk, Nat.add_mul, Nat.mul_comm q k]
    constructor <;> omega

/-- The full chunks, then the remainder if there is one. -/
theorem chunksOf_eq (k : Nat) (hk : 0 < k) (bytes : List Byte) :
    chunksOf k bytes =
      (List.range (bytes.length / k)).map (fun i => (bytes.drop (i * k)).take k)
        ++ (if bytes.length % k = 0 then [] else [bytes.drop (bytes.length / k * k)]) := by
  unfold chunksOf
  rw [ceilDiv_eq _ _ hk]
  split
  · simp
  · rw [List.range_succ, List.map_append]
    congr 1
    simp only [List.map_cons, List.map_nil, List.cons.injEq, and_true]
    apply List.take_of_length_le
    rw [List.length_drop]
    have h := Nat.div_add_mod bytes.length k
    have hm := Nat.mod_lt bytes.length hk
    rw [Nat.mul_comm] at h
    omega

@[simp] theorem be16_length (c : Half) : (be16 c).length = 2 := rfl

theorem pixels_succ (c : Half) (n : Nat) : pixels c (n + 1) = be16 c ++ pixels c n := by
  simp [pixels, List.replicate_succ]

@[simp] theorem pixels_length (c : Half) (n : Nat) : (pixels c n).length = 2 * n := by
  induction n with
  | zero => rfl
  | succ n ih => rw [pixels_succ, List.length_append, ih, be16_length]; omega

theorem pixels_drop (c : Half) (n a : Nat) : (pixels c n).drop (2 * a) = pixels c (n - a) := by
  induction a generalizing n with
  | zero => simp
  | succ a ih =>
    cases n with
    | zero => simp [pixels]
    | succ n =>
      rw [pixels_succ, Nat.add_sub_add_right, ← ih n, List.drop_append]
      simp only [be16_length]
      rw [List.drop_of_length_le (by simp), List.nil_append]
      congr 1

theorem pixels_take (c : Half) (n a : Nat) : (pixels c n).take (2 * a) = pixels c (min a n) := by
  induction a generalizing n with
  | zero => simp [pixels]
  | succ a ih =>
    cases n with
    | zero => simp [pixels]
    | succ n =>
      have : 2 * (a + 1) = 2 * a + 2 := by omega
      rw [this, pixels_succ, Nat.add_min_add_right, pixels_succ, ← ih n, List.take_append]
      simp only [be16_length, Nat.add_sub_cancel]
      rw [List.take_of_length_le (by simp)]

/-- The transfers of a fill: full chunks of 128 pixels, then the remainder (R190, R191). -/
theorem fillTransfers_eq (c : Half) (n : Nat) :
    fillTransfers c n = List.replicate (n / 128) (pixels c 128)
      ++ (if n % 128 = 0 then [] else [pixels c (n % 128)]) := by
  have hd : 2 * n / 256 = n / 128 := by omega
  have hm : 2 * n % 256 = 2 * (n % 128) := by omega
  rw [fillTransfers, chunksOf_eq _ (by omega), pixels_length, hd, hm]
  congr 1
  · rw [List.eq_replicate_iff]
    refine ⟨by simp, ?_⟩
    intro b hb
    obtain ⟨i, hi, rfl⟩ := List.mem_map.1 hb
    have hi := List.mem_range.1 hi
    have h1 : i * 256 = 2 * (128 * i) := by omega
    rw [h1, pixels_drop, show (256 : Nat) = 2 * 128 from rfl, pixels_take]
    congr 1
    omega
  · by_cases h0 : n % 128 = 0
    · rw [if_pos (by omega), if_pos h0]
    · rw [if_neg (by omega), if_neg h0]
      have h1 : n / 128 * 256 = 2 * (128 * (n / 128)) := by omega
      rw [h1, pixels_drop]
      congr 2
      omega

/-- A part of the bytes read. -/
theorem Memory_readBytes_drop_take (m : Memory) (addr n a k : Nat) (h : a + k ≤ n) :
    ((m.readBytes addr n).drop a).take k = m.readBytes (addr + a) k := by
  unfold Memory.readBytes
  apply List.ext_getElem
  · simp; omega
  · intro i h1 h2
    simp only [List.getElem_take, List.getElem_drop, List.getElem_map, List.getElem_range]
    congr 1
    omega

theorem Memory_readBytes_drop (m : Memory) (addr n a : Nat) :
    (m.readBytes addr n).drop a = m.readBytes (addr + a) (n - a) := by
  unfold Memory.readBytes
  apply List.ext_getElem
  · simp
  · intro i h1 h2
    simp only [List.getElem_drop, List.getElem_map, List.getElem_range]
    congr 1
    omega

/-- Two reads side by side are one read. -/
theorem Memory_readBytes_append (m : Memory) (addr a b : Nat) :
    m.readBytes addr (a + b) = m.readBytes addr a ++ m.readBytes (addr + a) b := by
  unfold Memory.readBytes
  rw [List.range_add, List.map_append, List.map_map]
  congr 1
  apply List.map_congr_left
  intro i _
  simp only [Function.comp]
  congr 1
  omega

end Sys2Proof.Machine
end

