-- ==== Sys2Proof/Laws/State.lean ====
section
/-! SUPPORT. What each update of the state does to each field: one lemma per field and update, so that
no later proof unfolds a record update. -/

namespace Sys2Proof.Machine

/-! ## `State.emit` -/

@[simp] theorem State_emit_cfg (s : State) (e : Event) : (s.emit e).cfg = s.cfg := by
  cases e <;> rfl
@[simp] theorem State_emit_rot (s : State) (e : Event) : (s.emit e).rot = s.rot := by
  cases e <;> rfl
@[simp] theorem State_emit_width (s : State) (e : Event) : (s.emit e).width = s.width := by
  cases e <;> rfl
@[simp] theorem State_emit_height (s : State) (e : Event) : (s.emit e).height = s.height := by
  cases e <;> rfl
@[simp] theorem State_emit_result (s : State) (e : Event) : (s.emit e).result = s.result := by
  cases e <;> rfl
@[simp] theorem State_emit_busy (s : State) (e : Event) : (s.emit e).busy = s.busy := by
  cases e <;> rfl
@[simp] theorem State_emit_err (s : State) (e : Event) : (s.emit e).err = s.err := by
  cases e <;> rfl
@[simp] theorem State_emit_last (s : State) (e : Event) : (s.emit e).last = s.last := by
  cases e <;> rfl
@[simp] theorem State_emit_pending (s : State) (e : Event) : (s.emit e).pending = s.pending := by
  cases e <;> rfl
@[simp] theorem State_emit_cp (s : State) (e : Event) : (s.emit e).cp = s.cp := by
  cases e <;> rfl
@[simp] theorem State_emit_bitBase (s : State) (e : Event) : (s.emit e).bitBase = s.bitBase := by
  cases e <;> rfl
@[simp] theorem State_emit_bitPos (s : State) (e : Event) : (s.emit e).bitPos = s.bitPos := by
  cases e <;> rfl
@[simp] theorem State_emit_bitOver (s : State) (e : Event) : (s.emit e).bitOver = s.bitOver := by
  cases e <;> rfl
@[simp] theorem State_emit_resetHeld (s : State) (e : Event) :
    (s.emit e).resetHeld = s.resetHeld := by
  cases e <;> rfl
@[simp] theorem State_emit_line (s : State) (e : Event) : (s.emit e).line = s.line := by
  cases e <;> rfl
@[simp] theorem State_emit_fillScratch (s : State) (e : Event) :
    (s.emit e).fillScratch = s.fillScratch := by
  cases e <;> rfl
@[simp] theorem State_emit_scratch (s : State) (e : Event) : (s.emit e).scratch = s.scratch := by
  cases e <;> rfl
@[simp] theorem State_emit_scratchHeld (s : State) (e : Event) :
    (s.emit e).scratchHeld = s.scratchHeld := by
  cases e <;> rfl
@[simp] theorem State_emit_mem (s : State) (e : Event) : (s.emit e).mem = s.mem := by
  cases e <;> rfl
@[simp] theorem State_emit_xferDraws (s : State) (e : Event) :
    (s.emit e).xferDraws = s.xferDraws := by
  cases e <;> rfl
@[simp] theorem State_emit_allocDraws (s : State) (e : Event) :
    (s.emit e).allocDraws = s.allocDraws := by
  cases e <;> rfl
@[simp] theorem State_emit_freeCount (s : State) (e : Event) :
    (s.emit e).freeCount = s.freeCount := by
  cases e <;> rfl
@[simp] theorem State_emit_inbox (s : State) (e : Event) : (s.emit e).inbox = s.inbox := by
  cases e <;> rfl
@[simp] theorem State_emit_readData (s : State) (e : Event) : (s.emit e).readData = s.readData := by
  cases e <;> rfl
@[simp] theorem State_emit_trace (s : State) (e : Event) : (s.emit e).trace = s.trace ++ [e] := by
  cases e <;> rfl
@[simp] theorem State_emit_levels (s : State) (e : Event) :
    (s.emit e).levels = levelAfter s.levels e := by
  cases e <;> rfl

/-! ## `State.performs` -/

@[simp] theorem State_performs_cfg (s : State) (es : List Event) :
    (s.performs es).cfg = s.cfg := rfl
@[simp] theorem State_performs_rot (s : State) (es : List Event) :
    (s.performs es).rot = s.rot := rfl
@[simp] theorem State_performs_width (s : State) (es : List Event) :
    (s.performs es).width = s.width := rfl
@[simp] theorem State_performs_height (s : State) (es : List Event) :
    (s.performs es).height = s.height := rfl
@[simp] theorem State_performs_result (s : State) (es : List Event) :
    (s.performs es).result = s.result := rfl
@[simp] theorem State_performs_busy (s : State) (es : List Event) :
    (s.performs es).busy = s.busy := rfl
@[simp] theorem State_performs_err (s : State) (es : List Event) :
    (s.performs es).err = s.err := rfl
@[simp] theorem State_performs_last (s : State) (es : List Event) :
    (s.performs es).last = s.last := rfl
@[simp] theorem State_performs_pending (s : State) (es : List Event) :
    (s.performs es).pending = s.pending := rfl
@[simp] theorem State_performs_cp (s : State) (es : List Event) : (s.performs es).cp = s.cp := rfl
@[simp] theorem State_performs_bitBase (s : State) (es : List Event) :
    (s.performs es).bitBase = s.bitBase := rfl
@[simp] theorem State_performs_bitPos (s : State) (es : List Event) :
    (s.performs es).bitPos = s.bitPos := rfl
@[simp] theorem State_performs_bitOver (s : State) (es : List Event) :
    (s.performs es).bitOver = s.bitOver := rfl
@[simp] theorem State_performs_resetHeld (s : State) (es : List Event) :
    (s.performs es).resetHeld = s.resetHeld := rfl
@[simp] theorem State_performs_line (s : State) (es : List Event) :
    (s.performs es).line = s.line := rfl
@[simp] theorem State_performs_fillScratch (s : State) (es : List Event) :
    (s.performs es).fillScratch = s.fillScratch := rfl
@[simp] theorem State_performs_scratch (s : State) (es : List Event) :
    (s.performs es).scratch = s.scratch := rfl
@[simp] theorem State_performs_scratchHeld (s : State) (es : List Event) :
    (s.performs es).scratchHeld = s.scratchHeld := rfl
@[simp] theorem State_performs_mem (s : State) (es : List Event) :
    (s.performs es).mem = s.mem := rfl
@[simp] theorem State_performs_allocDraws (s : State) (es : List Event) :
    (s.performs es).allocDraws = s.allocDraws := rfl
@[simp] theorem State_performs_freeCount (s : State) (es : List Event) :
    (s.performs es).freeCount = s.freeCount := rfl
@[simp] theorem State_performs_inbox (s : State) (es : List Event) :
    (s.performs es).inbox = s.inbox := rfl
@[simp] theorem State_performs_readData (s : State) (es : List Event) :
    (s.performs es).readData = s.readData := rfl
@[simp] theorem State_performs_trace (s : State) (es : List Event) :
    (s.performs es).trace = s.trace ++ es := rfl
@[simp] theorem State_performs_xferDraws (s : State) (es : List Event) :
    (s.performs es).xferDraws = s.xferDraws.drop (xferCount es) := rfl
@[simp] theorem State_performs_levels (s : State) (es : List Event) :
    (s.performs es).levels = es.foldl levelAfter s.levels := rfl

/-! ## `State.ended` -/

@[simp] theorem State_ended_cfg (s : State) (len : Nat) (code : Code) :
    (s.ended len code).cfg = s.cfg := rfl
@[simp] theorem State_ended_rot (s : State) (len : Nat) (code : Code) :
    (s.ended len code).rot = s.rot := rfl
@[simp] theorem State_ended_width (s : State) (len : Nat) (code : Code) :
    (s.ended len code).width = s.width := rfl
@[simp] theorem State_ended_height (s : State) (len : Nat) (code : Code) :
    (s.ended len code).height = s.height := rfl
@[simp] theorem State_ended_result (s : State) (len : Nat) (code : Code) :
    (s.ended len code).result = s.result := rfl
@[simp] theorem State_ended_pending (s : State) (len : Nat) (code : Code) :
    (s.ended len code).pending = s.pending := rfl
@[simp] theorem State_ended_bitBase (s : State) (len : Nat) (code : Code) :
    (s.ended len code).bitBase = s.bitBase := rfl
@[simp] theorem State_ended_bitPos (s : State) (len : Nat) (code : Code) :
    (s.ended len code).bitPos = s.bitPos := rfl
@[simp] theorem State_ended_resetHeld (s : State) (len : Nat) (code : Code) :
    (s.ended len code).resetHeld = s.resetHeld := rfl
@[simp] theorem State_ended_cs (s : State) (len : Nat) (code : Code) :
    (s.ended len code).cs = s.cs := rfl
@[simp] theorem State_ended_dc (s : State) (len : Nat) (code : Code) :
    (s.ended len code).dc = s.dc := rfl
@[simp] theorem State_ended_rst (s : State) (len : Nat) (code : Code) :
    (s.ended len code).rst = s.rst := rfl
@[simp] theorem State_ended_bl (s : State) (len : Nat) (code : Code) :
    (s.ended len code).bl = s.bl := rfl
@[simp] theorem State_ended_trace (s : State) (len : Nat) (code : Code) :
    (s.ended len code).trace = s.trace := rfl
@[simp] theorem State_ended_mem (s : State) (len : Nat) (code : Code) :
    (s.ended len code).mem = s.mem := rfl
@[simp] theorem State_ended_xferDraws (s : State) (len : Nat) (code : Code) :
    (s.ended len code).xferDraws = s.xferDraws := rfl
@[simp] theorem State_ended_allocDraws (s : State) (len : Nat) (code : Code) :
    (s.ended len code).allocDraws = s.allocDraws := rfl
@[simp] theorem State_ended_freeCount (s : State) (len : Nat) (code : Code) :
    (s.ended len code).freeCount = s.freeCount := rfl
@[simp] theorem State_ended_inbox (s : State) (len : Nat) (code : Code) :
    (s.ended len code).inbox = s.inbox := rfl
@[simp] theorem State_ended_readData (s : State) (len : Nat) (code : Code) :
    (s.ended len code).readData = s.readData := rfl
@[simp] theorem State_ended_cp (s : State) (len : Nat) (code : Code) :
    (s.ended len code).cp = s.cp + len := rfl
@[simp] theorem State_ended_line (s : State) (len : Nat) (code : Code) :
    (s.ended len code).line = none := rfl
@[simp] theorem State_ended_fillScratch (s : State) (len : Nat) (code : Code) :
    (s.ended len code).fillScratch = s.fillScratch := rfl
@[simp] theorem State_ended_scratch (s : State) (len : Nat) (code : Code) :
    (s.ended len code).scratch = s.scratch := rfl
@[simp] theorem State_ended_scratchHeld (s : State) (len : Nat) (code : Code) :
    (s.ended len code).scratchHeld = none := rfl
@[simp] theorem State_ended_bitOver (s : State) (len : Nat) (code : Code) :
    (s.ended len code).bitOver = none := rfl
@[simp] theorem State_ended_busy (s : State) (len : Nat) (code : Code) :
    (s.ended len code).busy = false := rfl
@[simp] theorem State_ended_last (s : State) (len : Nat) (code : Code) :
    (s.ended len code).last = code := rfl
@[simp] theorem State_ended_err (s : State) (len : Nat) (code : Code) :
    (s.ended len code).err = (s.err || decide (code ≠ .ok)) := rfl

/-- The machine's end of a command is the one the statements speak of. -/
theorem endCommand_eq (s : State) (len : Nat) (code : Code) :
    endCommand len code s = s.ended len code := rfl

/-! ## `State.releaseScratch` -/

@[simp] theorem State_releaseScratch_cfg (s : State) : (s.releaseScratch).cfg = s.cfg := rfl
@[simp] theorem State_releaseScratch_rot (s : State) : (s.releaseScratch).rot = s.rot := rfl
@[simp] theorem State_releaseScratch_width (s : State) : (s.releaseScratch).width = s.width := rfl
@[simp] theorem State_releaseScratch_height (s : State) :
    (s.releaseScratch).height = s.height := rfl
@[simp] theorem State_releaseScratch_result (s : State) :
    (s.releaseScratch).result = s.result := rfl
@[simp] theorem State_releaseScratch_busy (s : State) : (s.releaseScratch).busy = s.busy := rfl
@[simp] theorem State_releaseScratch_err (s : State) : (s.releaseScratch).err = s.err := rfl
@[simp] theorem State_releaseScratch_last (s : State) : (s.releaseScratch).last = s.last := rfl
@[simp] theorem State_releaseScratch_pending (s : State) :
    (s.releaseScratch).pending = s.pending := rfl
@[simp] theorem State_releaseScratch_cp (s : State) : (s.releaseScratch).cp = s.cp := rfl
@[simp] theorem State_releaseScratch_bitBase (s : State) :
    (s.releaseScratch).bitBase = s.bitBase := rfl
@[simp] theorem State_releaseScratch_bitPos (s : State) :
    (s.releaseScratch).bitPos = s.bitPos := rfl
@[simp] theorem State_releaseScratch_bitOver (s : State) :
    (s.releaseScratch).bitOver = s.bitOver := rfl
@[simp] theorem State_releaseScratch_resetHeld (s : State) :
    (s.releaseScratch).resetHeld = s.resetHeld := rfl
@[simp] theorem State_releaseScratch_line (s : State) : (s.releaseScratch).line = s.line := rfl
@[simp] theorem State_releaseScratch_fillScratch (s : State) :
    (s.releaseScratch).fillScratch = s.fillScratch := rfl
@[simp] theorem State_releaseScratch_cs (s : State) : (s.releaseScratch).cs = s.cs := rfl
@[simp] theorem State_releaseScratch_dc (s : State) : (s.releaseScratch).dc = s.dc := rfl
@[simp] theorem State_releaseScratch_rst (s : State) : (s.releaseScratch).rst = s.rst := rfl
@[simp] theorem State_releaseScratch_bl (s : State) : (s.releaseScratch).bl = s.bl := rfl
@[simp] theorem State_releaseScratch_trace (s : State) : (s.releaseScratch).trace = s.trace := rfl
@[simp] theorem State_releaseScratch_mem (s : State) : (s.releaseScratch).mem = s.mem := rfl
@[simp] theorem State_releaseScratch_xferDraws (s : State) :
    (s.releaseScratch).xferDraws = s.xferDraws := rfl
@[simp] theorem State_releaseScratch_allocDraws (s : State) :
    (s.releaseScratch).allocDraws = s.allocDraws := rfl
@[simp] theorem State_releaseScratch_freeCount (s : State) :
    (s.releaseScratch).freeCount = s.freeCount := rfl
@[simp] theorem State_releaseScratch_inbox (s : State) : (s.releaseScratch).inbox = s.inbox := rfl
@[simp] theorem State_releaseScratch_readData (s : State) :
    (s.releaseScratch).readData = s.readData := rfl
@[simp] theorem State_releaseScratch_scratchHeld (s : State) :
    s.releaseScratch.scratchHeld = none := rfl

/-! ## `State.rotated` -/

@[simp] theorem State_rotated_cfg (s : State) (n : Nat) : (s.rotated n).cfg = s.cfg := rfl
@[simp] theorem State_rotated_result (s : State) (n : Nat) : (s.rotated n).result = s.result := rfl
@[simp] theorem State_rotated_busy (s : State) (n : Nat) : (s.rotated n).busy = s.busy := rfl
@[simp] theorem State_rotated_err (s : State) (n : Nat) : (s.rotated n).err = s.err := rfl
@[simp] theorem State_rotated_last (s : State) (n : Nat) : (s.rotated n).last = s.last := rfl
@[simp] theorem State_rotated_pending (s : State) (n : Nat) :
    (s.rotated n).pending = s.pending := rfl
@[simp] theorem State_rotated_cp (s : State) (n : Nat) : (s.rotated n).cp = s.cp := rfl
@[simp] theorem State_rotated_bitBase (s : State) (n : Nat) :
    (s.rotated n).bitBase = s.bitBase := rfl
@[simp] theorem State_rotated_bitPos (s : State) (n : Nat) : (s.rotated n).bitPos = s.bitPos := rfl
@[simp] theorem State_rotated_bitOver (s : State) (n : Nat) :
    (s.rotated n).bitOver = s.bitOver := rfl
@[simp] theorem State_rotated_resetHeld (s : State) (n : Nat) :
    (s.rotated n).resetHeld = s.resetHeld := rfl
@[simp] theorem State_rotated_line (s : State) (n : Nat) : (s.rotated n).line = s.line := rfl
@[simp] theorem State_rotated_fillScratch (s : State) (n : Nat) :
    (s.rotated n).fillScratch = s.fillScratch := rfl
@[simp] theorem State_rotated_scratch (s : State) (n : Nat) :
    (s.rotated n).scratch = s.scratch := rfl
@[simp] theorem State_rotated_scratchHeld (s : State) (n : Nat) :
    (s.rotated n).scratchHeld = s.scratchHeld := rfl
@[simp] theorem State_rotated_cs (s : State) (n : Nat) : (s.rotated n).cs = s.cs := rfl
@[simp] theorem State_rotated_dc (s : State) (n : Nat) : (s.rotated n).dc = s.dc := rfl
@[simp] theorem State_rotated_rst (s : State) (n : Nat) : (s.rotated n).rst = s.rst := rfl
@[simp] theorem State_rotated_bl (s : State) (n : Nat) : (s.rotated n).bl = s.bl := rfl
@[simp] theorem State_rotated_trace (s : State) (n : Nat) : (s.rotated n).trace = s.trace := rfl
@[simp] theorem State_rotated_mem (s : State) (n : Nat) : (s.rotated n).mem = s.mem := rfl
@[simp] theorem State_rotated_xferDraws (s : State) (n : Nat) :
    (s.rotated n).xferDraws = s.xferDraws := rfl
@[simp] theorem State_rotated_allocDraws (s : State) (n : Nat) :
    (s.rotated n).allocDraws = s.allocDraws := rfl
@[simp] theorem State_rotated_freeCount (s : State) (n : Nat) :
    (s.rotated n).freeCount = s.freeCount := rfl
@[simp] theorem State_rotated_inbox (s : State) (n : Nat) : (s.rotated n).inbox = s.inbox := rfl
@[simp] theorem State_rotated_readData (s : State) (n : Nat) :
    (s.rotated n).readData = s.readData := rfl
@[simp] theorem State_rotated_width (s : State) (n : Nat) :
    (s.rotated n).width = if n % s.cfg.variant.count % 2 = 1 then s.cfg.physH else s.cfg.physW :=
  rfl
@[simp] theorem State_rotated_height (s : State) (n : Nat) :
    (s.rotated n).height = if n % s.cfg.variant.count % 2 = 1 then s.cfg.physW else s.cfg.physH :=
  rfl

/-! ## `State.csAssert` -/

@[simp] theorem State_csAssert_cfg (s : State) : (s.csAssert).cfg = s.cfg := by
  unfold State.csAssert; split <;> simp
@[simp] theorem State_csAssert_rot (s : State) : (s.csAssert).rot = s.rot := by
  unfold State.csAssert; split <;> simp
@[simp] theorem State_csAssert_width (s : State) : (s.csAssert).width = s.width := by
  unfold State.csAssert; split <;> simp
@[simp] theorem State_csAssert_height (s : State) : (s.csAssert).height = s.height := by
  unfold State.csAssert; split <;> simp
@[simp] theorem State_csAssert_result (s : State) : (s.csAssert).result = s.result := by
  unfold State.csAssert; split <;> simp
@[simp] theorem State_csAssert_busy (s : State) : (s.csAssert).busy = s.busy := by
  unfold State.csAssert; split <;> simp
@[simp] theorem State_csAssert_err (s : State) : (s.csAssert).err = s.err := by
  unfold State.csAssert; split <;> simp
@[simp] theorem State_csAssert_last (s : State) : (s.csAssert).last = s.last := by
  unfold State.csAssert; split <;> simp
@[simp] theorem State_csAssert_pending (s : State) : (s.csAssert).pending = s.pending := by
  unfold State.csAssert; split <;> simp
@[simp] theorem State_csAssert_cp (s : State) : (s.csAssert).cp = s.cp := by
  unfold State.csAssert; split <;> simp
@[simp] theorem State_csAssert_bitBase (s : State) : (s.csAssert).bitBase = s.bitBase := by
  unfold State.csAssert; split <;> simp
@[simp] theorem State_csAssert_bitPos (s : State) : (s.csAssert).bitPos = s.bitPos := by
  unfold State.csAssert; split <;> simp
@[simp] theorem State_csAssert_bitOver (s : State) : (s.csAssert).bitOver = s.bitOver := by
  unfold State.csAssert; split <;> simp
@[simp] theorem State_csAssert_resetHeld (s : State) : (s.csAssert).resetHeld = s.resetHeld := by
  unfold State.csAssert; split <;> simp
@[simp] theorem State_csAssert_line (s : State) : (s.csAssert).line = s.line := by
  unfold State.csAssert; split <;> simp
@[simp] theorem State_csAssert_fillScratch (s : State) :
    (s.csAssert).fillScratch = s.fillScratch := by
  unfold State.csAssert; split <;> simp
@[simp] theorem State_csAssert_scratch (s : State) : (s.csAssert).scratch = s.scratch := by
  unfold State.csAssert; split <;> simp
@[simp] theorem State_csAssert_scratchHeld (s : State) :
    (s.csAssert).scratchHeld = s.scratchHeld := by
  unfold State.csAssert; split <;> simp
@[simp] theorem State_csAssert_mem (s : State) : (s.csAssert).mem = s.mem := by
  unfold State.csAssert; split <;> simp
@[simp] theorem State_csAssert_xferDraws (s : State) : (s.csAssert).xferDraws = s.xferDraws := by
  unfold State.csAssert; split <;> simp
@[simp] theorem State_csAssert_allocDraws (s : State) : (s.csAssert).allocDraws = s.allocDraws := by
  unfold State.csAssert; split <;> simp
@[simp] theorem State_csAssert_freeCount (s : State) : (s.csAssert).freeCount = s.freeCount := by
  unfold State.csAssert; split <;> simp
@[simp] theorem State_csAssert_inbox (s : State) : (s.csAssert).inbox = s.inbox := by
  unfold State.csAssert; split <;> simp
@[simp] theorem State_csAssert_readData (s : State) : (s.csAssert).readData = s.readData := by
  unfold State.csAssert; split <;> simp

/-! ## `State.csRelease` -/

@[simp] theorem State_csRelease_cfg (s : State) : (s.csRelease).cfg = s.cfg := by
  unfold State.csRelease; split <;> simp
@[simp] theorem State_csRelease_rot (s : State) : (s.csRelease).rot = s.rot := by
  unfold State.csRelease; split <;> simp
@[simp] theorem State_csRelease_width (s : State) : (s.csRelease).width = s.width := by
  unfold State.csRelease; split <;> simp
@[simp] theorem State_csRelease_height (s : State) : (s.csRelease).height = s.height := by
  unfold State.csRelease; split <;> simp
@[simp] theorem State_csRelease_result (s : State) : (s.csRelease).result = s.result := by
  unfold State.csRelease; split <;> simp
@[simp] theorem State_csRelease_busy (s : State) : (s.csRelease).busy = s.busy := by
  unfold State.csRelease; split <;> simp
@[simp] theorem State_csRelease_err (s : State) : (s.csRelease).err = s.err := by
  unfold State.csRelease; split <;> simp
@[simp] theorem State_csRelease_last (s : State) : (s.csRelease).last = s.last := by
  unfold State.csRelease; split <;> simp
@[simp] theorem State_csRelease_pending (s : State) : (s.csRelease).pending = s.pending := by
  unfold State.csRelease; split <;> simp
@[simp] theorem State_csRelease_cp (s : State) : (s.csRelease).cp = s.cp := by
  unfold State.csRelease; split <;> simp
@[simp] theorem State_csRelease_bitBase (s : State) : (s.csRelease).bitBase = s.bitBase := by
  unfold State.csRelease; split <;> simp
@[simp] theorem State_csRelease_bitPos (s : State) : (s.csRelease).bitPos = s.bitPos := by
  unfold State.csRelease; split <;> simp
@[simp] theorem State_csRelease_bitOver (s : State) : (s.csRelease).bitOver = s.bitOver := by
  unfold State.csRelease; split <;> simp
@[simp] theorem State_csRelease_resetHeld (s : State) : (s.csRelease).resetHeld = s.resetHeld := by
  unfold State.csRelease; split <;> simp
@[simp] theorem State_csRelease_line (s : State) : (s.csRelease).line = s.line := by
  unfold State.csRelease; split <;> simp
@[simp] theorem State_csRelease_fillScratch (s : State) :
    (s.csRelease).fillScratch = s.fillScratch := by
  unfold State.csRelease; split <;> simp
@[simp] theorem State_csRelease_scratch (s : State) : (s.csRelease).scratch = s.scratch := by
  unfold State.csRelease; split <;> simp
@[simp] theorem State_csRelease_scratchHeld (s : State) :
    (s.csRelease).scratchHeld = s.scratchHeld := by
  unfold State.csRelease; split <;> simp
@[simp] theorem State_csRelease_mem (s : State) : (s.csRelease).mem = s.mem := by
  unfold State.csRelease; split <;> simp
@[simp] theorem State_csRelease_xferDraws (s : State) : (s.csRelease).xferDraws = s.xferDraws := by
  unfold State.csRelease; split <;> simp
@[simp] theorem State_csRelease_allocDraws (s : State) :
    (s.csRelease).allocDraws = s.allocDraws := by
  unfold State.csRelease; split <;> simp
@[simp] theorem State_csRelease_freeCount (s : State) : (s.csRelease).freeCount = s.freeCount := by
  unfold State.csRelease; split <;> simp
@[simp] theorem State_csRelease_inbox (s : State) : (s.csRelease).inbox = s.inbox := by
  unfold State.csRelease; split <;> simp
@[simp] theorem State_csRelease_readData (s : State) : (s.csRelease).readData = s.readData := by
  unfold State.csRelease; split <;> simp

/-! ## `State.atBit` -/

@[simp] theorem State_atBit_cfg (s : State) (p : Nat) : (s.atBit p).cfg = s.cfg := rfl
@[simp] theorem State_atBit_rot (s : State) (p : Nat) : (s.atBit p).rot = s.rot := rfl
@[simp] theorem State_atBit_width (s : State) (p : Nat) : (s.atBit p).width = s.width := rfl
@[simp] theorem State_atBit_height (s : State) (p : Nat) : (s.atBit p).height = s.height := rfl
@[simp] theorem State_atBit_result (s : State) (p : Nat) : (s.atBit p).result = s.result := rfl
@[simp] theorem State_atBit_busy (s : State) (p : Nat) : (s.atBit p).busy = s.busy := rfl
@[simp] theorem State_atBit_err (s : State) (p : Nat) : (s.atBit p).err = s.err := rfl
@[simp] theorem State_atBit_last (s : State) (p : Nat) : (s.atBit p).last = s.last := rfl
@[simp] theorem State_atBit_pending (s : State) (p : Nat) : (s.atBit p).pending = s.pending := rfl
@[simp] theorem State_atBit_cp (s : State) (p : Nat) : (s.atBit p).cp = s.cp := rfl
@[simp] theorem State_atBit_bitBase (s : State) (p : Nat) : (s.atBit p).bitBase = s.bitBase := rfl
@[simp] theorem State_atBit_line (s : State) (p : Nat) : (s.atBit p).line = s.line := rfl
@[simp] theorem State_atBit_fillScratch (s : State) (p : Nat) :
    (s.atBit p).fillScratch = s.fillScratch := rfl
@[simp] theorem State_atBit_scratch (s : State) (p : Nat) : (s.atBit p).scratch = s.scratch := rfl
@[simp] theorem State_atBit_scratchHeld (s : State) (p : Nat) :
    (s.atBit p).scratchHeld = s.scratchHeld := rfl
@[simp] theorem State_atBit_cs (s : State) (p : Nat) : (s.atBit p).cs = s.cs := rfl
@[simp] theorem State_atBit_dc (s : State) (p : Nat) : (s.atBit p).dc = s.dc := rfl
@[simp] theorem State_atBit_rst (s : State) (p : Nat) : (s.atBit p).rst = s.rst := rfl
@[simp] theorem State_atBit_bl (s : State) (p : Nat) : (s.atBit p).bl = s.bl := rfl
@[simp] theorem State_atBit_resetHeld (s : State) (p : Nat) :
    (s.atBit p).resetHeld = s.resetHeld := rfl
@[simp] theorem State_atBit_trace (s : State) (p : Nat) : (s.atBit p).trace = s.trace := rfl
@[simp] theorem State_atBit_mem (s : State) (p : Nat) : (s.atBit p).mem = s.mem := rfl
@[simp] theorem State_atBit_xferDraws (s : State) (p : Nat) :
    (s.atBit p).xferDraws = s.xferDraws := rfl
@[simp] theorem State_atBit_allocDraws (s : State) (p : Nat) :
    (s.atBit p).allocDraws = s.allocDraws := rfl
@[simp] theorem State_atBit_freeCount (s : State) (p : Nat) :
    (s.atBit p).freeCount = s.freeCount := rfl
@[simp] theorem State_atBit_inbox (s : State) (p : Nat) : (s.atBit p).inbox = s.inbox := rfl
@[simp] theorem State_atBit_readData (s : State) (p : Nat) :
    (s.atBit p).readData = s.readData := rfl
@[simp] theorem State_atBit_bitIndex (s : State) (p : Nat) : (s.atBit p).bitIndex = p := by
  unfold State.atBit State.bitIndex
  by_cases h : p < 2 ^ 35
  · simp only [h, if_true, Option.getD_none, BitVec.toNat_ofNat]
    exact Nat.mod_eq_of_lt h
  · simp only [h, if_false, Option.getD_some]
@[simp] theorem State_atBit_atBit (s : State) (p q : Nat) : (s.atBit p).atBit q = s.atBit q := rfl
/-- A position below 2^35 is what BITPOS holds (R43). -/
theorem State_atBit_bitPos (s : State) (p : Nat) (h : p < 2 ^ 35) :
    (s.atBit p).bitPos.toNat = p := by
  simp only [State.atBit, h, if_true, BitVec.toNat_ofNat]
  exact Nat.mod_eq_of_lt h

/-! ## `State.scratchSize` -/

@[simp] theorem State_emit_scratchSize (s : State) (e : Event) :
    (s.emit e).scratchSize = s.scratchSize := by
  simp [State.scratchSize]
@[simp] theorem State_performs_scratchSize (s : State) (es : List Event) :
    (s.performs es).scratchSize = s.scratchSize := rfl
@[simp] theorem State_atBit_scratchSize (s : State) (p : Nat) :
    (s.atBit p).scratchSize = s.scratchSize := rfl

/-! ## `writeCtrl` -/

@[simp] theorem writeCtrl_cfg (s : State) (v : Word) : (writeCtrl v s).cfg = s.cfg := rfl
@[simp] theorem writeCtrl_rot (s : State) (v : Word) : (writeCtrl v s).rot = s.rot := rfl
@[simp] theorem writeCtrl_width (s : State) (v : Word) : (writeCtrl v s).width = s.width := rfl
@[simp] theorem writeCtrl_height (s : State) (v : Word) : (writeCtrl v s).height = s.height := rfl
@[simp] theorem writeCtrl_result (s : State) (v : Word) : (writeCtrl v s).result = s.result := rfl
@[simp] theorem writeCtrl_busy (s : State) (v : Word) : (writeCtrl v s).busy = s.busy := rfl
@[simp] theorem writeCtrl_last (s : State) (v : Word) : (writeCtrl v s).last = s.last := rfl
@[simp] theorem writeCtrl_cp (s : State) (v : Word) : (writeCtrl v s).cp = s.cp := rfl
@[simp] theorem writeCtrl_bitBase (s : State) (v : Word) :
    (writeCtrl v s).bitBase = s.bitBase := rfl
@[simp] theorem writeCtrl_bitPos (s : State) (v : Word) : (writeCtrl v s).bitPos = s.bitPos := rfl
@[simp] theorem writeCtrl_bitOver (s : State) (v : Word) :
    (writeCtrl v s).bitOver = s.bitOver := rfl
@[simp] theorem writeCtrl_resetHeld (s : State) (v : Word) :
    (writeCtrl v s).resetHeld = s.resetHeld := rfl
@[simp] theorem writeCtrl_line (s : State) (v : Word) : (writeCtrl v s).line = s.line := rfl
@[simp] theorem writeCtrl_fillScratch (s : State) (v : Word) :
    (writeCtrl v s).fillScratch = s.fillScratch := rfl
@[simp] theorem writeCtrl_scratch (s : State) (v : Word) :
    (writeCtrl v s).scratch = s.scratch := rfl
@[simp] theorem writeCtrl_scratchHeld (s : State) (v : Word) :
    (writeCtrl v s).scratchHeld = s.scratchHeld := rfl
@[simp] theorem writeCtrl_cs (s : State) (v : Word) : (writeCtrl v s).cs = s.cs := rfl
@[simp] theorem writeCtrl_dc (s : State) (v : Word) : (writeCtrl v s).dc = s.dc := rfl
@[simp] theorem writeCtrl_rst (s : State) (v : Word) : (writeCtrl v s).rst = s.rst := rfl
@[simp] theorem writeCtrl_bl (s : State) (v : Word) : (writeCtrl v s).bl = s.bl := rfl
@[simp] theorem writeCtrl_trace (s : State) (v : Word) : (writeCtrl v s).trace = s.trace := rfl
@[simp] theorem writeCtrl_mem (s : State) (v : Word) : (writeCtrl v s).mem = s.mem := rfl
@[simp] theorem writeCtrl_xferDraws (s : State) (v : Word) :
    (writeCtrl v s).xferDraws = s.xferDraws := rfl
@[simp] theorem writeCtrl_allocDraws (s : State) (v : Word) :
    (writeCtrl v s).allocDraws = s.allocDraws := rfl
@[simp] theorem writeCtrl_freeCount (s : State) (v : Word) :
    (writeCtrl v s).freeCount = s.freeCount := rfl
@[simp] theorem writeCtrl_inbox (s : State) (v : Word) : (writeCtrl v s).inbox = s.inbox := rfl
@[simp] theorem writeCtrl_readData (s : State) (v : Word) :
    (writeCtrl v s).readData = s.readData := rfl
@[simp] theorem writeCtrl_err (s : State) (v : Word) :
    (writeCtrl v s).err = (s.err && !v.getLsbD 0) := rfl
@[simp] theorem writeCtrl_pending (s : State) (v : Word) :
    (writeCtrl v s).pending = if v.getLsbD 1 then [] else s.pending := rfl

/-! ## `assertReset` and `releaseReset` -/

@[simp] theorem assertReset_cfg (s : State) : (assertReset s).cfg = s.cfg := rfl
@[simp] theorem assertReset_rot (s : State) : (assertReset s).rot = s.rot := rfl
@[simp] theorem assertReset_width (s : State) : (assertReset s).width = s.width := rfl
@[simp] theorem assertReset_height (s : State) : (assertReset s).height = s.height := rfl
@[simp] theorem assertReset_result (s : State) : (assertReset s).result = s.result := rfl
@[simp] theorem assertReset_busy (s : State) : (assertReset s).busy = s.busy := rfl
@[simp] theorem assertReset_err (s : State) : (assertReset s).err = s.err := rfl
@[simp] theorem assertReset_last (s : State) : (assertReset s).last = s.last := rfl
@[simp] theorem assertReset_cp (s : State) : (assertReset s).cp = s.cp := rfl
@[simp] theorem assertReset_bitBase (s : State) : (assertReset s).bitBase = s.bitBase := rfl
@[simp] theorem assertReset_bitPos (s : State) : (assertReset s).bitPos = s.bitPos := rfl
@[simp] theorem assertReset_bitOver (s : State) : (assertReset s).bitOver = s.bitOver := rfl
@[simp] theorem assertReset_line (s : State) : (assertReset s).line = s.line := rfl
@[simp] theorem assertReset_fillScratch (s : State) :
    (assertReset s).fillScratch = s.fillScratch := rfl
@[simp] theorem assertReset_scratch (s : State) : (assertReset s).scratch = s.scratch := rfl
@[simp] theorem assertReset_scratchHeld (s : State) :
    (assertReset s).scratchHeld = s.scratchHeld := rfl
@[simp] theorem assertReset_cs (s : State) : (assertReset s).cs = s.cs := rfl
@[simp] theorem assertReset_dc (s : State) : (assertReset s).dc = s.dc := rfl
@[simp] theorem assertReset_rst (s : State) : (assertReset s).rst = s.rst := rfl
@[simp] theorem assertReset_bl (s : State) : (assertReset s).bl = s.bl := rfl
@[simp] theorem assertReset_trace (s : State) : (assertReset s).trace = s.trace := rfl
@[simp] theorem assertReset_mem (s : State) : (assertReset s).mem = s.mem := rfl
@[simp] theorem assertReset_xferDraws (s : State) : (assertReset s).xferDraws = s.xferDraws := rfl
@[simp] theorem assertReset_allocDraws (s : State) :
    (assertReset s).allocDraws = s.allocDraws := rfl
@[simp] theorem assertReset_freeCount (s : State) : (assertReset s).freeCount = s.freeCount := rfl
@[simp] theorem assertReset_inbox (s : State) : (assertReset s).inbox = s.inbox := rfl
@[simp] theorem assertReset_readData (s : State) : (assertReset s).readData = s.readData := rfl
@[simp] theorem assertReset_pending (s : State) : (assertReset s).pending = [] := rfl
@[simp] theorem assertReset_resetHeld (s : State) : (assertReset s).resetHeld = true := rfl
theorem releaseReset_held (s : State) (h : s.resetHeld = true) : releaseReset s = blockReset s := by
  rw [releaseReset, if_pos h]
theorem releaseReset_free (s : State) (h : s.resetHeld = false) : releaseReset s = s := by
  rw [releaseReset, h]; rfl

end Sys2Proof.Machine
end

