-- ==== Sys2Proof/Laws/Cmd.lean ====
section
/-! SUPPORT. How pieces of pseudocode compose, and the one frame rule for all of them: `After R Q c`
says that c, from every state, ends in a state R-related to it, and raises only faults in Q. It is
proved once for every shared operation, for any R that the updates below respect. -/

namespace Sys2Proof.Machine

/-! ## Composition -/

@[simp] theorem cmd_pure_apply {α : Type} (a : α) (s : State) : (pure a : Cmd α) s = .ok a s := rfl

@[simp] theorem withState_apply {α : Type} (g : State → Cmd α) (s : State) :
    withState g s = g s s := rfl

@[simp] theorem update_apply (g : State → State) (s : State) : update g s = .ok () (g s) := rfl

theorem cmd_bind_apply {α β : Type} (c : Cmd α) (k : α → Cmd β) (s : State) :
    (c >>= k) s = match c s with
      | .ok a t => k a t
      | .error f t => .error f t := by
  change EStateM.bind c k s = _
  unfold EStateM.bind
  cases c s <;> rfl

theorem cmd_bind_ok {α β : Type} {c : Cmd α} {k : α → Cmd β} {s t : State} {a : α}
    (h : c s = .ok a t) : (c >>= k) s = k a t := by
  rw [cmd_bind_apply, h]

theorem cmd_bind_error {α β : Type} {c : Cmd α} {k : α → Cmd β} {s t : State} {f : Raised}
    (h : c s = .error f t) : (c >>= k) s = .error f t := by
  rw [cmd_bind_apply, h]

/-- How a piece of pseudocode that answered `b` came to it through a bind. -/
theorem cmd_bind_eq_ok {α β : Type} {c : Cmd α} {k : α → Cmd β} {s t : State} {b : β}
    (h : (c >>= k) s = .ok b t) : ∃ a u, c s = .ok a u ∧ k a u = .ok b t := by
  rw [cmd_bind_apply] at h
  split at h
  · exact ⟨_, _, ‹_›, h⟩
  · cases h

/-! ## The frame rule -/

/-- From every state, c ends in an R-related state and raises only faults in Q. -/
def After {α : Type} (R : State → State → Prop) (Q : Raised → Prop) (c : Cmd α) : Prop :=
  ∀ s, match c s with
    | .ok _ t => R s t
    | .error f t => R s t ∧ Q f

section
variable {R : State → State → Prop} {Q : Raised → Prop} {α β : Type}

theorem After.ok {c : Cmd α} (h : After R Q c) {s t : State} {a : α} (e : c s = .ok a t) :
    R s t := by
  have := h s
  rwa [e] at this

theorem After.error {c : Cmd α} (h : After R Q c) {s t : State} {f : Raised}
    (e : c s = .error f t) : R s t ∧ Q f := by
  have := h s
  rwa [e] at this

theorem after_update {g : State → State} (h : ∀ s, R s (g s)) : After R Q (update g) := h

theorem after_withState {g : State → Cmd α} (h : ∀ u, After R Q (g u)) :
    After R Q (withState g) := fun s => h s s

theorem After.weaken {R' : State → State → Prop} {Q' : Raised → Prop} {c : Cmd α}
    (h : After R Q c) (hR : ∀ s t, R s t → R' s t) (hQ : ∀ f, Q f → Q' f) : After R' Q' c := by
  intro s
  have := h s
  revert this
  cases c s <;> simp only
  · exact hR _ _
  · exact fun h => ⟨hR _ _ h.1, hQ _ h.2⟩

end

/-- What a relation must respect for the frame rule: the updates that any command may make. The
updates that only some commands make (the two scratches, the geometry, the cursor) are asked for
    where
they occur. -/
structure Respects (R : State → State → Prop) : Prop where
  refl : ∀ s, R s s
  trans : ∀ s t u, R s t → R t u → R s u
  emit : ∀ s e, R s (s.emit e)
  xferDraw : ∀ s : State, R s { s with xferDraws := s.xferDraws.tail }
  line : ∀ (s : State) r, R s { s with line := r }

/-- The update of the filler (R47): the whole fill scratch takes one colour. -/
def RespectsFill (R : State → State → Prop) : Prop :=
  ∀ (s : State) c, R s { s with fillScratch := pixels c Config.fillChunkPx }

/-- The updates of the glyph/bitmap scratch (R48, R262). -/
structure RespectsScratch (R : State → State → Prop) : Prop where
  allocDraw : ∀ s : State, R s { s with allocDraws := s.allocDraws.tail }
  acquireResident : ∀ (s : State) cap n, s.cfg.scratch = .resident cap →
    R s { s with scratchHeld := some n }
  acquireTransient : ∀ (s : State) n, s.cfg.scratch = .transient →
    R s { s with scratchHeld := some n, scratch := [] }
  store : ∀ (s : State) (bs : List Byte),
    R s { s with scratch := (bs ++ s.scratch.drop bs.length).take s.scratchSize }
  release : ∀ s : State, R s s.releaseScratch

section
variable {R : State → State → Prop} {Q : Raised → Prop} {α β : Type}

theorem after_pure (hR : Respects R) (a : α) : After R Q (pure a : Cmd α) := fun s => hR.refl s

theorem after_bind (hR : Respects R) {c : Cmd α} {k : α → Cmd β} (hc : After R Q c)
    (hk : ∀ a, After R Q (k a)) : After R Q (c >>= k) := by
  intro s
  rw [cmd_bind_apply]
  cases e : c s with
  | ok a t =>
    simp only
    have h := hk a t
    revert h
    cases k a t with
    | ok b u => exact fun h => hR.trans _ _ _ (hc.ok e) h
    | error f u => exact fun h => ⟨hR.trans _ _ _ (hc.ok e) h.1, h.2⟩
  | error f t => exact hc.error e

theorem after_raise (hR : Respects R) {f : Raised} (hf : Q f) : After R Q (raise f : Cmd α) :=
  fun s => ⟨hR.refl s, hf⟩

theorem after_ite {p : Prop} [Decidable p] {c d : Cmd α} (hc : After R Q c) (hd : After R Q d) :
    After R Q (if p then c else d) := by
  split <;> assumption

theorem after_forUp (hR : Respects R) {body : Nat → Cmd Unit} (h : ∀ i, After R Q (body i))
    (n a : Nat) : After R Q (forUp n a body) := by
  induction n generalizing a with
  | zero => exact after_pure hR ()
  | succ n ih => exact after_bind hR (h a) fun _ => ih (a + 1)

theorem after_collectBytes (hR : Respects R) {body : Nat → Cmd (List Byte)}
    (h : ∀ i, After R Q (body i)) (n a : Nat) : After R Q (collectBytes n a body) := by
  induction n generalizing a with
  | zero => exact after_pure hR []
  | succ n ih =>
    exact after_bind hR (h a) fun _ => after_bind hR (ih (a + 1)) fun _ => after_pure hR _

/-! ### Primitives -/

theorem after_memRead (hR : Respects R) (hb : ∀ a, Q (.resourceBounds a)) (addr n : Nat) :
    After R Q (memRead addr n) := by
  intro s
  unfold memRead
  by_cases h0 : n = 0
  · simp only [h0, if_true]
    exact hR.refl s
  · by_cases h1 : addr + n ≤ s.cfg.resMemSize
    · simp only [h0, h1, if_true, if_false]
      exact hR.refl s
    · simp only [h0, h1, if_false]
      exact ⟨hR.refl s, hb _⟩

theorem after_memRead8 (hR : Respects R) (hb : ∀ a, Q (.resourceBounds a)) (addr : Nat) :
    After R Q (memRead8 addr) :=
  after_bind hR (after_memRead hR hb addr 1) fun _ => after_pure hR _

theorem after_delay (hR : Respects R) (ms : Nat) : After R Q (delay ms) :=
  fun s => hR.emit s (.delay ms)

theorem after_setDc (hR : Respects R) (m : DcMode) : After R Q (setDc m) :=
  fun s => hR.emit s (.dc m)

theorem after_setRst (hR : Respects R) (l : Act) : After R Q (setRst l) := by
  refine after_update fun s => ?_
  split
  · exact hR.emit s _
  · exact hR.refl s

theorem after_setBl (hR : Respects R) (l : Light) : After R Q (setBl l) := by
  refine after_update fun s => ?_
  split
  · exact hR.emit s _
  · exact hR.refl s

theorem after_xferOut (hR : Respects R) (ht : ∀ n, Q (.transportError n)) (bytes : List Byte) :
    After R Q (xferOut bytes) := by
  intro s
  unfold xferOut
  by_cases h : s.nextXferOk = true
  · simp only [h, if_true]
    exact hR.trans _ _ _ (hR.xferDraw s) (hR.emit _ _)
  · simp only [h]
    exact ⟨hR.trans _ _ _ (hR.xferDraw s) (hR.emit _ _), ht _⟩

theorem respects_csAssert (hR : Respects R) (s : State) : R s s.csAssert := by
  unfold State.csAssert
  split
  · exact hR.emit s _
  · exact hR.refl s

theorem respects_csRelease (hR : Respects R) (s : State) : R s s.csRelease := by
  unfold State.csRelease
  split
  · exact hR.emit s _
  · exact hR.refl s

theorem after_bracketed (hR : Respects R) {body : Cmd Unit} (h : After R Q body) :
    After R Q (bracketed body) := by
  intro s
  simp only [bracketed]
  have hs := respects_csAssert hR s
  cases e : body s.csAssert with
  | ok a t => exact hR.trans _ _ _ (hR.trans _ _ _ hs (h.ok e)) (respects_csRelease hR t)
  | error f t =>
    exact ⟨hR.trans _ _ _ (hR.trans _ _ _ hs (h.error e).1) (respects_csRelease hR t),
      (h.error e).2⟩

theorem after_dataBracket (hR : Respects R) {body : Cmd Unit} (h : After R Q body) :
    After R Q (dataBracket body) :=
  after_bracketed hR (after_bind hR (after_setDc hR _) fun _ => h)

theorem after_acquireScratch (hR : Respects R) (hS : RespectsScratch R)
    (he : ∀ n, Q (.resourceError n)) (n : Nat) :
    After R Q (acquireScratch n) := by
  intro s
  unfold acquireScratch
  cases hsc : s.cfg.scratch with
  | resident cap =>
    by_cases h : (n : Int) > cap
    · simp only [h, if_true]
      exact ⟨hR.refl s, he _⟩
    · simp only [h, if_false]
      exact hS.acquireResident s cap n hsc
  | transient =>
    by_cases h : s.nextAllocOk = true
    · simp only [h, if_true]
      exact hR.trans _ _ _ (hS.allocDraw s) (hS.acquireTransient _ n hsc)
    · simp only [h]
      exact ⟨hS.allocDraw s, he _⟩

theorem after_releasing (hR : Respects R) (hS : RespectsScratch R) {body : Cmd α}
    (h : After R Q body) : After R Q (releasing body) := by
  intro s
  simp only [releasing]
  cases e : body s with
  | ok a t => exact hR.trans _ _ _ (h.ok e) (hS.release t)
  | error f t => exact ⟨hR.trans _ _ _ (h.error e).1 (hS.release t), (h.error e).2⟩

theorem after_withScratch (hR : Respects R) (hS : RespectsScratch R)
    (he : ∀ n, Q (.resourceError n)) (n : Nat) {body : Cmd α} (h : After R Q body) : After R Q (withScratch n body) :=
  after_bind hR (after_acquireScratch hR hS he n) fun _ => after_releasing hR hS h

theorem after_storeScratch (hS : RespectsScratch R) (bytes : List Byte) :
    After R Q (storeScratch bytes) :=
  fun s => hS.store s bytes

theorem after_putLine (hR : Respects R) (r : LineRegs) : After R Q (putLine r) :=
  fun s => hR.line s (some r)

theorem after_delayFor (hR : Respects R) (d : Config → Nat) : After R Q (delayFor d) :=
  after_withState fun _ => after_delay hR _

theorem after_fits (hR : Respects R) (x w : Int) : After R Q (fits x w) :=
  after_withState fun _ => after_pure hR _

/-! ### The sequencer, the window and the pixel stream -/

theorem after_send (hR : Respects R) (ht : ∀ n, Q (.transportError n)) (c : Option Byte)
    (p : List Byte) : After R Q (send c p) := by
  refine after_bracketed hR (after_bind hR ?_ fun _ => ?_)
  · unfold sendHead
    cases c with
    | none => exact after_pure hR ()
    | some b => exact after_bind hR (after_setDc hR _) fun _ => after_xferOut hR ht _
  · exact after_ite (after_pure hR ()) (after_bind hR (after_setDc hR _) fun _ =>
      after_xferOut hR ht _)

theorem after_sendCmd (hR : Respects R) (ht : ∀ n, Q (.transportError n)) (b : Config → Byte)
    (p : List Byte) : After R Q (sendCmd b p) :=
  after_withState fun _ => after_send hR ht _ _

theorem after_windowRaw (hR : Respects R) (ht : ∀ n, Q (.transportError n)) (x0 y0 x1 y1 : Int) :
    After R Q (windowRaw x0 y0 x1 y1) :=
  after_bind hR (after_sendCmd hR ht _ _) fun _ =>
    after_bind hR (after_sendCmd hR ht _ _) fun _ => after_sendCmd hR ht _ _

theorem after_openWindow (hR : Respects R) (ht : ∀ n, Q (.transportError n)) (x0 y0 x1 y1 : Int) :
    After R Q (openWindow x0 y0 x1 y1) :=
  after_withState fun _ => after_ite
    (after_bind hR (after_windowRaw hR ht x0 y0 x1 y1) fun _ => after_pure hR true)
    (after_pure hR false)

theorem after_pixelStream (hR : Respects R) (ht : ∀ n, Q (.transportError n)) {body : Cmd Unit}
    (h : After R Q body) (x0 y0 x1 y1 : Int) : After R Q (pixelStream x0 y0 x1 y1 body) :=
  after_bind hR (after_openWindow hR ht x0 y0 x1 y1) fun _ => after_withState fun _ =>
    after_ite (after_dataBracket hR h) (after_pure hR ())

/-! ### The filler and the rasterizer -/

theorem after_xferFill (hR : Respects R) (ht : ∀ n, Q (.transportError n)) (n : Nat) :
    After R Q (xferFill n) :=
  after_withState fun _ => after_xferOut hR ht _

theorem after_fillStream (hR : Respects R) (hF : RespectsFill R) (ht : ∀ n, Q (.transportError n))
    (c : Half) (n : Nat) : After R Q (fillStream c n) := by
  refine after_bind hR (after_update fun s => hF s _) fun _ =>
    after_bind hR (after_forUp hR (fun _ => after_xferFill hR ht _) _ _) fun _ => ?_
  exact after_ite (after_pure hR ()) (after_xferFill hR ht _)

theorem after_fillScreen (hR : Respects R) (hF : RespectsFill R) (ht : ∀ n, Q (.transportError n))
    (c : Half) : After R Q (fillScreen c) :=
  after_withState fun _ => after_pixelStream hR ht (after_fillStream hR hF ht _ _) _ _ _ _

theorem after_pixelOp (hR : Respects R) (ht : ∀ n, Q (.transportError n)) (x y : Int) (c : Half) :
    After R Q (pixelOp x y c) :=
  after_pixelStream hR ht (after_xferOut hR ht _) _ _ _ _

theorem after_hlineOp (hR : Respects R) (hF : RespectsFill R) (ht : ∀ n, Q (.transportError n))
    (x y w : Int) (c : Half) : After R Q (hlineOp x y w c) :=
  after_withState fun _ => after_pixelStream hR ht (after_fillStream hR hF ht _ _) _ _ _ _

theorem after_vlineOp (hR : Respects R) (hF : RespectsFill R) (ht : ∀ n, Q (.transportError n))
    (x y h : Int) (c : Half) : After R Q (vlineOp x y h c) :=
  after_withState fun _ => after_pixelStream hR ht (after_fillStream hR hF ht _ _) _ _ _ _

theorem after_flushRun (hR : Respects R) (hF : RespectsFill R) (ht : ∀ n, Q (.transportError n))
    (steep : Bool) (c : Half) (run : LineRun) : After R Q (flushRun steep c run) := by
  unfold flushRun
  exact after_ite (after_ite (after_pixelOp hR ht _ _ _) (after_pixelOp hR ht _ _ _))
    (after_ite (after_vlineOp hR hF ht _ _ _ _) (after_hlineOp hR hF ht _ _ _ _))

theorem after_lineWalk (hR : Respects R) (hF : RespectsFill R) (ht : ∀ n, Q (.transportError n))
    (c : Half) (n : Nat) (x : Int) (r : LineRegs) : After R Q (lineWalk c n x r) := by
  induction n generalizing x r with
  | zero => exact after_pure hR r
  | succ n ih =>
    refine after_bind hR (after_putLine hR _) fun _ => after_bind hR ?_ fun _ => ih _ _
    unfold flushStep
    split
    · exact after_pure hR ()
    · exact after_flushRun hR hF ht _ _ _

theorem after_lineOp (hR : Respects R) (hF : RespectsFill R) (ht : ∀ n, Q (.transportError n))
    (x0 y0 x1 y1 : Int) (c : Half) : After R Q (lineOp x0 y0 x1 y1 c) :=
  after_bind hR (after_putLine hR _) fun _ =>
    after_bind hR (after_lineWalk hR hF ht _ _ _ _) fun _ => after_ite (after_flushRun hR hF ht _ _ _) (after_pure hR ())

/-! ### The blitter and the decoder -/

theorem after_memStream (hR : Respects R) (ht : ∀ n, Q (.transportError n))
    (hb : ∀ a, Q (.resourceBounds a)) (addr n k : Nat) : After R Q (memStream addr n k) := by
  refine after_bind hR (after_forUp hR (fun _ => after_bind hR (after_memRead hR hb _ _) fun _ =>
    after_xferOut hR ht _) _ _) fun _ => after_ite (after_pure hR ()) ?_
  exact after_bind hR (after_memRead hR hb _ _) fun _ => after_xferOut hR ht _

theorem after_chunkStream (hR : Respects R) (ht : ∀ n, Q (.transportError n)) (n c : Nat) :
    After R Q (chunkStream n c) :=
  after_withState fun _ => after_bind hR (after_forUp hR (fun _ => after_xferOut hR ht _) _ _)
    fun _ => after_ite (after_pure hR ()) (after_xferOut hR ht _)

theorem after_blitScratch (hR : Respects R) (ht : ∀ n, Q (.transportError n)) (x y w h : Int) :
    After R Q (blitScratch x y w h) :=
  after_withState fun _ => after_pixelStream hR ht (after_chunkStream hR ht _ _) _ _ _ _

theorem after_blitIf (hR : Respects R) (ht : ∀ n, Q (.transportError n)) (fit : Bool)
    (x y w h : Int) : After R Q (blitIf fit x y w h) :=
  after_ite (after_blitScratch hR ht _ _ _ _) (after_pure hR ())

theorem after_blitDecoded (hR : Respects R) (hS : RespectsScratch R)
    (ht : ∀ n, Q (.transportError n)) (bytes : List Byte) (x y w h : Int) :
    After R Q (blitDecoded bytes x y w h) :=
  after_bind hR (after_storeScratch hS _) fun _ => after_bind hR (after_fits hR _ _) fun _ =>
    after_bind hR (after_blitIf hR ht _ _ _ _ _) fun _ => after_pure hR _

theorem after_rasterGlyph (hR : Respects R) (hb : ∀ a, Q (.resourceBounds a)) (a : TextArgs)
    (ch : Nat) : After R Q (rasterGlyph a ch) :=
  after_collectBytes hR (fun _ => after_collectBytes hR (fun _ =>
    after_bind hR (after_memRead8 hR hb _) fun _ => after_pure hR _) _ _) _ _

theorem after_textGlyph (hR : Respects R) (hS : RespectsScratch R) (ht : ∀ n, Q (.transportError n))
    (he : ∀ n, Q (.resourceError n)) (hb : ∀ a, Q (.resourceBounds a)) (a : TextArgs) (ch : Nat)
    (x : Int) : After R Q (textGlyph a ch x) :=
  after_withScratch hR hS he _ (after_bind hR (after_rasterGlyph hR hb _ _) fun _ =>
    after_blitDecoded hR hS ht _ _ _ _ _)

theorem after_textLoop (hR : Respects R) (hS : RespectsScratch R) (ht : ∀ n, Q (.transportError n))
    (he : ∀ n, Q (.resourceError n)) (hb : ∀ a, Q (.resourceBounds a)) (a : TextArgs) (n i : Nat)
    (x : Int) : After R Q (textLoop a n i x) := by
  induction n generalizing i x with
  | zero => exact after_pure hR ()
  | succ n ih =>
    exact after_bind hR (after_memRead8 hR hb _) fun _ =>
      after_ite (after_bind hR (after_textGlyph hR hS ht he hb _ _ _) fun _ => ih _ _) (ih _ _)

theorem after_lookupFrom (hR : Respects R) (hb : ∀ a, Q (.resourceBounds a)) (map : Nat) (ch : Byte)
    (mlen j : Nat) : After R Q (lookupFrom map ch mlen j) := by
  induction mlen generalizing j with
  | zero => exact after_pure hR none
  | succ mlen ih =>
    exact after_bind hR (after_memRead8 hR hb _) fun _ => after_ite (after_pure hR _) (ih _)

theorem after_readOffset (hR : Respects R) (hb : ∀ a, Q (.resourceBounds a)) (a ow : Nat) :
    After R Q (readOffset a ow) :=
  after_bind hR (after_collectBytes hR (fun _ => after_bind hR (after_memRead8 hR hb _) fun _ =>
    after_pure hR _) _ _) fun _ => after_withState fun _ => after_pure hR _

theorem after_measureLoop (hR : Respects R) (hb : ∀ a, Q (.resourceBounds a))
    (map mlen widths str n i total : Nat) :
    After R Q (measureLoop map mlen widths str n i total) := by
  induction n generalizing i total with
  | zero => exact after_pure hR total
  | succ n ih =>
    refine after_bind hR (after_memRead8 hR hb _) fun _ =>
      after_bind hR (after_lookupFrom hR hb _ _ _ _) fun j => ?_
    cases j with
    | none => exact ih _ _
    | some j => exact after_bind hR (after_memRead8 hR hb _) fun _ => ih _ _

theorem after_hardResetSeq (hR : Respects R) : After R Q hardResetSeq :=
  after_withState fun _ => after_ite
    (after_bind hR (after_setRst hR _) fun _ => after_bind hR (after_delayFor hR _) fun _ =>
      after_bind hR (after_setRst hR _) fun _ => after_delayFor hR _)
    (after_pure hR ())

theorem after_softResetSeq (hR : Respects R) (ht : ∀ n, Q (.transportError n)) :
    After R Q softResetSeq :=
  after_bind hR (after_sendCmd hR ht _ _) fun _ => after_delayFor hR _

theorem after_initResetSeq (hR : Respects R) (ht : ∀ n, Q (.transportError n)) :
    After R Q initResetSeq := by
  refine after_withState fun s => ?_
  cases s.cfg.initReset with
  | hardThenSoft =>
    exact after_bind hR (after_hardResetSeq hR) fun _ => after_softResetSeq hR ht
  | hard => exact after_hardResetSeq hR
  | soft => exact after_softResetSeq hR ht

end

/-! ### Operations that also write the geometry or the cursor -/

/-- The updates of the decoder cursor (R43). -/
def RespectsCursor (R : State → State → Prop) : Prop :=
  ∀ (s : State) b p, R s (State.atBit { s with bitBase := b } p)

section
variable {R : State → State → Prop} {Q : Raised → Prop}

theorem after_rotationSeq (hR : Respects R) (ht : ∀ n, Q (.transportError n))
    (hg : ∀ (s : State) r w h, R s { s with rot := r, width := w, height := h }) (n : Nat) :
    After R Q (rotationSeq n) :=
  after_withState fun _ => after_bind hR (after_update fun s => hg s _ _ _) fun _ =>
    after_sendCmd hR ht _ _

theorem after_initSeq (hR : Respects R) (hF : RespectsFill R) (ht : ∀ n, Q (.transportError n))
    (hg : ∀ (s : State) r w h, R s { s with rot := r, width := w, height := h }) :
    After R Q initSeq :=
  after_bind hR (after_initResetSeq hR ht) fun _ =>
    after_bind hR (after_sendCmd hR ht _ _) fun _ =>
    after_bind hR (after_withState fun _ => after_sendCmd hR ht _ _) fun _ =>
    after_bind hR (after_withState fun _ => after_rotationSeq hR ht hg _) fun _ =>
    after_bind hR (after_sendCmd hR ht _ _) fun _ =>
    after_bind hR (after_sendCmd hR ht _ _) fun _ => after_bind hR
    (after_fillScreen hR hF ht _) fun _ =>
    after_bind hR (after_setBl hR _) fun _ => after_bind hR (after_sendCmd hR ht _ _) fun _ =>
    after_delayFor hR _

theorem after_seedCursor (hc : RespectsCursor R)
    (b : Word) (p : Nat) : After R Q (seedCursor b p) := after_update fun s => hc s b p

theorem after_bitReadFrom (hR : Respects R) (hb : ∀ a, Q (.resourceBounds a))
    (hc : RespectsCursor R) (v k : Nat) :
    After R Q (bitReadFrom v k) := by
  induction k generalizing v with
  | zero => exact after_pure hR v
  | succ k ih =>
    exact after_withState fun _ => after_bind hR (after_memRead8 hR hb _) fun _ =>
      after_bind hR (after_update fun s => hc s s.bitBase (s.bitIndex + 1)) fun _ => ih _

theorem after_decodeGlyph (hR : Respects R) (hb : ∀ a, Q (.resourceBounds a))
    (hc : RespectsCursor R) (a : WriteArgs) (n : Nat) :
    After R Q (decodeGlyph a n) :=
  after_collectBytes hR (fun _ => after_bind hR (after_bitReadFrom hR hb hc _ _) fun _ =>
    after_withState fun _ => after_pure hR _) _ _

theorem after_writeGlyph (hR : Respects R) (hS : RespectsScratch R)
    (ht : ∀ n, Q (.transportError n)) (he : ∀ n, Q (.resourceError n))
    (hb : ∀ a, Q (.resourceBounds a)) (hc : RespectsCursor R) (a : WriteArgs) (j : Nat)
    (x : Int) : After R Q (writeGlyph a j x) :=
  after_bind hR (after_memRead8 hR hb _) fun _ =>
    after_bind hR (after_readOffset hR hb _ _) fun _ =>
    after_withScratch hR hS he _ (after_bind hR (after_seedCursor hc _ _) fun _ =>
      after_bind hR (after_decodeGlyph hR hb hc _ _) fun _ =>
      after_bind hR (after_blitDecoded hR hS ht _ _ _ _ _) fun _ => after_pure hR _)

theorem after_writeLoop (hR : Respects R) (hS : RespectsScratch R) (ht : ∀ n, Q (.transportError n))
    (he : ∀ n, Q (.resourceError n)) (hb : ∀ a, Q (.resourceBounds a))
    (hc : RespectsCursor R) (a : WriteArgs) (n i : Nat)
    (x : Int) (total : Nat) : After R Q (writeLoop a n i x total) := by
  induction n generalizing i x total with
  | zero => exact after_pure hR total
  | succ n ih =>
    refine after_bind hR (after_memRead8 hR hb _) fun _ =>
      after_bind hR (after_lookupFrom hR hb _ _ _ _) fun j => ?_
    cases j with
    | none => exact ih _ _ _
    | some j =>
      refine after_bind hR (after_writeGlyph hR hS ht he hb hc _ _ _) fun p => ?_
      obtain ⟨w, fit⟩ := p
      exact after_ite (ih _ _ _) (after_pure hR total)

theorem after_palettePixel (hR : Respects R) (hb : ∀ a, Q (.resourceBounds a))
    (hc : RespectsCursor R) (k pal plen : Nat) :
    After R Q (palettePixel k pal plen) :=
  after_bind hR (after_bitReadFrom hR hb hc _ _) fun _ => after_ite (after_raise hR (hb _))
    (after_bind hR (after_memRead8 hR hb _) fun _ => after_bind hR (after_memRead8 hR hb _) fun _ =>
      after_pure hR _)

theorem after_frameCheck (hR : Respects R) (hr : ∀ n, Q (.rangeError n)) (fcount fidx : Nat) :
    After R Q (frameCheck fcount fidx) :=
  after_ite (after_raise hR (hr _)) (after_pure hR ())

/-- The frame rule of BITMAP, given that of the end of its decode. -/
theorem after_bitmapOp (hR : Respects R) (hS : RespectsScratch R) (ht : ∀ n, Q (.transportError n))
    (hr : ∀ n, Q (.rangeError n)) (he : ∀ n, Q (.resourceError n))
    (hb : ∀ a, Q (.resourceBounds a)) (hc : RespectsCursor R)
    (hf : After R Q forgetCursor) (k : Nat) (bits : Word) (pal plen : Nat) (w h : Int)
    (fcount fidx : Nat) (x y : Int) :
    After R Q (bitmapOp k bits pal plen w h fcount fidx x y) := by
  refine after_bind hR (after_frameCheck hR hr _ _) fun _ =>
    after_bind hR (after_withScratch hR hS he _ (after_bind hR (after_seedCursor hc _ _) fun _ =>
      after_bind hR (after_collectBytes hR (fun _ => after_palettePixel hR hb hc _ _ _) _ _)
        fun _ => after_blitDecoded hR hS ht _ _ _ _ _)) fun _ => hf

end

end Sys2Proof.Machine
end

