-- ==== Sys2Proof/Laws/Does.lean ====
section
/-! SUPPORT. What each shared operation does when no transfer fails: `Does c s es` says that c,
    from s,
makes exactly the events es, takes one draw for each transfer, and changes nothing else but the
line-engine registers, which the end of a command clears, and the fill scratch, which a fill leaves
    full
of its colour. -/

namespace Sys2Proof.Machine

/-! ## `State.performs` in closed form -/

theorem performs_nil (s : State) : s.performs [] = s := by
  rw [State.performs, List.append_nil]
  rfl

/-- A list of events in one record update. -/
theorem performs_eq (s : State) (es : List Event) :
    s.performs es =
      { s with
        trace := s.trace ++ es
        cs := (es.foldl levelAfter s.levels).1
        dc := (es.foldl levelAfter s.levels).2.1
        rst := (es.foldl levelAfter s.levels).2.2.1
        bl := (es.foldl levelAfter s.levels).2.2.2
        xferDraws := s.xferDraws.drop (xferCount es) } := rfl

theorem xferCount_append (a b : List Event) : xferCount (a ++ b) = xferCount a + xferCount b := by
  induction a with
  | nil => simp [xferCount]
  | cons e a ih => cases e <;> simp only [List.cons_append, xferCount, ih] <;> omega

theorem performs_append (s : State) (a b : List Event) :
    (s.performs a).performs b = s.performs (a ++ b) := by
  simp only [performs_eq, State.levels, List.foldl_append, List.append_assoc, xferCount_append,
    List.drop_drop]

/-- A state with other contents of the fill scratch and of the line-engine registers. -/
def State.working (s : State) (f : List Byte) (l : Option LineRegs) : State :=
  { s with fillScratch := f, line := l }

theorem working_self (s : State) : s.working s.fillScratch s.line = s := rfl

@[simp] theorem working_working (s : State) (f f' : List Byte) (l l' : Option LineRegs) :
    (s.working f l).working f' l' = s.working f' l' := rfl

/-- The working registers and the events do not touch each other. -/
theorem performs_working (s : State) (es : List Event) (f : List Byte) (l : Option LineRegs) :
    (s.working f l).performs es = (s.performs es).working f l := by
  simp only [performs_eq, State.levels, State.working]

@[simp] theorem working_cfg (s : State) (f : List Byte) (l : Option LineRegs) :
    (s.working f l).cfg = s.cfg := rfl
@[simp] theorem working_width (s : State) (f : List Byte) (l : Option LineRegs) :
    (s.working f l).width = s.width := rfl
@[simp] theorem working_height (s : State) (f : List Byte) (l : Option LineRegs) :
    (s.working f l).height = s.height := rfl
@[simp] theorem working_mem (s : State) (f : List Byte) (l : Option LineRegs) :
    (s.working f l).mem = s.mem := rfl
@[simp] theorem working_scratch (s : State) (f : List Byte) (l : Option LineRegs) :
    (s.working f l).scratch = s.scratch := rfl
theorem working_ended (s : State) (f : List Byte) (l : Option LineRegs) (len : Nat) (code : Code) :
    (s.working f l).ended len code = State.ended { s with fillScratch := f } len code := rfl

theorem transportUp_working {s : State} (h : TransportUp s) (f : List Byte) (l : Option LineRegs) :
    TransportUp (s.working f l) := h

/-! ## `Does` -/

/-- What fills with the colours K may leave in the fill scratch: what stood there, or 128 pixels of
    one
of the colours (R47, R190). -/
def FillLeft (K : List Half) (s : State) (f : List Byte) : Prop :=
  f = s.fillScratch ∨ ∃ c ∈ K, f = pixels c 128

theorem fillLeft_singleton {c : Half} {s : State} {f : List Byte} (h : FillLeft [c] s f) :
    FillScratchAfter s c f := by
  rcases h with h | ⟨d, hd, h⟩
  · exact .inl h
  · exact .inr (List.mem_singleton.1 hd ▸ h)

/-- From s, c makes the events es and changes nothing besides but the line-engine registers and the
    fill
scratch, which it fills with colours of K. -/
def Does (K : List Half) (c : Cmd Unit) (s : State) (es : List Event) : Prop :=
  ∃ f l, FillLeft K s f ∧ c s = .ok () ((s.performs es).working f l)

/-- c makes the events es from s and changes nothing besides. -/
def Makes (c : Cmd Unit) (s : State) (es : List Event) : Prop := c s = .ok () (s.performs es)

theorem Makes.does {K : List Half} {c : Cmd Unit} {s : State} {es : List Event} (h : Makes c s es) :
    Does K c s es :=
  ⟨(s.performs es).fillScratch, (s.performs es).line, .inl rfl, h⟩

/-- What a fill leaves after another fill. -/
theorem FillLeft.trans {K : List Half} {s : State} {f f' : List Byte} {l : Option LineRegs}
    {es : List Event} (h : FillLeft K s f) (h' : FillLeft K ((s.performs es).working f l) f') :
    FillLeft K s f' := by
  rcases h' with h' | h'
  · exact h' ▸ h
  · exact .inr h'

theorem transportUp_performs {s : State} (h : TransportUp s) (es : List Event) :
    TransportUp (s.performs es) :=
  fun b hb => h b (List.mem_of_mem_drop hb)

theorem makes_pure (s : State) : Makes (pure ()) s [] := by
  rw [Makes, performs_nil]
  rfl

theorem makes_bind {c d : Cmd Unit} {s : State} {a b : List Event}
    (hc : Makes c s a) (hd : Makes d (s.performs a) b) :
    Makes (c >>= fun _ => d) s (a ++ b) := by
  unfold Makes at *
  rw [cmd_bind_ok hc, hd, performs_append]

theorem does_bind {K : List Half} {c d : Cmd Unit} {s : State} {a b : List Event}
    (hc : Does K c s a) (hk : ∀ f l, Does K d ((s.performs a).working f l) b) :
    Does K (c >>= fun _ => d) s (a ++ b) := by
  obtain ⟨f, l, hf, hc⟩ := hc
  obtain ⟨f', l', hf', hk⟩ := hk f l
  refine ⟨f', l', hf.trans hf', ?_⟩
  rw [cmd_bind_ok hc, hk, performs_working, performs_append, working_working]

/-- A second piece whose events depend only on the configuration, the geometry and memory. -/
theorem does_bind_const {K : List Half} {c d : Cmd Unit} {s : State} {a b : List Event}
    (hs : TransportUp s) (hc : Does K c s a)
    (hk : ∀ t : State, TransportUp t → t.cfg = s.cfg → t.width = s.width → t.height = s.height →
      t.mem = s.mem → Does K d t b) :
    Does K (c >>= fun _ => d) s (a ++ b) :=
  does_bind hc fun f l => hk _ (transportUp_working (transportUp_performs hs a) f l)
    (by simp) (by simp) (by simp) (by simp)

theorem makes_setDc (s : State) (m : DcMode) : Makes (setDc m) s [.dc m] := by
  unfold Makes setDc
  rw [update_apply]
  rw [performs_eq]
  simp [State.emit, levelAfter, xferCount, State.levels]

theorem makes_delay (s : State) (ms : Nat) : Makes (delay ms) s [.delay ms] := by
  unfold Makes delay
  rw [update_apply]
  rw [performs_eq]
  simp [State.emit, levelAfter, xferCount, State.levels]

theorem makes_delayFor (s : State) (d : Config → Nat) :
    Makes (delayFor d) s [.delay (d s.cfg)] := makes_delay s _

theorem makes_setRst (s : State) (l : Act) :
    Makes (setRst l) s (if s.cfg.hasRst then [.rst l] else []) := by
  unfold Makes setRst
  rw [update_apply]
  split
  · rw [performs_eq]
    simp [State.emit, levelAfter, xferCount, State.levels]
  · rw [performs_nil]

theorem makes_setBl (s : State) (l : Light) :
    Makes (setBl l) s (if s.cfg.hasBl then [.bl l] else []) := by
  unfold Makes setBl
  rw [update_apply]
  split
  · rw [performs_eq]
    simp [State.emit, levelAfter, xferCount, State.levels]
  · rw [performs_nil]

theorem nextXferOk_of_up {s : State} (h : TransportUp s) : s.nextXferOk = true := by
  unfold State.nextXferOk
  cases hd : s.xferDraws with
  | nil => rfl
  | cons b bs => exact h b (by simp [hd])

theorem makes_xferOut {s : State} (h : TransportUp s) (bs : List Byte) :
    Makes (xferOut bs) s [.xfer bs] := by
  unfold Makes xferOut
  rw [nextXferOk_of_up h, performs_eq]
  simp [State.emit, levelAfter, xferCount, State.levels]

theorem csAssert_eq (s : State) : s.csAssert = s.performs (csOn s.cfg) := by
  unfold State.csAssert csOn
  split
  · rw [performs_eq]
    simp [State.emit, levelAfter, xferCount, State.levels]
  · rw [performs_nil]

theorem csRelease_eq (s : State) : s.csRelease = s.performs (csOff s.cfg) := by
  unfold State.csRelease csOff
  split
  · rw [performs_eq]
    simp [State.emit, levelAfter, xferCount, State.levels]
  · rw [performs_nil]

theorem does_bracketed {K : List Half} {body : Cmd Unit} {s : State} {es : List Event}
    (h : Does K body (s.performs (csOn s.cfg)) es) :
    Does K (bracketed body) s (csOn s.cfg ++ es ++ csOff s.cfg) := by
  obtain ⟨f, l, hf, h⟩ := h
  refine ⟨f, l, hf, ?_⟩
  simp only [bracketed, csAssert_eq, h, csRelease_eq, performs_working, performs_append]
  simp

theorem makes_bracketed {body : Cmd Unit} {s : State} {es : List Event}
    (h : Makes body (s.performs (csOn s.cfg)) es) :
    Makes (bracketed body) s (csOn s.cfg ++ es ++ csOff s.cfg) := by
  unfold Makes at *
  simp only [bracketed, csAssert_eq, h, csRelease_eq]
  rw [← performs_append, ← performs_append]
  simp

/-! ## The sequencer -/

theorem makes_send {s : State} (h : TransportUp s) (c : Option Byte) (p : List Byte) :
    Makes (send c p) s (sendEvents s.cfg c p) := by
  have hh : ∀ t, TransportUp t → Makes (sendHead c) t (headEvents c) := by
    intro t ht
    unfold sendHead
    cases c with
    | none => exact makes_pure t
    | some b => exact makes_bind (makes_setDc t _) (makes_xferOut (transportUp_performs ht _) _)
  have hp : ∀ t, TransportUp t → Makes (sendPayload p) t (payloadEvents p) := by
    intro t ht
    unfold sendPayload
    cases p with
    | nil => exact makes_pure t
    | cons b bs => exact makes_bind (makes_setDc t _) (makes_xferOut (transportUp_performs ht _) _)
  have h1 := transportUp_performs h (csOn s.cfg)
  have := makes_bracketed (s := s) (makes_bind (hh _ h1) (hp _ (transportUp_performs h1 _)))
  simpa only [send, sendEvents, List.append_assoc] using this

theorem makes_sendCmd {s : State} (h : TransportUp s) (b : Config → Byte) (p : List Byte) :
    Makes (sendCmd b p) s (sendEvents s.cfg (some (b s.cfg)) p) := makes_send h _ _

theorem makes_windowRaw {s : State} (h : TransportUp s) (x0 y0 x1 y1 : Int) :
    Makes (windowRaw x0 y0 x1 y1) s (windowEvents s.cfg x0 y0 x1 y1) := by
  have h1 := transportUp_performs h
    (sendEvents s.cfg (some s.cfg.cmdCaset) (be16Int x0 ++ be16Int x1))
  have h2 := transportUp_performs h1
    (sendEvents s.cfg (some s.cfg.cmdPaset) (be16Int y0 ++ be16Int y1))
  have a1 := makes_sendCmd h Config.cmdCaset (be16Int x0 ++ be16Int x1)
  have a2 := makes_sendCmd h1 Config.cmdPaset (be16Int y0 ++ be16Int y1)
  have a3 := makes_sendCmd h2 Config.cmdRamwr []
  simp only [State_performs_cfg] at a2 a3
  have := makes_bind a1 (makes_bind a2 a3)
  simpa only [windowRaw, windowEvents, List.append_assoc] using this

/-- `OpenWindow`, in the two cases of R158. -/
theorem openWindow_eq {s : State} (h : TransportUp s) (x0 y0 x1 y1 : Int) :
    openWindow x0 y0 x1 y1 s =
      if validWindow s x0 y0 x1 y1 = true then
        .ok true (s.performs (windowEvents s.cfg x0 y0 x1 y1))
      else .ok false s := by
  rw [openWindow, withState_apply]
  split
  · exact cmd_bind_ok (makes_windowRaw h x0 y0 x1 y1)
  · rfl

theorem does_dataBracket {K : List Half} {body : Cmd Unit} {s : State} {ts : List (List Byte)}
    (h : TransportUp s)
    (hb : ∀ t : State, TransportUp t → t.cfg = s.cfg → t.width = s.width → t.height = s.height →
      t.mem = s.mem → t.scratch = s.scratch → Does K body t (ts.map Event.xfer)) :
    Does K (dataBracket body) s (dataEvents s.cfg ts) := by
  have h1 := transportUp_performs h (csOn s.cfg)
  have h2 : ∀ f l, Does K body (((s.performs (csOn s.cfg)).performs [.dc .data]).working f l)
      (ts.map Event.xfer) := fun f l =>
    hb _ (transportUp_working (transportUp_performs h1 _) f l)
      (by simp) (by simp) (by simp) (by simp) (by simp)
  have := does_bracketed (does_bind (makes_setDc _ _).does h2)
  simpa only [dataEvents, dataBracket, List.append_assoc] using this

/-- `PixelStream`, whatever its window (R159). -/
theorem does_pixelStream {K : List Half} {body : Cmd Unit} {s : State} {ts : List (List Byte)}
    (h : TransportUp s)
    (x0 y0 x1 y1 : Int)
    (hb : validWindow s x0 y0 x1 y1 = true ∨ s.cfg.windowPolicy = .stream →
      ∀ t : State, TransportUp t → t.cfg = s.cfg → t.width = s.width → t.height = s.height →
        t.mem = s.mem → t.scratch = s.scratch → Does K body t (ts.map Event.xfer)) :
    Does K (pixelStream x0 y0 x1 y1 body) s (streamEvents s x0 y0 x1 y1 ts) := by
  by_cases hv : validWindow s x0 y0 x1 y1 = true
  · have hb' := hb (.inl hv)
    have h1 := transportUp_performs h (windowEvents s.cfg x0 y0 x1 y1)
    obtain ⟨f, l, hf, hd⟩ := does_dataBracket (K := K) (body := body) (ts := ts) h1
      fun t ht hc hw hh hm hs => hb' t ht (by simpa using hc) (by simpa using hw)
        (by simpa using hh) (by simpa using hm) (by simpa using hs)
    refine ⟨f, l, hf, ?_⟩
    have ho := openWindow_eq h x0 y0 x1 y1
    rw [if_pos hv] at ho
    rw [pixelStream, cmd_bind_ok ho, withState_apply, if_pos (.inl rfl), hd, performs_append,
      streamEvents, if_pos hv]
    simp
  · have ho := openWindow_eq h x0 y0 x1 y1
    rw [if_neg hv] at ho
    unfold Does
    rw [pixelStream, cmd_bind_ok ho, withState_apply, streamEvents, if_neg hv]
    by_cases hp : s.cfg.windowPolicy = .stream
    · rw [if_pos (.inr hp), if_pos hp]
      exact does_dataBracket h (hb (.inr hp))
    · rw [if_neg (by simpa using hp), if_neg hp]
      exact (makes_pure s).does

/-! ## Loops of transfers -/

theorem does_forUp {body : Nat → Cmd Unit} {es : Nat → List Event} (n a : Nat) {s : State}
    (P : State → Prop) (hP : ∀ t e, P t → P (t.performs e)) (hs : P s)
    (hb : ∀ i, a ≤ i → i < a + n → ∀ t, P t → Makes (body i) t (es i)) :
    Makes (forUp n a body) s ((List.range' a n).flatMap es) := by
  induction n generalizing a s with
  | zero => exact makes_pure s
  | succ n ih =>
    rw [List.range'_succ, List.flatMap_cons]
    exact makes_bind (hb a (Nat.le_refl a) (by omega) s hs)
      (ih (a + 1) (hP _ _ hs) fun i h1 h2 => hb i (by omega) (by omega))

/-- `MemRead` of bytes that can be read (R71). -/
theorem memRead_ok {s : State} {addr n : Nat} (h : Readable s addr n) :
    memRead addr n s = .ok (s.mem.readBytes addr n) s := by
  unfold memRead
  by_cases h0 : n = 0
  · subst h0; simp
  · rw [if_neg h0, if_pos (h.resolve_left h0)]

/-- `MemRead8` of a byte that can be read. -/
theorem memRead8_ok {s : State} {addr : Nat} (h : addr < s.cfg.resMemSize) :
    memRead8 addr s = .ok (s.mem.read addr) s := by
  rw [memRead8, cmd_bind_ok (memRead_ok (.inr h)), Memory_readBytes_succ]
  rfl

/-- One transfer of bytes read from resource memory. -/
theorem makes_readXfer {s : State} {addr n : Nat} (h : TransportUp s) (hr : Readable s addr n) :
    Makes (memRead addr n >>= xferOut) s [.xfer (s.mem.readBytes addr n)] := by
  unfold Makes
  rw [cmd_bind_ok (memRead_ok hr)]
  exact makes_xferOut h _

/-- A loop of single transfers whose bytes depend only on the configuration, memory and the two
scratches. -/
theorem makes_transfers {body : Nat → Cmd Unit} {f : Nat → List Byte} {s : State} (n : Nat)
    (h : TransportUp s)
    (hb : ∀ i < n, ∀ t : State, TransportUp t → t.cfg = s.cfg → t.mem = s.mem →
      t.scratch = s.scratch → t.fillScratch = s.fillScratch → Makes (body i) t [.xfer (f i)]) :
    Makes (forUp n 0 body) s (((List.range n).map f).map Event.xfer) := by
  have := does_forUp (body := body) (es := fun i => [.xfer (f i)]) n 0
    (fun t => TransportUp t ∧ t.cfg = s.cfg ∧ t.mem = s.mem ∧ t.scratch = s.scratch
      ∧ t.fillScratch = s.fillScratch)
    (fun t e ht => ⟨transportUp_performs ht.1 e, by simpa using ht.2⟩)
    (s := s) ⟨h, rfl, rfl, rfl, rfl⟩
    (fun i _ hi t ht => hb i (by omega) t ht.1 ht.2.1 ht.2.2.1 ht.2.2.2.1 ht.2.2.2.2)
  rw [List.map_map, List.range_eq_range', ← List.flatMap_pure_eq_map]
  exact this

/-- `FillStream` (R190, R191). -/
theorem does_fillStream {s : State} (h : TransportUp s) (c : Half) (n : Nat) :
    Does [c] (fillStream c n) s ((fillTransfers c n).map Event.xfer) := by
  have hf : ∀ (k : Nat), k ≤ 128 → ∀ t : State, TransportUp t → t.fillScratch = pixels c 128 →
      Makes (xferFill k) t [.xfer (pixels c k)] := by
    intro k hk t ht htf
    unfold Makes xferFill
    rw [withState_apply, htf, pixels_take, Nat.min_eq_left hk]
    exact makes_xferOut ht _
  have h1 := transportUp_working h (pixels c 128) s.line
  have h2 := makes_transfers (body := fun _ => xferFill Config.fillChunkPx)
    (f := fun _ => pixels c 128) (n / Config.fillChunkPx) h1 fun i _ t ht _ _ _ hft =>
      hf 128 (Nat.le_refl _) t ht hft
  have h3 : Makes (if n % Config.fillChunkPx = 0 then pure ()
      else xferFill (n % Config.fillChunkPx)) ((s.working (pixels c 128) s.line).performs
        ((((List.range (n / Config.fillChunkPx)).map fun _ => pixels c 128)).map Event.xfer))
      ((if n % 128 = 0 then [] else [pixels c (n % 128)]).map Event.xfer) := by
    by_cases h0 : n % 128 = 0
    · rw [if_pos h0, if_pos (show n % Config.fillChunkPx = 0 from h0)]
      exact makes_pure _
    · rw [if_neg h0, if_neg (show ¬ n % Config.fillChunkPx = 0 from h0)]
      exact hf _ (Nat.le_of_lt (Nat.mod_lt n (by decide))) _ (transportUp_performs h1 _)
        (by simp [State.working])
  have h4 := makes_bind h2 h3
  refine ⟨pixels c 128, s.line, .inr ⟨c, List.mem_singleton_self c, rfl⟩, ?_⟩
  have e : loadFillScratch c s = .ok () (s.working (pixels c 128) s.line) := rfl
  unfold Makes at h4
  rw [fillStream, cmd_bind_ok e, h4, performs_working, fillTransfers_eq, ← List.map_append,
    List.map_const', List.length_range]
  rfl

/-- `MemStream` of bytes that can be read (R240, R242). -/
theorem does_memStream {s : State} (h : TransportUp s) (addr n k : Nat) (hk : 0 < k)
    (hr : Readable s addr n) :
    Makes (memStream addr n k) s ((chunksOf k (s.mem.readBytes addr n)).map Event.xfer) := by
  have hdm := Nat.div_add_mod n k
  have hm := Nat.mod_lt n hk
  have hin : ∀ a b, a + b ≤ n → ∀ t : State, t.cfg = s.cfg → Readable t (addr + a) b := by
    intro a b hab t htc
    rcases Nat.eq_zero_or_pos b with hb | hb
    · exact .inl hb
    · have := hr.resolve_left (by omega)
      exact .inr (by rw [htc]; omega)
  have hmul : ∀ i < n / k, i * k + k ≤ n := by
    intro i hi
    have : (i + 1) * k ≤ n / k * k := Nat.mul_le_mul_right k hi
    rw [Nat.add_mul, Nat.one_mul] at this
    rw [Nat.mul_comm] at hdm
    omega
  have h1 := makes_transfers (body := fun i => memRead (addr + i * k) k >>= xferOut)
    (f := fun i => ((s.mem.readBytes addr n).drop (i * k)).take k) (n / k) h
    fun i hi t ht htc htm _ _ => by
      rw [Memory_readBytes_drop_take _ _ _ _ _ (hmul i hi), ← htm]
      exact makes_readXfer ht (hin _ _ (hmul i hi) t htc)
  rw [chunksOf_eq k hk, List.map_append, Memory_readBytes_length]
  refine makes_bind h1 ?_
  by_cases h0 : n % k = 0
  · rw [if_pos h0, if_pos h0]
    exact makes_pure _
  · rw [if_neg h0, if_neg h0, Memory_readBytes_drop]
    have e : n - n / k * k = n % k := by rw [Nat.mul_comm]; omega
    rw [e]
    have := makes_readXfer (addr := addr + n / k * k) (n := n % k) (transportUp_performs h
      (((List.range (n / k)).map fun i => ((s.mem.readBytes addr n).drop (i * k)).take k).map
        Event.xfer)) (hin _ _ (by rw [Nat.mul_comm]; omega) _ (by simp))
    simpa using this

/-- `ChunkStream` of the first n bytes of the scratch (R263). -/
theorem makes_chunkStream {s : State} (h : TransportUp s) (n k : Nat) (hk : 0 < k) :
    Makes (chunkStream n k) s ((chunksOf k (s.scratch.take n)).map Event.xfer) := by
  unfold Makes chunkStream
  rw [withState_apply]
  generalize s.scratch.take n = bytes
  have h1 := makes_transfers (body := fun i => xferOut ((bytes.drop (i * k)).take k))
    (f := fun i => (bytes.drop (i * k)).take k) (bytes.length / k) h
    fun i _ t ht _ _ _ _ => makes_xferOut ht _
  rw [chunksOf_eq k hk, List.map_append]
  refine makes_bind h1 ?_
  by_cases h0 : bytes.length % k = 0
  · rw [if_pos h0, if_pos h0]
    exact makes_pure _
  · rw [if_neg h0, if_neg h0]
    exact makes_xferOut (transportUp_performs h _) _

end Sys2Proof.Machine
end

