-- ==== Sys2Proof/Laws/Drawing.lean ====
section
/-! SUPPORT. What the drawing operations and the control sequences do when no transfer fails, and what
the end of a command makes of it (spec/41_fill_raster.md, spec/42_blit.md, spec/44_control.md,
spec/60_exceptions.md R351, R357). -/

namespace Sys2Proof.Machine

/-! ## From the body of a command to the command -/

/-- A command whose body completes ends with code OK in the state the body left. -/
theorem runCommand_ok {len : Nat} {body : Cmd Unit} {s t : State} (hc : configLegal s.cfg = true)
    (hb : body { s with busy := true } = .ok () t) :
    runCommand len true body s = t.ended len .ok := by
  unfold runCommand
  rw [hc, hb]
  rfl

/-- A command whose body raises a fault ends with its code in the state at that point (R352). -/
theorem runCommand_raised {len : Nat} {body : Cmd Unit} {s t : State} {f : Raised}
    (hc : configLegal s.cfg = true) (hb : body { s with busy := true } = .error f t) :
    runCommand len true body s = t.ended len (raisedCode f) := by
  unfold runCommand
  rw [hc, hb]
  rfl

/-- The busy flag that stands while a command executes does not outlive it. -/
theorem ended_performs_busy (s : State) (b : Bool) (len : Nat) (code : Code) (es : List Event) :
    (State.performs { s with busy := b } es).ended len code = (s.performs es).ended len code := rfl

/-- A command whose body makes the events es completes with exactly them, its fills' colours apart. -/
theorem runCommand_does {K : List Half} {len : Nat} {body : Cmd Unit} {s : State} {es : List Event}
    (hc : configLegal s.cfg = true) (hb : Does K body { s with busy := true } es) :
    ∃ f, FillLeft K s f ∧
      runCommand len true body s = State.completed { s with fillScratch := f } len es := by
  obtain ⟨f, l, hf, hb⟩ := hb
  exact ⟨f, hf, (runCommand_ok hc hb).trans rfl⟩

/-- A command that fills with one colour. -/
theorem runCommand_fills {c : Half} {len : Nat} {body : Cmd Unit} {s : State} {es : List Event}
    (hc : configLegal s.cfg = true) (hb : Does [c] body { s with busy := true } es) :
    ∃ f, FillScratchAfter s c f ∧
      runCommand len true body s = State.completed { s with fillScratch := f } len es :=
  (runCommand_does hc hb).imp fun _ h => ⟨fillLeft_singleton h.1, h.2⟩

/-- A command that fills nothing. -/
theorem runCommand_unfilled {len : Nat} {body : Cmd Unit} {s : State} {es : List Event}
    (hc : configLegal s.cfg = true) (hb : Does [] body { s with busy := true } es) :
    runCommand len true body s = s.completed len es := by
  obtain ⟨f, hf, h⟩ := runCommand_does (len := len) hc hb
  rcases hf with rfl | ⟨c, hc, -⟩
  · exact h
  · cases hc

/-! ## Runs -/

theorem does_fillScreen {s : State} (h : TransportUp s) (c : Half) :
    Does [c] (fillScreen c) s (screenEvents s c) :=
  does_pixelStream h _ _ _ _ fun _ _ ht _ _ _ _ _ => does_fillStream ht _ _

theorem does_pixelOp {K : List Half} {s : State} (h : TransportUp s) (x y : Int) (c : Half) :
    Does K (pixelOp x y c) s (pixelEvents s x y c) :=
  does_pixelStream h _ _ _ _ fun _ _ ht _ _ _ _ _ => (makes_xferOut ht _).does

/-- The clamp of a run is the least of its length and the room left (R204, R207). -/
theorem clampRun_eq (x w limit : Int) :
    (if x + w > limit then limit - x else w) = clampRun x w limit := by
  unfold clampRun
  split <;> omega

theorem extent_eq_toNat (v : Int) : extent v = v.toNat := by
  unfold extent
  omega

/-- The transfers of the pixels a run streams (R204, R207, R221). -/
theorem fillTransfers_runPixels (s : State) (x y len len' : Int) (c : Half) :
    fillTransfers c (runPixels s x y len len') = runTransfers s x y len len' c := by
  have hv : validWindow s x y x y = onScreen s x y := by
    unfold validWindow onScreen
    simp only [Int.le_refl, true_and]
  have h0 : fillTransfers c 0 = [] := by
    simp [fillTransfers, chunksOf, pixels, ceilDiv]
  have he : (s.cfg.offscreenRun = .emptyBracket ∧ len = 1 ∧ onScreen s x y = false)
      ↔ runEmptied s x y len = true := by simp [runEmptied, and_assoc]
  unfold runPixels runTransfers
  rw [hv, extent_eq_toNat, apply_ite (fillTransfers c), h0]
  simp only [he]

theorem does_hlineOp {s : State} (h : TransportUp s) (x y w : Int) (c : Half) :
    Does [c] (hlineOp x y w c) s (hlineEvents s x y w c) := by
  unfold Does hlineOp
  rw [withState_apply]
  simp only [clampRun_eq]
  refine does_pixelStream h _ _ _ _ fun _ _ ht _ _ _ _ _ => ?_
  rw [← fillTransfers_runPixels]
  exact does_fillStream ht _ _

theorem does_vlineOp {s : State} (h : TransportUp s) (x y w : Int) (c : Half) :
    Does [c] (vlineOp x y w c) s (vlineEvents s x y w c) := by
  unfold Does vlineOp
  rw [withState_apply]
  simp only [clampRun_eq]
  refine does_pixelStream h _ _ _ _ fun _ _ ht _ _ _ _ _ => ?_
  rw [← fillTransfers_runPixels]
  exact does_fillStream ht _ _

/-! The events of the operations depend only on the configuration and the geometry. -/

theorem validWindow_congr {s t : State} (hw : t.width = s.width) (hh : t.height = s.height)
    (x0 y0 x1 y1 : Int) : validWindow t x0 y0 x1 y1 = validWindow s x0 y0 x1 y1 := by
  unfold validWindow
  rw [hw, hh]

theorem streamEvents_congr {s t : State} (hc : t.cfg = s.cfg) (hw : t.width = s.width)
    (hh : t.height = s.height) (x0 y0 x1 y1 : Int) (ts : List (List Byte)) :
    streamEvents t x0 y0 x1 y1 ts = streamEvents s x0 y0 x1 y1 ts := by
  simp only [streamEvents, validWindow_congr hw hh, hc]

theorem runTransfers_congr {s t : State} (hc : t.cfg = s.cfg) (hw : t.width = s.width)
    (hh : t.height = s.height) (x y len len' : Int) (c : Half) :
    runTransfers t x y len len' c = runTransfers s x y len len' c := by
  unfold runTransfers runEmptied onScreen
  rw [hc, hw, hh]

theorem hlineEvents_congr {s t : State} (hc : t.cfg = s.cfg) (hw : t.width = s.width)
    (hh : t.height = s.height) (x y w : Int) (c : Half) :
    hlineEvents t x y w c = hlineEvents s x y w c := by
  simp only [hlineEvents, streamEvents_congr hc hw hh, runTransfers_congr hc hw hh, hw]

theorem vlineEvents_congr {s t : State} (hc : t.cfg = s.cfg) (hw : t.width = s.width)
    (hh : t.height = s.height) (x y w : Int) (c : Half) :
    vlineEvents t x y w c = vlineEvents s x y w c := by
  simp only [vlineEvents, streamEvents_congr hc hw hh, runTransfers_congr hc hw hh, hh]

theorem runEvents_congr {s t : State} (hc : t.cfg = s.cfg) (hw : t.width = s.width)
    (hh : t.height = s.height) (steep : Bool) (c : Half) (run : LineRun) :
    runEvents t steep c run = runEvents s steep c run := by
  simp only [runEvents, pixelEvents, hlineEvents_congr hc hw hh, vlineEvents_congr hc hw hh,
    streamEvents_congr hc hw hh]

/-! ## Lines (R216 to R218) -/

theorem does_flushRun {s : State} (h : TransportUp s) (steep : Bool) (c : Half) (run : LineRun) :
    Does [c] (flushRun steep c run) s (runEvents s steep c run) := by
  unfold flushRun runEvents
  by_cases h1 : run.len = 1 <;> cases steep <;> simp only [h1, decide_true, decide_false,
    if_true, if_false, Bool.false_eq_true]
  · exact does_pixelOp h _ _ _
  · exact does_pixelOp h _ _ _
  · exact does_hlineOp h _ _ _ _
  · exact does_vlineOp h _ _ _ _

/-- A step of the walk keeps the direction. -/
theorem lineAdvance_steep (r : LineRegs) (x : Int) : (lineAdvance r x).1.steep = r.steep := by
  simp only [lineAdvance]
  split <;> rfl

/-- The walk makes the events of the runs it flushes and answers the registers after it (R217). -/
theorem does_lineWalk (c : Half) (n : Nat) (x : Int) (r : LineRegs) {s : State}
    (h : TransportUp s) :
    ∃ f l, FillLeft [c] s f ∧ lineWalk c n x r s =
      .ok (walkRuns n x r).2
        ((s.performs ((walkRuns n x r).1.flatMap (runEvents s r.steep c))).working f l) := by
  induction n generalizing x r s with
  | zero =>
    refine ⟨s.fillScratch, s.line, .inl rfl, ?_⟩
    rw [walkRuns, List.flatMap_nil, performs_nil]
    rfl
  | succ n ih =>
    have e : putLine (lineAdvance r x).1 s
        = .ok () (s.working s.fillScratch (some (lineAdvance r x).1)) := rfl
    have h1 := transportUp_working h s.fillScratch (some (lineAdvance r x).1)
    have hd : Does [c] (flushStep r.steep c (lineAdvance r x).2)
        (s.working s.fillScratch (some (lineAdvance r x).1))
        ((lineAdvance r x).2.toList.flatMap (runEvents s r.steep c)) := by
      unfold flushStep
      cases (lineAdvance r x).2 with
      | none => exact (makes_pure _).does
      | some run =>
        have := does_flushRun h1 r.steep c run
        rw [runEvents_congr (s := s) (by simp) (by simp) (by simp)] at this
        simpa using this
    obtain ⟨f, l, hf, hd⟩ := hd
    rw [performs_working, working_working] at hd
    have h2 := transportUp_working (transportUp_performs h
      ((lineAdvance r x).2.toList.flatMap (runEvents s r.steep c))) f l
    obtain ⟨f', l', hf', hi⟩ := ih (x + 1) (lineAdvance r x).1 h2
    refine ⟨f', l', FillLeft.trans (s := s) hf hf', ?_⟩
    simp only [lineWalk]
    rw [cmd_bind_ok e, cmd_bind_ok hd, hi]
    have hev : ∀ run, runEvents ((s.performs ((lineAdvance r x).2.toList.flatMap
        (runEvents s r.steep c))).working f l) r.steep c run = runEvents s r.steep c run :=
      fun run => runEvents_congr (by simp) (by simp) (by simp) _ _ _
    simp only [walkRuns, performs_working, working_working, lineAdvance_steep,
      List.flatMap_append, funext hev, performs_append]

/-- The walk keeps the direction. -/
theorem walkRuns_steep (n : Nat) (x : Int) (r : LineRegs) : (walkRuns n x r).2.steep = r.steep := by
  induction n generalizing x r with
  | zero => rfl
  | succ n ih => exact (ih _ _).trans (lineAdvance_steep r x)

/-- LINE makes the events of its runs, in their order (R216 to R218). -/
theorem does_lineOp {s : State} (h : TransportUp s) (x0 y0 x1 y1 : Int) (c : Half) :
    Does [c] (lineOp x0 y0 x1 y1 c) s
      ((lineRuns x0 y0 x1 y1).flatMap (runEvents s (lineSetup x0 y0 x1 y1).steep c)) := by
  generalize hr : lineSetup x0 y0 x1 y1 = r
  have h1 := transportUp_working h s.fillScratch (some r)
  obtain ⟨f, l, hf, hw⟩ := does_lineWalk c (extent (r.dx + 1)) r.x0 r h1
  rw [performs_working, working_working] at hw
  have e : putLine r s = .ok () (s.working s.fillScratch (some r)) := rfl
  have hev : ∀ run, runEvents (s.working s.fillScratch (some r)) r.steep c run
      = runEvents s r.steep c run := fun run => runEvents_congr (by simp) (by simp) (by simp) _ _ _
  simp only [funext hev] at hw
  have h2 := transportUp_working (transportUp_performs h
    ((walkRuns (extent (r.dx + 1)) r.x0 r).1.flatMap (runEvents s r.steep c))) f l
  unfold Does
  simp only [lineOp, lineRuns, hr]
  rw [cmd_bind_ok e, cmd_bind_ok hw, walkRuns_steep]
  by_cases hd : (walkRuns (extent (r.dx + 1)) r.x0 r).2.dlen > 0
  · rw [if_pos hd, if_pos hd, List.flatMap_append]
    obtain ⟨f', l', hf', hx⟩ := does_flushRun h2 r.steep c ⟨_, _, _⟩
    refine ⟨f', l', FillLeft.trans (s := s) hf hf', ?_⟩
    rw [hx, performs_working, working_working, performs_append]
    congr 5
    rw [List.flatMap_singleton]
    exact runEvents_congr (by simp) (by simp) (by simp) _ _ _
  · rw [if_neg hd, if_neg hd, List.append_nil]
    exact ⟨f, l, hf, rfl⟩

/-! ## Scratch blits (R263) -/

theorem does_blitScratch {K : List Half} {s : State} (h : TransportUp s)
    (x y w h' : Int) :
    Does K (blitScratch x y w h') s
      (blitEvents s x y w h' (s.scratch.take (2 * (extent w * extent h')))) := by
  unfold Does blitScratch
  rw [withState_apply]
  refine does_pixelStream h _ _ _ _ fun _ t ht _ _ _ _ hs => ?_
  have := (makes_chunkStream ht (2 * (extent w * extent h')) _ s.cfg.scratchChunk.2).does (K := K)
  rwa [hs] at this

theorem blitEvents_congr {s t : State} (hc : t.cfg = s.cfg) (hw : t.width = s.width)
    (hh : t.height = s.height) (x y w h : Int) (bytes : List Byte) :
    blitEvents t x y w h bytes = blitEvents s x y w h bytes := by
  simp only [blitEvents, streamEvents_congr hc hw hh, hc]

/-! ## Control sequences (R310 to R319) -/

theorem makes_hardResetSeq (s : State) : Makes hardResetSeq s (hardResetEvents s.cfg) := by
  have hrst : ∀ (t : State) (l : Act), t.cfg.hasRst = true → Makes (setRst l) t [.rst l] := by
    intro t l ht
    have := makes_setRst t l
    rwa [if_pos ht] at this
  have hdelay : ∀ (t : State) (d : Config → Nat), t.cfg = s.cfg →
      Makes (delayFor d) t [.delay (d s.cfg)] := by
    intro t d ht
    have := makes_delayFor t d
    rwa [ht] at this
  unfold Makes hardResetSeq hardResetEvents
  rw [withState_apply]
  by_cases hr : s.cfg.hasRst = true
  · rw [if_pos hr, if_pos hr]
    have h4 := hdelay (((s.performs [.rst .active]).performs [.delay s.cfg.tRstPulse]).performs
      [.rst .inactive]) Config.tRstRecover (by simp)
    have h3 := makes_bind (hrst ((s.performs [.rst .active]).performs [.delay s.cfg.tRstPulse])
      .inactive (by simpa using hr)) h4
    have h2 := makes_bind (hdelay (s.performs [.rst .active]) Config.tRstPulse (by simp)) h3
    exact makes_bind (hrst s .active hr) h2
  · rw [if_neg hr, if_neg hr]
    exact makes_pure s

theorem makes_softResetSeq {s : State} (h : TransportUp s) :
    Makes softResetSeq s (softResetEvents s.cfg) := by
  have a := makes_sendCmd h Config.cmdSwreset []
  have b := makes_delayFor (s.performs (sendEvents s.cfg (some s.cfg.cmdSwreset) []))
    Config.tSwreset
  simp only [State_performs_cfg] at b
  exact makes_bind a b

theorem makes_initResetSeq {s : State} (h : TransportUp s) :
    Makes initResetSeq s (initResetEvents s.cfg s.cfg.initReset) := by
  unfold Makes initResetSeq
  rw [withState_apply]
  cases s.cfg.initReset with
  | hardThenSoft =>
    have b := makes_softResetSeq (transportUp_performs h (hardResetEvents s.cfg))
    simp only [State_performs_cfg] at b
    exact makes_bind (makes_hardResetSeq s) b
  | hard => exact makes_hardResetSeq s
  | soft => exact makes_softResetSeq h

/-- The registers of a rotation and the events do not touch each other. -/
theorem performs_rotated (s : State) (n : Nat) (es : List Event) :
    (s.rotated n).performs es = (s.performs es).rotated n := rfl

theorem transportUp_rotated {s : State} (h : TransportUp s) (n : Nat) :
    TransportUp (s.rotated n) := h

@[simp] theorem rotated_cfg (s : State) (n : Nat) : (s.rotated n).cfg = s.cfg := rfl
@[simp] theorem rotated_mem (s : State) (n : Nat) : (s.rotated n).mem = s.mem := rfl

theorem rotation_lt (s : State) (n : Nat) : n % s.cfg.variant.count < 8 := by
  cases s.cfg.variant <;> exact Nat.lt_of_lt_of_le (Nat.mod_lt n (by decide)) (by decide)

/-- The odd rotations swap (R171). -/
theorem rotationRow_swap : ∀ r < 8, (rotationRow r).swap = decide (r % 2 = 1) := by decide

theorem rotatedWidth_eq (c : Config) {r : Nat} (h : r < 8) :
    rotatedWidth c r = if r % 2 = 1 then c.physH else c.physW := by
  simp [rotatedWidth, rotationRow_swap r h]

theorem rotatedHeight_eq (c : Config) {r : Nat} (h : r < 8) :
    rotatedHeight c r = if r % 2 = 1 then c.physW else c.physH := by
  simp [rotatedHeight, rotationRow_swap r h]

/-- `RotationSeq(n)`: the registers, then the orientation byte (R170). -/
theorem rotationSeq_eq {s : State} (h : TransportUp s) (n : Nat) :
    rotationSeq n s = .ok () ((s.rotated n).performs (sendEvents s.cfg (some s.cfg.cmdMadctl)
      [orientation s.cfg (n % s.cfg.variant.count)])) := by
  have e : setRotation (n % s.cfg.variant.count) s = .ok () (s.rotated n) := by
    unfold setRotation State.rotated
    rw [update_apply, rotatedWidth_eq _ (rotation_lt s n), rotatedHeight_eq _ (rotation_lt s n)]
  exact (cmd_bind_ok e).trans (makes_sendCmd (transportUp_rotated h n) _ _)

end Sys2Proof.Machine
end

