-- ==== Sys2Proof/Laws/Decoding.lean ====
section
/-! SUPPORT. What the bit reader, the glyph and the bitmap engines do when nothing fails
(spec/43_glyph_bitmap.md). -/

namespace Sys2Proof.Machine

/-! ## The bit reader (R260, R264) -/

/-- The bits of the stream from bit `pos` on, onto the value read so far. -/
def sampleOnto (m : Memory) (base pos v k : Nat) : Nat :=
  (List.range k).foldl (fun v i => 2 * v + (streamBit m base (pos + i)).toNat) v

theorem sampleOnto_succ (m : Memory) (base pos v k : Nat) :
    sampleOnto m base pos v (k + 1) =
      sampleOnto m base (pos + 1) (2 * v + (streamBit m base pos).toNat) k := by
  unfold sampleOnto
  rw [List.range_succ_eq_map, List.foldl_cons, List.foldl_map]
  simp only [Nat.add_zero, Nat.succ_eq_add_one, Nat.add_comm, Nat.add_left_comm]

theorem bitReadFrom_ok (v k p : Nat) {s : State}
    (h : k = 0 ∨ s.bitBase.toNat * 8 + p + k ≤ s.cfg.resMemSize * 8) :
    bitReadFrom v k (s.atBit p) =
      .ok (sampleOnto s.mem s.bitBase.toNat p v k) (s.atBit (p + k)) := by
  induction k generalizing v p with
  | zero => rfl
  | succ k ih =>
    have h := h.resolve_left (Nat.succ_ne_zero k)
    have hr : (s.atBit p).bitBase.toNat + (s.atBit p).bitIndex / 8
        < (s.atBit p).cfg.resMemSize := by
      simp only [State_atBit_bitBase, State_atBit_bitIndex, State_atBit_cfg]
      omega
    have hn := ih (2 * v + (streamBit s.mem s.bitBase.toNat p).toNat) (p + 1) (.inr (by omega))
    rw [sampleOnto_succ, show p + (k + 1) = p + 1 + k by omega, ← hn]
    have e : update (fun t => t.atBit (t.bitIndex + 1)) (s.atBit p) = .ok () (s.atBit (p + 1)) := by
      rw [update_apply, State_atBit_bitIndex, State_atBit_atBit]
    refine (cmd_bind_ok (memRead8_ok hr)).trans ((cmd_bind_ok e).trans ?_)
    simp only [State_atBit_bitIndex]
    rfl

/-- `BitRead(K)` of bits that can be read (R260). -/
theorem bitRead_ok {s : State} {p k : Nat}
    (h : k = 0 ∨ s.bitBase.toNat * 8 + p + k ≤ s.cfg.resMemSize * 8) :
    bitRead k (s.atBit p) = .ok (sampleAt s.mem s.bitBase.toNat p k) (s.atBit (p + k)) :=
  bitReadFrom_ok 0 k p h

/-! ## Loops that collect bytes -/

/-- A loop whose every turn reads and leaves the state alone. -/
theorem collectBytes_pure {body : Nat → Cmd (List Byte)} {f : Nat → List Byte} {s : State}
    (n a : Nat) (h : ∀ i, a ≤ i → i < a + n → body i s = .ok (f i) s) :
    collectBytes n a body s = .ok ((List.range' a n).flatMap f) s := by
  induction n generalizing a with
  | zero => rfl
  | succ n ih =>
    have h1 := ih (a + 1) fun i h1 h2 => h i (by omega) (by omega)
    rw [List.range'_succ, List.flatMap_cons]
    exact (cmd_bind_ok (h a (Nat.le_refl a) (by omega))).trans (cmd_bind_ok h1)

/-- A loop whose every turn advances the cursor by k bits, from bit p on. -/
theorem collectBytes_cursor {body : Nat → Cmd (List Byte)} {f : Nat → List Byte} {s : State}
    (k n a p : Nat)
    (h : ∀ i < n, ∀ q, q = p + i * k → body (a + i) (s.atBit q) = .ok (f q) (s.atBit (q + k))) :
    collectBytes n a body (s.atBit p) =
      .ok ((List.range n).flatMap fun i => f (p + i * k)) (s.atBit (p + n * k)) := by
  induction n generalizing a p with
  | zero => simp [collectBytes]
  | succ n ih =>
    have h0 := h 0 (by omega) p (by omega)
    rw [Nat.add_zero] at h0
    have hn := ih (a + 1) (p + k) fun i hi q hq => by
      have := h (i + 1) (by omega) q (by rw [hq]; ring)
      rw [show a + 1 + i = a + (i + 1) by omega]
      exact this
    refine (cmd_bind_ok h0).trans ((cmd_bind_ok hn).trans ?_)
    simp only [cmd_pure_apply]
    congr 1
    · rw [List.range_succ_eq_map, List.flatMap_cons, List.flatMap_map, Nat.zero_mul, Nat.add_zero]
      congr 2
      funext i
      congr 1
      simp only [Nat.succ_eq_add_one]; ring
    · congr 1; ring

/-! ## Raster glyphs (R271) -/

theorem flatMap_readBytes (m : Memory) (g : Byte → List Byte) (addr n : Nat) :
    (m.readBytes addr n).flatMap g = (List.range n).flatMap fun i => g (m.read (addr + i)) := by
  rw [Memory.readBytes, List.flatMap_map]

/-- Rows of a rectangle are its cells, row by row. -/
theorem flatMap_rows (f : Nat → List Byte) (rows cols : Nat) :
    ((List.range rows).flatMap fun r => (List.range cols).flatMap fun c => f (r * cols + c)) =
      (List.range (rows * cols)).flatMap f := by
  induction rows with
  | zero => simp
  | succ r ih =>
    rw [List.range_succ, List.flatMap_append, ih, Nat.add_mul, Nat.one_mul, List.range_add,
      List.flatMap_append, List.flatMap_map]
    simp

/-- The eight pixels of a byte are its bits of the stream. -/
theorem rasterByte_eq (fg bg : Half) (m : Memory) (base i : Nat) :
    rasterByte fg bg (m.read (base + i)) = (List.range 8).flatMap fun b =>
      be16 (if streamBit m base (i * 8 + b) then fg else bg) := by
  unfold rasterByte streamBit
  refine List.flatMap_congr fun b hb => ?_
  rw [List.mem_range] at hb
  rw [show (i * 8 + b) / 8 = i by omega, show (i * 8 + b) % 8 = b by omega]

/-- Two bytes a pixel. -/
theorem flatMap_be16_length (f : Nat → Half) (n : Nat) :
    ((List.range n).flatMap fun i => be16 (f i)).length = 2 * n := by
  simp [List.length_flatMap, be16_length, Nat.mul_comm]

theorem rasterPixels_length (m : Memory) (a : TextArgs) (ch : Nat) :
    (rasterPixels m a ch).length = a.w * a.h * 2 := by
  unfold rasterPixels
  rw [flatMap_be16_length]
  ring

theorem rasterGlyph_ok {s : State} (a : TextArgs) (ch : Nat) (hw : a.w % 8 = 0)
    (h : Readable s (glyphAddress a ch) (a.h * (a.w / 8))) :
    rasterGlyph a ch s = .ok (rasterPixels s.mem a ch) s := by
  have hin : ∀ row < a.h, ∀ b < a.w / 8,
      glyphAddress a ch + row * (a.w / 8) + b < s.cfg.resMemSize := by
    intro row hr b hb
    have h1 : (row + 1) * (a.w / 8) ≤ a.h * (a.w / 8) := Nat.mul_le_mul_right _ hr
    rw [Nat.add_mul, Nat.one_mul] at h1
    have := h.resolve_left (by omega)
    omega
  have hb : ∀ row, 0 ≤ row → row < 0 + a.h →
      collectBytes (a.w / 8) 0 (fun b => do
        let byte ← memRead8 (glyphAddress a ch + row * (a.w / 8) + b)
        pure (rasterByte a.fg a.bg byte)) s =
      .ok ((List.range (a.w / 8)).flatMap fun b =>
        rasterByte a.fg a.bg (s.mem.read (glyphAddress a ch + (row * (a.w / 8) + b)))) s := by
    intro row _ hr
    have := collectBytes_pure (s := s)
      (body := fun b => do
        let byte ← memRead8 (glyphAddress a ch + row * (a.w / 8) + b)
        pure (rasterByte a.fg a.bg byte))
      (f := fun b => rasterByte a.fg a.bg
        (s.mem.read (glyphAddress a ch + row * (a.w / 8) + b))) (a.w / 8) 0
      fun b _ hb => cmd_bind_ok (memRead8_ok (hin row (by omega) b (by omega)))
    rw [← List.range_eq_range'] at this
    simpa only [Nat.add_assoc] using this
  have := collectBytes_pure (s := s) a.h 0 hb
  rw [← List.range_eq_range', flatMap_rows fun i =>
    rasterByte a.fg a.bg (s.mem.read (glyphAddress a ch + i))] at this
  refine Eq.trans this ?_
  congr 1
  simp only [rasterByte_eq]
  rw [flatMap_rows fun i => be16 (if streamBit s.mem (glyphAddress a ch) i then a.fg else a.bg),
    Nat.mul_assoc, Nat.div_mul_cancel (Nat.dvd_of_mod_eq_zero hw)]
  rfl

/-! ## What a glyph or bitmap engine leaves behind -/

/-- The registers an engine works in: the line-engine registers, the glyph/bitmap scratch, the cursor
and the draws of the acquisitions. -/
structure Work where
  line : Option LineRegs
  scratch : List Byte
  held : Option Nat
  bitBase : BitVec 32
  bitPos : BitVec 35
  bitOver : Option Nat
  alloc : List Bool

/-- A state with other working registers. -/
def State.worked (s : State) (w : Work) : State :=
  { s with
    line := w.line, scratch := w.scratch, scratchHeld := w.held, bitBase := w.bitBase
    bitPos := w.bitPos, bitOver := w.bitOver, allocDraws := w.alloc }

/-- The working registers of a state. -/
def State.work (s : State) : Work :=
  ⟨s.line, s.scratch, s.scratchHeld, s.bitBase, s.bitPos, s.bitOver, s.allocDraws⟩

theorem worked_self (s : State) : s.worked s.work = s := rfl

@[simp] theorem worked_worked (s : State) (w w' : Work) :
    (s.worked w).worked w' = s.worked w' := rfl
@[simp] theorem worked_cfg (s : State) (w : Work) : (s.worked w).cfg = s.cfg := rfl
@[simp] theorem worked_width (s : State) (w : Work) : (s.worked w).width = s.width := rfl
@[simp] theorem worked_height (s : State) (w : Work) : (s.worked w).height = s.height := rfl
@[simp] theorem worked_mem (s : State) (w : Work) : (s.worked w).mem = s.mem := rfl
@[simp] theorem worked_allocDraws (s : State) (w : Work) : (s.worked w).allocDraws = w.alloc := rfl
@[simp] theorem worked_scratch (s : State) (w : Work) : (s.worked w).scratch = w.scratch := rfl

theorem performs_worked (s : State) (w : Work) (es : List Event) :
    (s.worked w).performs es = (s.performs es).worked w := rfl

theorem transportUp_worked {s : State} (h : TransportUp s) (w : Work) : TransportUp (s.worked w) :=
  h

/-- From s, c answers a, makes the events es, leaves the draws `al` of the acquisitions, and changes
nothing but working registers besides. -/
def Gives {α : Type} (c : Cmd α) (s : State) (a : α) (es : List Event) (al : List Bool) : Prop :=
  ∃ w : Work, w.alloc = al ∧ c s = .ok a ((s.performs es).worked w)

theorem gives_bind {α β : Type} {c : Cmd α} {k : α → Cmd β} {s : State} {a : α} {b : β}
    {es es' : List Event} {al al' : List Bool} (hc : Gives c s a es al)
    (hk : ∀ w : Work, w.alloc = al → Gives (k a) ((s.performs es).worked w) b es' al') :
    Gives (c >>= k) s b (es ++ es') al' := by
  obtain ⟨w, hw, hc⟩ := hc
  obtain ⟨w', hw', hk⟩ := hk w hw
  refine ⟨w', hw', ?_⟩
  rw [cmd_bind_ok hc, hk, performs_worked, worked_worked, performs_append]

/-- A read that answers and leaves the state alone. -/
theorem gives_read_bind {α β : Type} {c : Cmd α} {k : α → Cmd β} {s : State} {a : α} {b : β}
    {es : List Event} {al : List Bool} (hc : c s = .ok a s) (hk : Gives (k a) s b es al) :
    Gives (c >>= k) s b es al := by
  obtain ⟨w, hw, hk⟩ := hk
  exact ⟨w, hw, by rw [cmd_bind_ok hc, hk]⟩

theorem gives_pure {α : Type} (a : α) (s : State) : Gives (pure a) s a [] s.allocDraws :=
  ⟨s.work, rfl, by rw [performs_nil]; rfl⟩

/-- A piece of pseudocode from a state with other working registers. -/
theorem gives_worked {α : Type} {c : Cmd α} {s : State} {w : Work} {a : α} {es : List Event}
    {al : List Bool} : Gives c (s.worked w) a es al ↔
      ∃ w' : Work, w'.alloc = al ∧ c (s.worked w) = .ok a ((s.performs es).worked w') := by
  unfold Gives
  simp only [performs_worked, worked_worked]

/-! ## Acquisitions (R262) -/

/-- The draws left after one acquisition, then k more. -/
theorem allocLeft_add (s t : State) (k : Nat) (hc : t.cfg = s.cfg)
    (ha : t.allocDraws = allocLeft s 1) : allocLeft t k = allocLeft s (k + 1) := by
  unfold allocLeft at *
  rw [hc]
  revert ha
  cases s.cfg.scratch with
  | resident cap => exact fun ha => ha
  | transient =>
    intro ha
    simp only at ha ⊢
    rw [ha, List.drop_drop, Nat.add_comm 1 k]

theorem allocLeft_zero (s : State) : allocLeft s 0 = s.allocDraws := by
  unfold allocLeft
  cases s.cfg.scratch <;> rfl

theorem scratchFor_congr {s t : State} {n : Nat} (h : ScratchFor s n) (hc : t.cfg = s.cfg) :
    ScratchFor t n := by
  unfold ScratchFor at *
  rwa [hc]

/-- The first of k + 1 acquisitions, and the others. -/
theorem allocUp_head {s : State} {k : Nat} (h : AllocUp s (k + 1)) : AllocUp s 1 := by
  intro hs b hb
  exact h hs b ((List.take_subset_take_left _ (by omega)) hb)

theorem allocUp_tail {s t : State} {k : Nat} (h : AllocUp s (k + 1)) (hc : t.cfg = s.cfg)
    (ha : t.allocDraws = allocLeft s 1) : AllocUp t k := by
  intro ht b hb
  rw [hc] at ht
  refine h ht b ?_
  unfold allocLeft at ha
  rw [ht] at ha
  rw [ha] at hb
  cases hd : s.allocDraws with
  | nil => rw [hd] at hb; simp at hb
  | cons d ds =>
    rw [hd] at hb
    rw [List.take_succ_cons]
    exact List.mem_cons_of_mem _ hb

/-- A state in which the scratch is held for n bytes and holds these, one acquisition taken. -/
def State.holding (s : State) (n : Nat) (bytes : List Byte) : State :=
  s.worked { s.work with alloc := allocLeft s 1, held := some n, scratch := bytes }

@[simp] theorem holding_cfg (s : State) (n : Nat) (b : List Byte) :
    (s.holding n b).cfg = s.cfg := rfl
@[simp] theorem holding_width (s : State) (n : Nat) (b : List Byte) :
    (s.holding n b).width = s.width := rfl
@[simp] theorem holding_height (s : State) (n : Nat) (b : List Byte) :
    (s.holding n b).height = s.height := rfl
@[simp] theorem holding_mem (s : State) (n : Nat) (b : List Byte) :
    (s.holding n b).mem = s.mem := rfl
@[simp] theorem holding_scratch (s : State) (n : Nat) (b : List Byte) :
    (s.holding n b).scratch = b := rfl
@[simp] theorem holding_allocDraws (s : State) (n : Nat) (b : List Byte) :
    (s.holding n b).allocDraws = allocLeft s 1 := rfl

/-- An acquired buffer has room for what was asked for. -/
theorem holding_scratchSize {s : State} {n : Nat} (h : ScratchFor s n) (b : List Byte) :
    n ≤ (s.holding n b).scratchSize := by
  have e : (s.holding n b).scratchSize = match s.cfg.scratch with
    | .resident cap => cap.toNat
    | .transient => n := rfl
  rw [e]
  cases hs : s.cfg.scratch with
  | resident cap => have := h cap hs; simp only; omega
  | transient => exact Nat.le_refl n

/-- An acquisition that does not fail takes one draw. -/
theorem acquireScratch_ok {s : State} {n : Nat} (h : ScratchFor s n) (ha : AllocUp s 1) :
    ∃ b, acquireScratch n s = .ok () (s.holding n b) := by
  unfold acquireScratch State.holding allocLeft
  cases hs : s.cfg.scratch with
  | resident cap =>
    refine ⟨s.scratch, ?_⟩
    have : ¬ (n : Int) > cap := by have := h cap hs; omega
    simp only [this, if_false]
    rfl
  | transient =>
    refine ⟨[], ?_⟩
    have : s.nextAllocOk = true := by
      unfold State.nextAllocOk
      cases hd : s.allocDraws with
      | nil => rfl
      | cons b bs => exact ha hs b (by simp [hd])
    simp only [this, if_true, List.drop_one]
    rfl

/-- A use of the scratch: the body runs from the acquired state and the scratch is released. -/
theorem gives_withScratch {α : Type} {n : Nat} {body : Cmd α} {s : State} {a : α}
    {es : List Event} (h : ScratchFor s n) (ha : AllocUp s 1)
    (hb : ∀ b, Gives body (s.holding n b) a es (allocLeft s 1)) :
    Gives (withScratch n body) s a es (allocLeft s 1) := by
  obtain ⟨b, e⟩ := acquireScratch_ok h ha
  obtain ⟨w, hw, hb⟩ := gives_worked.1 (hb b)
  refine ⟨{ w with
    scratch := ((s.performs es).worked w).releaseScratch.scratch, held := none }, hw, ?_⟩
  refine (cmd_bind_ok e).trans ?_
  unfold releasing State.holding
  rw [hb]
  rfl

/-- Pixels that fill the acquisition are stored, and stand at its start. -/
theorem storeScratch_ok {s : State} {n : Nat} {bytes : List Byte} (hn : bytes.length = n)
    (hs : n ≤ s.scratchSize) :
    ∃ b, b.take n = bytes ∧ storeScratch bytes s = .ok () { s with scratch := b } := by
  refine ⟨_, ?_, rfl⟩
  rw [List.take_take, Nat.min_eq_left hs, List.take_append, hn, Nat.sub_self, List.take_zero,
    List.append_nil, List.take_of_length_le (Nat.le_of_eq hn)]

theorem fits_ok (s : State) (x w : Int) :
    fits x w s = .ok (decide (x + w - 1 < s.width.toNat)) s := rfl

/-- The scratch blit of a decoded glyph or bitmap, if it fits. -/
theorem gives_blitIf {s : State} (h : TransportUp s) (fit : Bool)
    (x y w h' : Int) :
    Gives (blitIf fit x y w h') s ()
      (if fit then blitEvents s x y w h' (s.scratch.take (2 * (extent w * extent h'))) else [])
      s.allocDraws := by
  unfold blitIf
  cases fit with
  | false => exact gives_pure () s
  | true =>
    obtain ⟨f, l, hf, hd⟩ := does_blitScratch (K := []) h x y w h'
    rcases hf with rfl | ⟨c, hc, -⟩
    · refine ⟨{ s.work with line := l }, rfl, ?_⟩
      simp only [if_true]
      rw [hd]
      rfl
    · cases hc

/-- The end of every glyph and bitmap: the decoded pixels are stored and blitted if they fit (R263). -/
theorem gives_blitDecoded {s : State} (h : TransportUp s)
    {bytes : List Byte} {x y w h' : Int} (hn : bytes.length = 2 * (extent w * extent h'))
    (hs : bytes.length ≤ s.scratchSize) :
    Gives (blitDecoded bytes x y w h') s (decide (x + w - 1 < s.width.toNat))
      (if x + w - 1 < s.width.toNat then blitEvents s x y w h' bytes else []) s.allocDraws := by
  obtain ⟨b, hb, e⟩ := storeScratch_ok hn (hn ▸ hs)
  obtain ⟨v, hv, hg⟩ := gives_blitIf (s := { s with scratch := b }) h
    (decide (x + w - 1 < s.width.toNat)) x y w h'
  simp only [hb, decide_eq_true_eq] at hg
  exact ⟨v, hv, (cmd_bind_ok e).trans ((cmd_bind_ok (fits_ok _ _ _)).trans (cmd_bind_ok hg))⟩

end Sys2Proof.Machine
end

