-- ==== Sys2Proof/Laws/Encoding.lean ====
section
/-! SUPPORT. The fields of a packed word are the parts it was packed from, and a word whose must-be-0
bits are 0 is packed from its fields (spec/30_encoding.md R111, R112, R113). -/

namespace Sys2Proof

/-- The bits of a packed header (R111). -/
theorem packHeader_bit (opc a b : Byte) (i : Nat) :
    (packHeader opc a b).getLsbD i =
      if i < 8 then opc.getLsbD i else if i < 16 then a.getLsbD (i - 8)
      else if i < 24 then b.getLsbD (i - 16) else false := by
  change BitVec.getLsbD (w := 8 + 8 + 8 + 8) ((0 : Byte) ++ b ++ a ++ opc) i = _
  rw [BitVec.getLsbD_append, BitVec.getLsbD_append, BitVec.getLsbD_append]
  by_cases h8 : i < 8
  · rw [if_pos h8, if_pos h8]
  · rw [if_neg h8, if_neg h8]
    by_cases h16 : i < 16
    · rw [if_pos (by omega), if_pos h16]
    · rw [if_neg (by omega), if_neg h16]
      by_cases h24 : i < 24
      · rw [if_pos (by omega), if_pos h24]
        congr 1
      · rw [if_neg (by omega), if_neg h24]
        exact BitVec.getLsbD_zero

/-- The bits of two packed halves (R112). -/
theorem packHalves_bit (lo hi : Half) (i : Nat) :
    (packHalves lo hi).getLsbD i = if i < 16 then lo.getLsbD i else hi.getLsbD (i - 16) := by
  change BitVec.getLsbD (w := 16 + 16) (hi ++ lo) i = _
  rw [BitVec.getLsbD_append]

/-- The bits of four packed bytes (R112). -/
theorem packBytes_bit (b0 b1 b2 b3 : Byte) (i : Nat) :
    (packBytes b0 b1 b2 b3).getLsbD i =
      if i < 8 then b0.getLsbD i else if i < 16 then b1.getLsbD (i - 8)
      else if i < 24 then b2.getLsbD (i - 16) else b3.getLsbD (i - 24) := by
  change BitVec.getLsbD (w := 8 + 8 + 8 + 8) (b3 ++ b2 ++ b1 ++ b0) i = _
  rw [BitVec.getLsbD_append, BitVec.getLsbD_append, BitVec.getLsbD_append]
  by_cases h8 : i < 8
  · rw [if_pos h8, if_pos h8]
  · rw [if_neg h8, if_neg h8]
    by_cases h16 : i < 16
    · rw [if_pos (by omega), if_pos h16]
    · rw [if_neg (by omega), if_neg h16]
      by_cases h24 : i < 24
      · rw [if_pos (by omega), if_pos h24]
        congr 1
      · rw [if_neg (by omega), if_neg h24]
        congr 1

/-- A field is the bits it takes. -/
theorem field_eq {n : Nat} (w : Word) (start : Nat) (v : BitVec n)
    (h : ∀ i < n, w.getLsbD (start + i) = v.getLsbD i) : w.extractLsb' start n = v := by
  apply BitVec.eq_of_getLsbD_eq
  intro i hi
  rw [BitVec.getLsbD_extractLsb', h i hi]
  simp [hi]

@[simp] theorem headerOpc_pack (opc a b : Byte) : headerOpc (packHeader opc a b) = opc :=
  field_eq _ _ _ fun i hi => by rw [packHeader_bit, if_pos (by omega), Nat.zero_add]

@[simp] theorem headerA_pack (opc a b : Byte) : headerA (packHeader opc a b) = a :=
  field_eq _ _ _ fun i hi => by
    rw [packHeader_bit, if_neg (by omega), if_pos (by omega), Nat.add_sub_cancel_left]

@[simp] theorem headerB_pack (opc a b : Byte) : headerB (packHeader opc a b) = b :=
  field_eq _ _ _ fun i hi => by
    rw [packHeader_bit, if_neg (by omega), if_neg (by omega), if_pos (by omega),
      Nat.add_sub_cancel_left]

@[simp] theorem headerRsv_pack (opc a b : Byte) : headerRsv (packHeader opc a b) = 0 :=
  field_eq _ _ _ fun i hi => by
    rw [packHeader_bit, if_neg (by omega), if_neg (by omega), if_neg (by omega)]
    exact BitVec.getLsbD_zero.symm

@[simp] theorem lowHalf_pack (lo hi : Half) : lowHalf (packHalves lo hi) = lo :=
  field_eq _ _ _ fun i h => by rw [packHalves_bit, if_pos (by omega), Nat.zero_add]

@[simp] theorem highHalf_pack (lo hi : Half) : highHalf (packHalves lo hi) = hi :=
  field_eq _ _ _ fun i h => by rw [packHalves_bit, if_neg (by omega), Nat.add_sub_cancel_left]

@[simp] theorem wordByte_pack_zero (b0 b1 b2 b3 : Byte) :
    wordByte (packBytes b0 b1 b2 b3) 0 = b0 :=
  field_eq _ _ _ fun i hi => by rw [packBytes_bit, if_pos (by omega)]; congr 1; omega

@[simp] theorem wordByte_pack_one (b0 b1 b2 b3 : Byte) :
    wordByte (packBytes b0 b1 b2 b3) 1 = b1 :=
  field_eq _ _ _ fun i hi => by
    rw [packBytes_bit, if_neg (by omega), if_pos (by omega)]; congr 1; omega

@[simp] theorem wordByte_pack_two (b0 b1 b2 b3 : Byte) :
    wordByte (packBytes b0 b1 b2 b3) 2 = b2 :=
  field_eq _ _ _ fun i hi => by
    rw [packBytes_bit, if_neg (by omega), if_neg (by omega), if_pos (by omega)]; congr 1; omega

@[simp] theorem wordByte_pack_three (b0 b1 b2 b3 : Byte) :
    wordByte (packBytes b0 b1 b2 b3) 3 = b3 :=
  field_eq _ _ _ fun i hi => by
    rw [packBytes_bit, if_neg (by omega), if_neg (by omega), if_neg (by omega)]; congr 1; omega

/-- Two words with the same bits. -/
theorem word_ext {v w : Word} (h : ∀ i < 32, v.getLsbD i = w.getLsbD i) : v = w :=
  BitVec.eq_of_getLsbD_eq h

/-- The bits of a field. -/
theorem field_bit (w : Word) (start n i : Nat) (h : i < n) :
    (w.extractLsb' start n).getLsbD i = w.getLsbD (start + i) := by
  rw [BitVec.getLsbD_extractLsb']
  simp [h]

/-- A header is packed from its fields (R111). -/
theorem packHeader_unpack (h : Word) (hr : headerRsv h = 0) :
    packHeader (headerOpc h) (headerA h) (headerB h) = h := by
  refine word_ext fun i hi => ?_
  rw [packHeader_bit]
  unfold headerOpc headerA headerB
  split
  · rw [field_bit _ _ _ _ (by omega), Nat.zero_add]
  · split
    · rw [field_bit _ _ _ _ (by omega)]; congr 1; omega
    · split
      · rw [field_bit _ _ _ _ (by omega)]; congr 1; omega
      · have := congrArg (fun v : Byte => v.getLsbD (i - 24)) hr
        simp only [headerRsv] at this
        rw [field_bit _ _ _ _ (by omega), show 24 + (i - 24) = i by omega] at this
        rw [this]
        exact BitVec.getLsbD_zero.symm

/-- A word is its two halves. -/
theorem packHalves_unpack (w : Word) : packHalves (lowHalf w) (highHalf w) = w := by
  refine word_ext fun i hi => ?_
  rw [packHalves_bit]
  unfold lowHalf highHalf
  split
  · rw [field_bit _ _ _ _ (by omega), Nat.zero_add]
  · rw [field_bit _ _ _ _ (by omega)]; congr 1; omega

/-- A word is its four bytes. -/
theorem packBytes_unpack (w : Word) :
    packBytes (wordByte w 0) (wordByte w 1) (wordByte w 2) (wordByte w 3) = w := by
  refine word_ext fun i hi => ?_
  rw [packBytes_bit]
  unfold wordByte
  split
  · rw [field_bit _ _ _ _ (by omega)]; congr 1; omega
  · split
    · rw [field_bit _ _ _ _ (by omega)]; congr 1; omega
    · split
      · rw [field_bit _ _ _ _ (by omega)]; congr 1; omega
      · rw [field_bit _ _ _ _ (by omega)]; congr 1; omega

/-- The bits of a mask that are 0 in a word. -/
theorem and_eq_zero_iff {n : Nat} (w m : BitVec n) :
    w &&& m = 0 ↔ ∀ i, m.getLsbD i = true → w.getLsbD i = false := by
  constructor
  · intro h i hi
    have := congrArg (fun v : BitVec n => v.getLsbD i) h
    simpa [hi] using this
  · intro h
    ext i hi
    have := h i
    rw [BitVec.getLsbD_eq_getElem hi, BitVec.getLsbD_eq_getElem hi] at this
    simp only [BitVec.getElem_and]
    cases hm : m[i] <;> simp_all

/-- A word whose high half must be 0 and is, is its low half alone. -/
theorem packLow_unpack (w : Word) (h : w &&& 0xFFFF0000 = 0) : packLow (lowHalf w) = w := by
  have hm : ∀ i < 16, (0xFFFF0000 : Word).getLsbD (16 + i) = true := by decide
  have hz : highHalf w = 0 := field_eq _ _ _ fun i hi => by
    rw [(and_eq_zero_iff w 0xFFFF0000).1 h (16 + i) (hm i hi)]
    exact BitVec.getLsbD_zero.symm
  rw [packLow, ← hz, packHalves_unpack]

/-- A word whose three high bytes must be 0 and are, is its low byte alone. -/
theorem packByte_unpack (w : Word) (h : w &&& 0xFFFFFF00 = 0) :
    packBytes (wordByte w 0) 0 0 0 = w := by
  have hm : ∀ i < 32, 8 ≤ i → (0xFFFFFF00 : Word).getLsbD i = true := by decide
  have hz : ∀ k, 1 ≤ k → k < 4 → wordByte w k = 0 := fun k h1 h2 => field_eq _ _ _ fun i hi => by
    rw [(and_eq_zero_iff w 0xFFFFFF00).1 h (8 * k + i) (hm _ (by omega) (by omega))]
    exact BitVec.getLsbD_zero.symm
  have := packBytes_unpack w
  rwa [hz 1 (by omega) (by omega), hz 2 (by omega) (by omega), hz 3 (by omega) (by omega)] at this

/-- A packed low half has no must-be-0 bit set. -/
@[simp] theorem packLow_mask (v : Half) : packLow v &&& 0xFFFF0000#32 = 0#32 := by
  apply (and_eq_zero_iff _ _).2
  intro i hi
  have hm : ∀ i < 32, (0xFFFF0000 : Word).getLsbD i = true → 16 ≤ i := by decide
  have := hm i (BitVec.lt_of_getLsbD hi) hi
  rw [packLow, packHalves_bit, if_neg (by omega)]
  exact BitVec.getLsbD_zero

/-- A packed single byte has no must-be-0 bit set. -/
@[simp] theorem packByte_mask (v : Byte) :
    packBytes v 0#8 0#8 0#8 &&& 0xFFFFFF00#32 = 0#32 := by
  apply (and_eq_zero_iff _ _).2
  intro i hi
  have hm : ∀ i < 32, (0xFFFFFF00 : Word).getLsbD i = true → 8 ≤ i := by decide
  have := hm i (BitVec.lt_of_getLsbD hi) hi
  rw [packBytes_bit, if_neg (by omega)]
  split
  · exact BitVec.getLsbD_zero
  · split <;> exact BitVec.getLsbD_zero

/-- HASCMD and EN are read back from the byte they are packed into. -/
@[simp] theorem flagByte_bit (b : Bool) : (flagByte b).getLsbD 0 = b := by cases b <;> rfl

theorem flagByte_mask (b : Bool) : flagByte b &&& 0xFE = 0 := by cases b <;> rfl

@[simp] theorem lowHalf_packLow (v : Half) : lowHalf (packLow v) = v := lowHalf_pack v 0

/-- HASCMD is bit 0 of B (R117). -/
@[simp] theorem packHeader_hasCmd (opc a b : Byte) :
    (packHeader opc a b).getLsbD 16 = b.getLsbD 0 := by
  rw [packHeader_bit]
  rfl

@[simp] theorem packHeader_hasCmd_bit (opc a b : Byte) :
    (packHeader opc a b)[16] = b.getLsbD 0 := packHeader_hasCmd opc a b

/-- EN is bit 0 of A (R117). -/
@[simp] theorem packHeader_en (opc a b : Byte) :
    (packHeader opc a b).getLsbD 8 = a.getLsbD 0 := by
  rw [packHeader_bit]
  rfl

@[simp] theorem packHeader_en_bit (opc a b : Byte) :
    (packHeader opc a b)[8] = a.getLsbD 0 := packHeader_en opc a b

/-- How many words a list must have before its first command can be read (R118). -/
theorem decodeWords_known {h : Word} {ops : List Word} {row : OpcodeRow}
    (hr : opcodeRow (headerOpc h) = some row) :
    decodeWords (h :: ops) =
      if ops.length < row.formats.length then .incomplete (row.formats.length - ops.length)
      else checkCommand row h (ops.take row.formats.length) := by
  simp [decodeWords, hr]

/-- An opcode outside the map is illegal by its first word alone (R124). -/
theorem decodeWords_unknown {h : Word} (ops : List Word) (hr : opcodeRow (headerOpc h) = none) :
    decodeWords (h :: ops) = .illegal .opcode 1 := by
  simp [decodeWords, hr]

end Sys2Proof
end

