-- ==== Sys2Proof/Laws/Glyphs.lean ====
section
/-! SUPPORT. What the loops of TEXT, WRITE, WRITE_LEN and BITMAP do when nothing fails
(spec/43_glyph_bitmap.md R270 to R305). -/

namespace Sys2Proof.Machine

theorem extent_natCast (n : Nat) : extent (n : Int) = n := by
  unfold extent
  omega

/-! ## TEXT (R270, R272) -/

theorem gives_textGlyph {s : State} (h : TransportUp s) (a : TextArgs)
    (ch : Nat) (x : Int) (hw : a.w % 8 = 0)
    (hr : Readable s (glyphAddress a ch) (a.h * (a.w / 8))) (hs : ScratchFor s (a.w * a.h * 2))
    (ha : AllocUp s 1) :
    Gives (textGlyph a ch x) s (decide (x + a.w - 1 < s.width.toNat))
      (if x + a.w - 1 < s.width.toNat then blitEvents s x a.y a.w a.h (rasterPixels s.mem a ch)
       else []) (allocLeft s 1) := by
  refine gives_withScratch hs ha fun b => gives_read_bind
    (rasterGlyph_ok (s := s.holding (a.w * a.h * 2) b) a ch hw hr) ?_
  refine gives_blitDecoded (s := s.holding (a.w * a.h * 2) b) h ?_ ?_
  · rw [rasterPixels_length, extent_natCast, extent_natCast]
    ring
  · rw [rasterPixels_length]
    exact holding_scratchSize hs b

theorem textEvents_congr {s t : State} (hc : t.cfg = s.cfg) (hw : t.width = s.width)
    (hh : t.height = s.height) (hm : t.mem = s.mem) (a : TextArgs) (chs : List Byte) (x : Int) :
    textEvents t a chs x = textEvents s a chs x := by
  induction chs generalizing x with
  | nil => rfl
  | cons ch chs ih => simp only [textEvents, ih, blitEvents_congr hc hw hh, hw, hm]

/-- The first m characters of a TEXT whose reads and acquisitions succeed: their events are made and the
loop goes on behind them, the pen advanced by every character in range. -/
theorem textLoop_prefix (a : TextArgs) (m n i : Nat) (x : Int) {s : State} (h : TransportUp s)
    (hw : a.w % 8 = 0) (hr : Readable s (a.str + i) m)
    (hg : ∀ ch ∈ s.mem.readBytes (a.str + i) m, inRange a ch = true →
      Readable s (glyphAddress a ch.toNat) (a.h * (a.w / 8)) ∧ ScratchFor s (a.w * a.h * 2))
    (ha : AllocUp s ((s.mem.readBytes (a.str + i) m).countP (inRange a))) :
    ∃ v : Work,
      v.alloc = allocLeft s ((s.mem.readBytes (a.str + i) m).countP (inRange a)) ∧
      textLoop a (m + n) i x s =
        textLoop a n (i + m)
          (x + a.w * ((s.mem.readBytes (a.str + i) m).countP (inRange a) : Nat))
          ((s.performs (textEvents s a (s.mem.readBytes (a.str + i) m) x)).worked v) := by
  induction m generalizing i x s with
  | zero =>
    refine ⟨s.work, by simp [allocLeft_zero, State.work], ?_⟩
    simp only [Memory_readBytes_zero, textEvents, performs_nil, List.countP_nil, Nat.zero_add,
      Nat.add_zero, Nat.cast_zero, Int.mul_zero, Int.add_zero]
    rfl
  | succ m ih =>
    have hr := hr.resolve_left (Nat.succ_ne_zero m)
    have hr' : Readable s (a.str + (i + 1)) m := by
      rcases Nat.eq_zero_or_pos m with rfl | hm
      · exact .inl rfl
      · exact .inr (by omega)
    rw [Memory_readBytes_succ] at hg ha ⊢
    have hg' := fun ch hch => hg ch (List.mem_cons_of_mem _ hch)
    rw [Nat.add_assoc] at hg' ha ⊢
    have e0 := memRead8_ok (show a.str + i < s.cfg.resMemSize by omega)
    rw [show m + 1 + n = m + n + 1 by omega, show i + (m + 1) = i + 1 + m by omega, textLoop,
      cmd_bind_ok e0]
    by_cases hin : inRange a (s.mem.read (a.str + i)) = true
    · have hcond : a.first ≤ (s.mem.read (a.str + i)).toNat
          ∧ (s.mem.read (a.str + i)).toNat ≤ a.last := by simpa [inRange] using hin
      obtain ⟨h1, h2⟩ := hg _ List.mem_cons_self hin
      rw [List.countP_cons_of_pos hin] at ha
      rw [if_pos hcond, textEvents, if_pos hin, List.countP_cons_of_pos hin]
      obtain ⟨v, hv, hgl⟩ := gives_textGlyph h a (s.mem.read (a.str + i)).toNat x hw h1 h2
        (allocUp_head ha)
      rw [cmd_bind_ok hgl]
      generalize (if x + a.w - 1 < s.width.toNat then
        blitEvents s x a.y a.w a.h (rasterPixels s.mem a (s.mem.read (a.str + i)).toNat)
        else []) = es
      obtain ⟨v', hv', e⟩ := ih (i + 1) (x + a.w) (s := (s.performs es).worked v)
        (transportUp_worked (transportUp_performs h es) v) hr'
        (fun ch hch hin' => ⟨(hg' ch hch hin').1, scratchFor_congr (hg' ch hch hin').2 rfl⟩)
        (allocUp_tail ha rfl hv)
      refine ⟨v', hv'.trans (allocLeft_add s _ _ rfl hv), ?_⟩
      have hev := textEvents_congr (s := s) (t := (s.performs es).worked v) rfl rfl rfl rfl a
        (s.mem.readBytes (a.str + (i + 1)) m) (x + a.w)
      have hst : (((s.performs es).worked v).performs (textEvents ((s.performs es).worked v) a
          (s.mem.readBytes (a.str + (i + 1)) m) (x + a.w))).worked v'
          = (s.performs (es ++ textEvents s a (s.mem.readBytes (a.str + (i + 1)) m)
            (x + a.w))).worked v' := by
        rw [hev, performs_worked, worked_worked, performs_append]
      have hx : x + a.w + a.w * ((s.mem.readBytes (a.str + (i + 1)) m).countP (inRange a) : Nat)
          = x + a.w *
            (((s.mem.readBytes (a.str + (i + 1)) m).countP (inRange a) + 1 : Nat) : Int) := by
        push_cast
        ring
      exact e.trans (congr (congrArg (textLoop a n (i + 1 + m)) hx) hst)
    · have hcond : ¬ (a.first ≤ (s.mem.read (a.str + i)).toNat
          ∧ (s.mem.read (a.str + i)).toNat ≤ a.last) := by simpa [inRange] using hin
      rw [List.countP_cons_of_neg hin] at ha
      rw [if_neg hcond, textEvents, if_neg hin, List.countP_cons_of_neg hin]
      exact ih (i + 1) x h hr' hg' ha

theorem gives_textLoop (a : TextArgs) (n i : Nat) (x : Int) {s : State} (h : TransportUp s)
    (hw : a.w % 8 = 0) (hr : Readable s (a.str + i) n)
    (hg : ∀ ch ∈ s.mem.readBytes (a.str + i) n, inRange a ch = true →
      Readable s (glyphAddress a ch.toNat) (a.h * (a.w / 8)) ∧ ScratchFor s (a.w * a.h * 2))
    (ha : AllocUp s ((s.mem.readBytes (a.str + i) n).countP (inRange a))) :
    Gives (textLoop a n i x) s () (textEvents s a (s.mem.readBytes (a.str + i) n) x)
      (allocLeft s ((s.mem.readBytes (a.str + i) n).countP (inRange a))) := by
  obtain ⟨v, hv, e⟩ := textLoop_prefix a n 0 i x h hw hr hg ha
  exact ⟨v, hv, e⟩

/-! ## Reads of a variable font (R279, R282) -/

theorem lookupFrom_ok (map : Nat) (ch : Byte) (mlen j : Nat) {s : State}
    (h : Readable s (map + j) (match (List.range' j mlen).find? fun j =>
        decide (s.mem.read (map + j) = ch) with
      | none => mlen
      | some k => k - j + 1)) :
    lookupFrom map ch mlen j s =
      .ok ((List.range' j mlen).find? fun j => decide (s.mem.read (map + j) = ch)) s := by
  induction mlen generalizing j with
  | zero => rfl
  | succ mlen ih =>
    rw [List.range'_succ, List.find?_cons] at h ⊢
    have hj : map + j < s.cfg.resMemSize := by
      revert h
      split <;> intro h <;> have := h.resolve_left (Nat.succ_ne_zero _) <;> omega
    refine (cmd_bind_ok (memRead8_ok hj)).trans ?_
    by_cases hc : s.mem.read (map + j) = ch
    · simp [hc]
    · simp only [hc, if_false, decide_false] at h ⊢
      refine ih (j + 1) ?_
      revert h
      cases hf : (List.range' (j + 1) mlen).find? fun j => decide (s.mem.read (map + j) = ch) with
      | none =>
        intro h
        have := h.resolve_left (Nat.succ_ne_zero _)
        simp only at this ⊢
        rcases Nat.eq_zero_or_pos mlen with rfl | hn
        · exact .inl rfl
        · exact .inr (by omega)
      | some k =>
        intro h
        have hk := List.mem_of_find?_eq_some hf
        rw [List.mem_range'_1] at hk
        have := h.resolve_left (Nat.succ_ne_zero _)
        simp only at this ⊢
        exact .inr (by omega)

/-- `Lookup` whose reads can be made (R279). -/
theorem lookup_ok {s : State} {map mlen : Nat} (ch : Byte) (h : LookupReadable s map mlen ch) :
    lookupFrom map ch mlen 0 s = .ok (mapIndex s.mem map mlen ch) s := by
  unfold LookupReadable at h
  unfold mapIndex at h ⊢
  rw [List.range_eq_range'] at h ⊢
  exact lookupFrom_ok map ch mlen 0 h

theorem lookupReadable_congr {s t : State} {map mlen : Nat} {ch : Byte} (hc : t.cfg = s.cfg)
    (hm : t.mem = s.mem) (h : LookupReadable s map mlen ch) : LookupReadable t map mlen ch := by
  unfold LookupReadable Readable at *
  rwa [hc, hm]

/-- The value of a table entry, byte by byte, is its sum (R75). -/
theorem offsetValue_eq (order : OffsetOrder) (m : Memory) (addr ow : Nat) :
    offsetValue order (m.readBytes addr ow) = tableOffset order m addr ow := by
  unfold tableOffset
  cases order with
  | le =>
    simp only
    induction ow generalizing addr with
    | zero => rfl
    | succ ow ih =>
      rw [Memory_readBytes_succ, List.range_succ_eq_map, List.map_cons, List.sum_cons, List.map_map]
      show (m.read addr).toNat + 256 * offsetValue .le (m.readBytes (addr + 1) ow) = _
      rw [ih, ← List.sum_map_mul_left]
      simp only [Nat.add_zero, Nat.pow_zero, Nat.mul_one]
      congr 2
      apply List.map_congr_left
      intro k _
      simp only [Function.comp, Nat.succ_eq_add_one, Nat.add_comm, Nat.add_left_comm]
      ring
  | be =>
    simp only
    induction ow with
    | zero => rfl
    | succ ow ih =>
      rw [Memory_readBytes_append m addr ow 1]
      unfold offsetValue at ih ⊢
      simp only at ih ⊢
      rw [List.foldl_append, ih, List.range_succ, List.map_append, List.sum_append]
      show 256 * _ + (m.read (addr + ow)).toNat = _
      rw [← List.sum_map_mul_left]
      simp only [List.map_cons, List.map_nil, List.sum_cons, List.sum_nil, Nat.add_sub_cancel,
        Nat.sub_self, Nat.pow_zero, Nat.mul_one, Nat.add_zero]
      congr 2
      apply List.map_congr_left
      intro k hk
      rw [List.mem_range] at hk
      rw [show ow - k = (ow - 1 - k) + 1 by omega, Nat.pow_succ]
      ring

/-- `ReadOffset` of an entry that can be read (R75, R282). -/
theorem readOffset_ok {s : State} {addr ow : Nat} (h : Readable s addr ow) :
    readOffset addr ow s = .ok (tableOffset s.cfg.offsetOrder s.mem addr ow) s := by
  have := collectBytes_pure (s := s)
    (body := fun k => do
      let b ← memRead8 (addr + k)
      pure [b])
    (f := fun k => [s.mem.read (addr + k)]) ow 0
    fun k _ hk => cmd_bind_ok (memRead8_ok (by have := h.resolve_left (by omega); omega))
  rw [← List.range_eq_range'] at this
  have e : (List.range ow).flatMap (fun k => [s.mem.read (addr + k)])
      = s.mem.readBytes addr ow := by
    rw [Memory.readBytes, ← List.flatMap_pure_eq_map]
    rfl
  rw [e] at this
  refine (cmd_bind_ok this).trans ?_
  rw [withState_apply, offsetValue_eq]
  rfl

/-! ## WRITE (R281 to R285) -/

/-- The colour of a sample (R284). -/
theorem sampleColour_eq (rule : FgRule) (k : Nat) (fg bg : Half) (idx : Nat) :
    (if isFg rule k idx then fg else bg) = sampleColour rule k fg bg idx := by
  have h2 : 0 < 2 ^ k := Nat.two_pow_pos k
  cases rule with
  | topIndex =>
    have : idx = 2 ^ k - 1 ↔ idx + 1 = 2 ^ k := by omega
    simp [isFg, sampleColour, this]
  | nonzero =>
    have : idx ≠ 0 ↔ 0 < idx := by omega
    simp [isFg, sampleColour, this]

/-- A seeded cursor. -/
def State.seeded (s : State) (base : Word) (pos : Nat) : State :=
  State.atBit { s with bitBase := base } pos

/-- A seeded cursor is a state with other working registers. -/
theorem seeded_eq (s : State) (base : Word) (pos : Nat) :
    s.seeded base pos = s.worked { s.work with
      bitBase := base, bitPos := (s.seeded base pos).bitPos
      bitOver := (s.seeded base pos).bitOver } := rfl

theorem decodeGlyph_ok {s : State} (a : WriteArgs) (count off : Nat) (rule : FgRule)
    (hrule : s.cfg.fgRule = rule)
    (h : count = 0 ∨ a.bits.toNat * 8 + off + count * a.k ≤ s.cfg.resMemSize * 8) :
    decodeGlyph a count (s.seeded a.bits off) =
      .ok ((List.range count).flatMap fun i => be16 (sampleColour rule a.k a.fg a.bg
          (sampleAt s.mem a.bits.toNat (off + i * a.k) a.k)))
        (s.seeded a.bits (off + count * a.k)) := by
  subst hrule
  refine collectBytes_cursor (s := { s with bitBase := a.bits })
    (f := fun p => be16 (sampleColour s.cfg.fgRule a.k a.fg a.bg
      (sampleAt s.mem a.bits.toNat p a.k))) a.k count 0 off fun i hi p hp => ?_
  have h := h.resolve_left (by omega)
  have hm : (i + 1) * a.k ≤ count * a.k := Nat.mul_le_mul_right _ hi
  rw [Nat.add_mul, Nat.one_mul] at hm
  have hr := bitRead_ok (s := { s with bitBase := a.bits }) (p := p) (k := a.k)
    (.inr (show a.bits.toNat * 8 + p + a.k ≤ s.cfg.resMemSize * 8 by omega))
  refine (cmd_bind_ok hr).trans ?_
  rw [withState_apply, sampleColour_eq]
  rfl

theorem glyphPixels_length (s : State) (a : WriteArgs) (j : Nat) :
    (glyphPixels s a j).length = 2 * (glyphWidth s.mem a.widths j * a.hgt) := by
  unfold glyphPixels
  rw [flatMap_be16_length]

theorem gives_writeGlyph {s : State} (h : TransportUp s)
    (a : WriteArgs) (j : Nat) (x : Int) (hg : GlyphReadable s a j) (ha : AllocUp s 1) :
    Gives (writeGlyph a j x) s
      (glyphWidth s.mem a.widths j,
        decide (x + (glyphWidth s.mem a.widths j : Nat) - 1 < s.width.toNat))
      (if x + (glyphWidth s.mem a.widths j : Nat) - 1 < s.width.toNat then
        blitEvents s x a.y (glyphWidth s.mem a.widths j) a.hgt (glyphPixels s a j) else [])
      (allocLeft s 1) := by
  obtain ⟨h1, h2, h3, h4⟩ := hg
  refine gives_read_bind (memRead8_ok (by have := h1.resolve_left (by decide); omega)) ?_
  refine gives_read_bind (readOffset_ok h2) ?_
  refine gives_withScratch h4 ha fun b => ?_
  have hd := decodeGlyph_ok (s := s.holding (glyphWidth s.mem a.widths j * a.hgt * 2) b) a
    (glyphWidth s.mem a.widths j * a.hgt) (glyphOffset s a j) s.cfg.fgRule rfl h3
  obtain ⟨v, hv, hg⟩ := gives_blitDecoded (bytes := glyphPixels s a j) (x := x) (y := a.y)
    (w := (glyphWidth s.mem a.widths j : Nat)) (h' := a.hgt)
    (s := (s.holding (glyphWidth s.mem a.widths j * a.hgt * 2) b).seeded a.bits
      (glyphOffset s a j + glyphWidth s.mem a.widths j * a.hgt * a.k)) h
    (by rw [glyphPixels_length, extent_natCast, extent_natCast])
    (by rw [glyphPixels_length, Nat.mul_comm]; exact holding_scratchSize h4 b)
  refine ⟨v, hv, ?_⟩
  have e0 : ∀ u, seedCursor a.bits (glyphOffset s a j) u
      = .ok () (u.seeded a.bits (glyphOffset s a j)) := fun _ => rfl
  exact (cmd_bind_ok (e0 _)).trans ((cmd_bind_ok hd).trans (cmd_bind_ok hg))

theorem glyphOffset_congr {s t : State} (hc : t.cfg = s.cfg) (hm : t.mem = s.mem) (a : WriteArgs)
    (j : Nat) : glyphOffset t a j = glyphOffset s a j := by
  unfold glyphOffset
  rw [hc, hm]

theorem glyphPixels_congr {s t : State} (hc : t.cfg = s.cfg) (hm : t.mem = s.mem) (a : WriteArgs)
    (j : Nat) : glyphPixels t a j = glyphPixels s a j := by
  unfold glyphPixels
  rw [hc, hm, glyphOffset_congr hc hm]

theorem writePlan_congr {s t : State} (hc : t.cfg = s.cfg) (hw : t.width = s.width)
    (hh : t.height = s.height) (hm : t.mem = s.mem) (a : WriteArgs) (chs : List Byte) (x : Int) :
    writePlan t a chs x = writePlan s a chs x := by
  induction chs generalizing x with
  | nil => rfl
  | cons ch chs ih =>
    simp only [writePlan, ih, blitEvents_congr hc hw hh, hw, hm, glyphPixels_congr hc hm]

theorem glyphReadable_congr {s t : State} (hc : t.cfg = s.cfg) (hm : t.mem = s.mem)
    {a : WriteArgs} {j : Nat} (h : GlyphReadable s a j) : GlyphReadable t a j := by
  obtain ⟨h1, h2, h3, h4⟩ := h
  refine ⟨?_, ?_, ?_, ?_⟩
  · unfold Readable at *; rwa [hc]
  · unfold Readable at *; rwa [hc]
  · rwa [hm, glyphOffset_congr hc hm, hc]
  · rw [hm]; exact scratchFor_congr h4 hc

theorem writeReadable_congr {s t : State} (hc : t.cfg = s.cfg) (hw : t.width = s.width)
    (hm : t.mem = s.mem) (a : WriteArgs) (n i : Nat) (x : Int) (h : WriteReadable s a n i x) :
    WriteReadable t a n i x := by
  induction n generalizing i x with
  | zero => trivial
  | succ n ih =>
    obtain ⟨h1, h2, h3⟩ := h
    simp only [WriteReadable]
    rw [hm]
    refine ⟨by unfold Readable at *; rwa [hc], lookupReadable_congr hc hm h2, ?_⟩
    revert h3
    cases mapIndex s.mem a.map a.mlen (s.mem.read (a.str + i)) with
    | none => exact ih _ _
    | some j => exact fun h3 => ⟨glyphReadable_congr hc hm h3.1, fun hf => ih _ _ (h3.2 (hw ▸ hf))⟩

theorem gives_writeLoop (a : WriteArgs) (n i : Nat) (x : Int) (total : Nat) {s : State}
    (h : TransportUp s) (hr : WriteReadable s a n i x)
    (ha : AllocUp s (writePlan s a (s.mem.readBytes (a.str + i) n) x).2.2) :
    Gives (writeLoop a n i x total) s
      (total + (writePlan s a (s.mem.readBytes (a.str + i) n) x).2.1)
      (writePlan s a (s.mem.readBytes (a.str + i) n) x).1
      (allocLeft s (writePlan s a (s.mem.readBytes (a.str + i) n) x).2.2) := by
  induction n generalizing i x total s with
  | zero =>
    rw [Memory_readBytes_zero]
    simp only [writePlan, allocLeft_zero, Nat.add_zero]
    exact gives_pure total s
  | succ n ih =>
    obtain ⟨h1, h2, h3⟩ := hr
    rw [Memory_readBytes_succ, Nat.add_assoc] at ha ⊢
    refine gives_read_bind (memRead8_ok (by have := h1.resolve_left (by decide); omega)) ?_
    refine gives_read_bind (lookup_ok _ h2) ?_
    simp only [writePlan] at ha ⊢
    revert h3 ha
    cases mapIndex s.mem a.map a.mlen (s.mem.read (a.str + i)) with
    | none => exact fun h3 ha => ih (i + 1) x total h h3 ha
    | some j =>
      intro h3 ha
      simp only at ha ⊢
      by_cases hf : x + (glyphWidth s.mem a.widths j : Nat) - 1 < s.width.toNat
      · rw [if_pos hf] at ha ⊢
        have hgw := gives_writeGlyph h a j x h3.1 (allocUp_head ha)
        rw [if_pos hf] at hgw
        refine gives_bind hgw fun w hw => ?_
        simp only [hf, decide_true, if_true]
        generalize blitEvents s x a.y (glyphWidth s.mem a.widths j) a.hgt (glyphPixels s a j) = es
          at hgw
        have e := writePlan_congr (s := s) (t := (s.performs es).worked w) rfl rfl rfl rfl a
        have := ih (i + 1) (x + (glyphWidth s.mem a.widths j : Nat))
          (total + glyphWidth s.mem a.widths j) (s := (s.performs es).worked w)
          (transportUp_worked (transportUp_performs h es) w)
          (writeReadable_congr (s := s) (t := (s.performs es).worked w) rfl rfl rfl a n (i + 1) _
            (h3.2 hf))
          (by rw [e]; exact allocUp_tail ha rfl hw)
        rw [e] at this
        simp only [worked_mem, State_performs_mem] at this
        rw [allocLeft_add s ((s.performs es).worked w) _ rfl hw, Nat.add_assoc] at this
        exact this
      · rw [if_neg hf] at ha ⊢
        have hgw := gives_writeGlyph h a j x h3.1 ha
        rw [if_neg hf] at hgw
        obtain ⟨w, hw, hgw⟩ := hgw
        refine ⟨w, hw, (cmd_bind_ok hgw).trans ?_⟩
        simp [hf]

/-! ## WRITE_LEN (R290) -/

theorem measureLoop_ok (map mlen widths str n i total : Nat) {s : State}
    (hr : Readable s (str + i) n)
    (hg : ∀ ch ∈ s.mem.readBytes (str + i) n, LookupReadable s map mlen ch ∧
      ∀ j, mapIndex s.mem map mlen ch = some j → Readable s (widths + j) 1) :
    measureLoop map mlen widths str n i total s =
      .ok (total + measuredWidth s.mem map mlen widths (s.mem.readBytes (str + i) n)) s := by
  induction n generalizing i total with
  | zero => rfl
  | succ n ih =>
    have hr := hr.resolve_left (Nat.succ_ne_zero n)
    have hr' : Readable s (str + (i + 1)) n := by
      rcases Nat.eq_zero_or_pos n with rfl | hn
      · exact .inl rfl
      · exact .inr (by omega)
    rw [Memory_readBytes_succ] at hg ⊢
    have hg' := fun ch hch => hg ch (List.mem_cons_of_mem _ hch)
    obtain ⟨hl, hg0⟩ := hg _ List.mem_cons_self
    rw [Nat.add_assoc] at hg' ⊢
    refine (cmd_bind_ok (memRead8_ok (show str + i < s.cfg.resMemSize by omega))).trans ?_
    refine (cmd_bind_ok (lookup_ok _ hl)).trans ?_
    generalize hj : mapIndex s.mem map mlen (s.mem.read (str + i)) = oj at hg0
    unfold measuredWidth
    simp only [List.map_cons, List.sum_cons, hj]
    cases oj with
    | none =>
      rw [Nat.zero_add]
      exact ih (i + 1) total hr' hg'
    | some j =>
      have hj1 : widths + j < s.cfg.resMemSize := by
        have := (hg0 j rfl).resolve_left (by decide); omega
      refine (cmd_bind_ok (memRead8_ok hj1)).trans ?_
      rw [ih (i + 1) _ hr' hg', Nat.add_assoc]
      rfl

/-! ## BITMAP (R300 to R304) -/

theorem be16_le16 (b0 b1 : Byte) : be16 (le16 b0 b1) = [b1, b0] := by
  have h1 : (b1 ++ b0).extractLsb' 8 8 = b1 := BitVec.extractLsb'_append_eq_left
  have h0 : (b1 ++ b0).extractLsb' 0 8 = b0 := BitVec.extractLsb'_append_eq_right
  simp only [be16, le16, h1, h0]

/-- One decoded pixel whose sample and palette entry can be read. -/
theorem palettePixel_ok {s : State} {k pal plen idx p : Nat}
    (hb : k = 0 ∨ s.bitBase.toNat * 8 + p + k ≤ s.cfg.resMemSize * 8)
    (hi : sampleAt s.mem s.bitBase.toNat p k = idx) (hp : idx < plen)
    (hr : Readable s (pal + 2 * idx) 2) :
    palettePixel k pal plen (s.atBit p) =
      .ok [s.mem.read (pal + 2 * idx + 1), s.mem.read (pal + 2 * idx)] (s.atBit (p + k)) := by
  have hr := hr.resolve_left (by decide)
  have h1 := memRead8_ok (s := s.atBit (p + k)) (addr := pal + 2 * idx)
    (by rw [State_atBit_cfg]; omega)
  have h2 := memRead8_ok (s := s.atBit (p + k)) (addr := pal + 2 * idx + 1)
    (by rw [State_atBit_cfg]; omega)
  refine (cmd_bind_ok (bitRead_ok hb)).trans ?_
  rw [hi, if_neg (by omega)]
  refine (cmd_bind_ok h1).trans ((cmd_bind_ok h2).trans ?_)
  rw [be16_le16]
  rfl

theorem bitmapPixels_length (m : Memory) (bits pal k start npx : Nat) :
    (bitmapPixels m bits pal k start npx).length = 2 * npx := by
  simp [bitmapPixels, List.length_flatMap, Nat.mul_comm]

theorem decodeBitmap_ok {s : State} (bits : Word) (pal plen k start npx : Nat)
    (h : BitmapReadable s bits.toNat pal plen k start npx) :
    collectBytes npx 0 (fun _ => palettePixel k pal plen) (s.seeded bits start) =
      .ok (bitmapPixels s.mem bits.toNat pal k start npx)
        (s.seeded bits (start + npx * k)) := by
  refine collectBytes_cursor (s := { s with bitBase := bits })
    (f := fun p => [s.mem.read (pal + 2 * sampleAt s.mem bits.toNat p k + 1),
      s.mem.read (pal + 2 * sampleAt s.mem bits.toNat p k)]) k npx 0 start fun i hi p hp => ?_
  obtain ⟨h1, h2⟩ := h.resolve_left (by omega)
  obtain ⟨h3, h4⟩ := h2 i hi
  have hm : (i + 1) * k ≤ npx * k := Nat.mul_le_mul_right _ hi
  rw [Nat.add_mul, Nat.one_mul] at hm
  subst hp
  exact palettePixel_ok (s := { s with bitBase := bits })
    (.inr (show bits.toNat * 8 + (start + i * k) + k ≤ s.cfg.resMemSize * 8 by omega)) rfl h3 h4

/-- BITMAP, when the frame check passes: its events, and a cursor left to the free values (R43). -/
theorem bitmapOp_ok {s : State} (h : TransportUp s) (k : Nat)
    (bits : Word) (pal plen : Nat) (w h' : Int) (fcount fidx : Nat) (x y : Int)
    (hf : fcount = 0 ∨ fidx < fcount) (hs : ScratchFor s (extent w * extent h' * 2))
    (ha : AllocUp s 1)
    (hr : BitmapReadable s bits.toNat pal plen k
      (frameStart fcount fidx (extent w * extent h') k) (extent w * extent h')) :
    ∃ v : Work, v.alloc = allocLeft s 1 ∧
      bitmapOp k bits pal plen w h' fcount fidx x y s = forgetCursor
        ((s.performs (if x + w - 1 < s.width.toNat then
          blitEvents s x y w h' (bitmapPixels s.mem bits.toNat pal k
            (frameStart fcount fidx (extent w * extent h') k) (extent w * extent h'))
        else [])).worked v) := by
  have hcheck : frameCheck fcount fidx s = .ok () s := by
    unfold frameCheck
    rw [if_neg (by omega)]
    rfl
  have hstart : (if fcount ≠ 0 then fidx * (extent w * extent h') * k else 0)
      = frameStart fcount fidx (extent w * extent h') k := by
    unfold frameStart
    by_cases h0 : fcount = 0 <;> simp [h0]
  generalize frameStart fcount fidx (extent w * extent h') k = start at hr hstart
  generalize hn : extent w * extent h' = npx at hr hs hstart
  have hbody : ∀ b, Gives (do
      seedCursor bits start
      let pix ← collectBytes npx 0 fun _ => palettePixel k pal plen
      blitDecoded pix x y w h') (s.holding (npx * 2) b) (decide (x + w - 1 < s.width.toNat))
      (if x + w - 1 < s.width.toNat then
        blitEvents s x y w h' (bitmapPixels s.mem bits.toNat pal k start npx) else [])
      (allocLeft s 1) := by
    intro b
    have hd := decodeBitmap_ok (s := s.holding (npx * 2) b) bits pal plen k start npx hr
    obtain ⟨v, hv, hg⟩ := gives_blitDecoded
      (bytes := bitmapPixels s.mem bits.toNat pal k start npx) (x := x) (y := y) (w := w) (h' := h')
      (s := (s.holding (npx * 2) b).seeded bits (start + npx * k)) h
      (by rw [bitmapPixels_length, hn])
      (by rw [bitmapPixels_length, Nat.mul_comm]; exact holding_scratchSize hs b)
    have e0 : seedCursor bits start (s.holding (npx * 2) b)
        = .ok () ((s.holding (npx * 2) b).seeded bits start) := rfl
    exact ⟨v, hv, (cmd_bind_ok e0).trans ((cmd_bind_ok hd).trans hg)⟩
  obtain ⟨v', hv', hg⟩ := gives_withScratch hs ha hbody
  refine ⟨v', hv', ?_⟩
  refine (cmd_bind_ok hcheck).trans ?_
  simp only [hn, hstart]
  exact cmd_bind_ok hg

end Sys2Proof.Machine
end

