-- ==== Sys2Proof/Laws/PerInstr.lean ====
section
/-! SUPPORT. The per-instruction family `EncodeLength`: a command is its header and exactly as many
operand words as the opcode map gives it (spec/30_encoding.md R110, R118). -/

namespace Sys2Proof.Laws.EncodeLength

/-- The encoding of a command has its header and its L operand words (R110, R118). -/
def Statement (i : Instr) : Prop := (encode i).length = 1 + i.operandCount

theorem send (hasCmd : Bool) (cmd : Byte) (addr len : Word) :
    Statement (.send hasCmd cmd addr len) := rfl

theorem setWindow (x0 x1 y0 y1 : Half) : Statement (.setWindow x0 x1 y0 y1) := rfl

theorem rotation (n : Byte) : Statement (.rotation n) := rfl

theorem fill (c : Half) : Statement (.fill c) := rfl

theorem fillRect (x y w h c : Half) : Statement (.fillRect x y w h c) := rfl

theorem pixel (x y c : Half) : Statement (.pixel x y c) := rfl

theorem hline (x y len c : Half) : Statement (.hline x y len c) := rfl

theorem vline (x y len c : Half) : Statement (.vline x y len c) := rfl

theorem rect (x y w h c : Half) : Statement (.rect x y w h c) := rfl

theorem line (x0 y0 x1 y1 c : Half) : Statement (.line x0 y0 x1 y1 c) := rfl

theorem blit (addr len : Word) (x y w h : Half) : Statement (.blit addr len x y w h) := rfl

theorem text (font : Word) (w h first last : Byte) (str n : Word) (x y fg bg : Half) :
    Statement (.text font w h first last str n x y fg bg) := rfl

theorem write (k ow : Byte) (map mlen widths offsets bits : Word) (hgt : Byte)
    (str n : Word) (x y fg bg : Half) :
    Statement (.write k ow map mlen widths offsets bits hgt str n x y fg bg) := rfl

theorem writeLen (map mlen widths str n : Word) : Statement (.writeLen map mlen widths str n) := rfl

theorem bitmap (k : Byte) (bits pal plen : Word) (w h fcount fidx x y : Half) :
    Statement (.bitmap k bits pal plen w h fcount fidx x y) := rfl

theorem hardReset : Statement .hardReset := rfl

theorem softReset : Statement .softReset := rfl

theorem sleep (en : Bool) : Statement (.sleep en) := rfl

theorem invert (en : Bool) : Statement (.invert en) := rfl

theorem init : Statement .init := rfl

theorem vscrollDefine (tfa vsa bfa : Half) : Statement (.vscrollDefine tfa vsa bfa) := rfl

theorem vscrollSet (vsp : Half) : Statement (.vscrollSet vsp) := rfl

theorem width : Statement .width := rfl

theorem height : Statement .height := rfl

end Sys2Proof.Laws.EncodeLength
end

