-- ==== Sys2Proof/Tests/Slice0.lean ====
section
/-! SUPPORT. Tests on the words and vectors of spec/30_encoding.md R132 and spec/95_test_vectors.md (the
vector stands in each comment), and, at the end, witnesses: states that meet the hypotheses of the
statements of Certificates/Slice0/Obligations.lean. -/

namespace Sys2Proof.Tests

open Sys2Proof Sys2Proof.Machine

/-! ## Helpers -/

/-- The state after a command, or the state before it where the command has no next state. -/
def after (i : Instr) (s : State) : State :=
  match exec i s with
  | .next t => t
  | .fault _ => s
  | .refused _ => s

/-- The state after a step, or the state before it where the step has no next state. -/
def stepped (s : State) : State :=
  match step s with
  | .next t => t
  | .fault _ => s
  | .refused _ => s

/-- The reset state with this resource memory. -/
def withMem (m : Memory) : State := { State.reset with mem := m }

/-- The reset state with these host moves to come. -/
def withInbox (ops : List HostOp) : State := { State.reset with inbox := ops }

/-- A write of one command word. -/
def word (w : Word) : HostOp := .writeReg .word 0 w

/-- `CS+ DC=C X[b] DC=D X[p] CS-`, without the payload when it is empty. -/
def cmd (b : Byte) (p : List Byte) : List Event :=
  [.cs .active, .dc .command, .xfer [b]] ++ (if p = [] then [] else [.dc .data, .xfer p])
    ++ [.cs .inactive]

/-- `WIN` of these two payloads, with the default bytes. -/
def win (columns pages : List Byte) : List Event :=
  cmd 0x2A columns ++ cmd 0x2B pages ++ cmd 0x2C []

/-- A data bracket. -/
def db (ts : List (List Byte)) : List Event :=
  [.cs .active, .dc .data] ++ ts.map Event.xfer ++ [.cs .inactive]

/-- n pixels of the two bytes of a colour. -/
def px (n : Nat) (hi lo : Byte) : List Byte := (List.replicate n [hi, lo]).flatten

/-- The tables of V40: the font at 0x400, the string at 0x410. -/
def v40 : State :=
  withMem [(0x400, 0x81), (0x401, 0xFF), (0x403, 0x18), (0x410, 0x41), (0x411, 0x42)]

/-- TEXT of V40. -/
def v40Text : Instr := .text 0x400 8 2 0x41 0x42 0x410 2 228 0 0xFFFF 0

/-- The tables of V44. -/
def v44 : State :=
  withMem [(0x300, 0x61), (0x301, 0x62), (0x310, 3), (0x311, 2), (0x321, 6), (0x330, 0xAB),
    (0x340, 0x61), (0x341, 0x62)]

/-- The tables of V45: the first width is 10, the string is "aab". -/
def v45 : State :=
  withMem [(0x300, 0x61), (0x301, 0x62), (0x310, 10), (0x311, 2), (0x321, 6), (0x330, 0xAB),
    (0x340, 0x61), (0x341, 0x61), (0x342, 0x62)]

/-- Program P3's bitmap and palette. -/
def p3 : State :=
  withMem [(0x100, 0x1B), (0x101, 0xE4), (0x203, 0xF8), (0x204, 0xE0), (0x205, 7), (0x206, 0x1F)]

/-! ## Well-formedness refuses what R120 forbids -/

theorem test_wf_text_width_zero :
    (Instr.text 0 0 8 0x20 0x7F 0 1 0 0 0 0).wf = false := by decide
theorem test_wf_text_width_twelve :
    (Instr.text 0 12 8 0x20 0x7F 0 1 0 0 0 0).wf = false := by decide
theorem test_wf_text_width_248 :
    (Instr.text 0 248 0 0x7F 0x20 0 0 0 0 0 0).wf = true := by decide
theorem test_wf_write_sample_zero :
    (Instr.write 0 1 0 0 0 0 0 0 0 0 0 0 0 0).wf = false := by decide
theorem test_wf_write_sample_nine :
    (Instr.write 9 1 0 0 0 0 0 0 0 0 0 0 0 0).wf = false := by decide
theorem test_wf_write_offset_zero :
    (Instr.write 1 0 0 0 0 0 0 0 0 0 0 0 0 0).wf = false := by decide
theorem test_wf_write_offset_four :
    (Instr.write 1 4 0 0 0 0 0 0 0 0 0 0 0 0).wf = false := by decide
theorem test_wf_write_limits :
    (Instr.write 8 3 0 0 0 0 0 0 0 0 0 0 0 0).wf = true := by decide
theorem test_wf_bitmap_sample_zero :
    (Instr.bitmap 0 0 0 0 0 0 0 0 0 0).wf = false := by decide
theorem test_wf_bitmap_sample_nine :
    (Instr.bitmap 9 0 0 0 0 0 0 0 0 0).wf = false := by decide

/-! ## Words written out from the encoding tables (R111, R112, R117, R118, R132, V1 to V5) -/

theorem test_decode_send : decodeWords [0x00012C01, 0x00000500, 0x00000002] =
    .command (.send true 0x2C 0x500 2) := by decide
theorem test_decode_set_window : decodeWords [0x00000002, 0x00020001, 0x00040003] =
    .command (.setWindow 1 2 3 4) := by decide
theorem test_decode_rotation : decodeWords [0x00000503] = .command (.rotation 5) := by decide
theorem test_decode_fill : decodeWords [0x00000004, 0x0000F81F] = .command (.fill 0xF81F) := by
  decide
theorem test_decode_fill_rect : decodeWords [0x00000005, 0x00020001, 0x00040003, 0x00001234] =
    .command (.fillRect 1 2 3 4 0x1234) := by decide
theorem test_decode_pixel : decodeWords [0x00000006, 0x0014000A, 0x0000F800] =
    .command (.pixel 10 20 0xF800) := by decide
theorem test_decode_hline : decodeWords [0x00000007, 0x0007FFFD, 0x0000000C, 0x0000001F] =
    .command (.hline (-3) 7 12 0x001F) := by decide
theorem test_decode_vline : decodeWords [0x00000008, 0x01360003, 0x00000014, 0x0000FFFF] =
    .command (.vline 3 310 20 0xFFFF) := by decide
theorem test_decode_rect : decodeWords [0x00000009, 0x00020001, 0x00040003, 0x00001234] =
    .command (.rect 1 2 3 4 0x1234) := by decide
theorem test_decode_line : decodeWords [0x0000000A, 0x00000000, 0x00020005, 0x000007E0] =
    .command (.line 0 0 5 2 0x07E0) := by decide
theorem test_decode_blit :
    decodeWords [0x0000000B, 0x00001000, 0x00000258, 0x00020001, 0x0014000A] =
      .command (.blit 0x1000 600 1 2 10 20) := by decide
theorem test_decode_text :
    decodeWords [0x0000000C, 0x00000400, 0x42410208, 0x00000410, 0x00000002, 0x000000E4,
      0x0000FFFF] = .command (.text 0x400 8 2 0x41 0x42 0x410 2 228 0 0xFFFF 0) := by decide
theorem test_decode_write :
    decodeWords [0x0002010D, 0x00000300, 0x00000005, 0x00000310, 0x00000320, 0x00000330, 0x00000007,
      0x00000340, 0x00000006, 0x00020001, 0x0000FFFF] =
      .command (.write 1 2 0x300 5 0x310 0x320 0x330 7 0x340 6 1 2 0xFFFF 0) := by decide
theorem test_decode_write_len :
    decodeWords [0x0000000E, 0x00000300, 0x00000002, 0x00000310, 0x00000340, 0x00000003] =
      .command (.writeLen 0x300 2 0x310 0x340 3) := by decide
theorem test_decode_bitmap :
    decodeWords [0x0000020F, 0x00000100, 0x00000200, 0x00000004, 0x00030002, 0x00010005,
      0x0014000A] = .command (.bitmap 2 0x100 0x200 4 2 3 5 1 10 20) := by decide
theorem test_decode_hard_reset : decodeWords [0x00000010] = .command .hardReset := by decide
theorem test_decode_soft_reset : decodeWords [0x00000011] = .command .softReset := by decide
theorem test_decode_sleep : decodeWords [0x00000112] = .command (.sleep true) := by decide
theorem test_decode_invert : decodeWords [0x00000013] = .command (.invert false) := by decide
theorem test_decode_init : decodeWords [0x00000014] = .command .init := by decide
theorem test_decode_vscroll_define : decodeWords [0x00000015, 0x01400001, 0x00000002] =
    .command (.vscrollDefine 1 320 2) := by decide
theorem test_decode_vscroll_set : decodeWords [0x00000016, 0x00000010] =
    .command (.vscrollSet 16) := by decide
theorem test_decode_width : decodeWords [0x00000017] = .command .width := by decide
theorem test_decode_height : decodeWords [0x00000018] = .command .height := by decide

/-- V6, V8 and V9: what is illegal, and how many words it takes. -/
theorem test_decode_illegal :
    decodeWords [0x00000000, 0x00000017] = .illegal .opcode 1 ∧
    decodeWords [0x00000019] = .illegal .opcode 1 ∧
    decodeWords [0x01000004, 0x0000FFFF] = .illegal .reservedBits 2 ∧
    decodeWords [0x00000104, 0x0000FFFF] = .illegal .headerField 2 ∧
    decodeWords [0x00020001, 0, 0] = .illegal .headerField 3 ∧
    decodeWords [0x00000212] = .illegal .headerField 1 ∧
    decodeWords [0x00000004, 0x0001F800] = .illegal .operandField 2 ∧
    decodeWords [0x0000000C, 0, 0x0000020C, 0, 0, 0, 0] = .illegal .constraint 7 := by decide

theorem test_decode_waits : decodeWords [0x00000005, 0x00020001] = .incomplete 2 := by decide

/-- The pseudo-instructions of R131, and V4. -/
theorem test_pseudo_words :
    encode pseudoCls = [0x00000004, 0] ∧ encode pseudoWake = [0x00000012] ∧
    encode pseudoDoze = [0x00000112] ∧ encode (pseudoCmd 0x2C) = [0x00012C01, 0, 0] ∧
    encode (pseudoData 0x500 1) = [0x00000001, 0x500, 1] := by decide

/-- The numbering of spec/opcode_table.json: the second word is bits 63 to 32. -/
theorem test_table_word : decodeTableWord 96 0x0000F8000014000A00000006 =
    some (.pixel 10 20 0xF800) := by decide

/-- A row whose operand words the table leaves out runs with operands of zeros. -/
theorem test_fetch_word :
    (stepped (State.reset.withFetchWord 32 0x00000006)).trace =
      win [0, 0, 0, 0] [0, 0, 0, 0] ++ db [[0, 0]] := by decide +kernel

/-! ## Reset and the host's registers -/

/-- R51: STATUS is 0 under a legal configuration. -/
theorem test_reset_status : statusWord State.reset = 0 := by decide

/-- V70: an illegal geometry. -/
def badGeometry : State :=
  State.resetWith { Config.standard with physW := 240, physH := 240 } [] [] []

theorem test_v70_configuration :
    statusWord badGeometry = 0x00000800 ∧
    statusWord (after (.pixel 0 0 0) badGeometry) = 0x00000862 ∧
    (after (.pixel 0 0 0) badGeometry).trace = [] := by decide +kernel

/-- V6 and V71: an illegal opcode, then CLR_ERR. -/
def v6 : State := withInbox [word 0, .writeReg .word 0x0C 1]

theorem test_v6_illegal_opcode :
    statusWord (stepped v6) = 0x00000012 ∧ (stepped v6).cp = 1 ∧ (stepped v6).trace = [] := by
  decide +kernel
theorem test_v71_clear_error : statusWord (stepped (stepped v6)) = 0x00000010 := by decide +kernel

/-- V7: the block reads the next word as a header. -/
theorem test_v7_resynchronises :
    let s := stepped (stepped (withInbox [word 0x19, word 0x17]))
    s.result = 240 ∧ s.last = .ok ∧ s.err = true ∧ s.cp = 2 := by decide +kernel

/-- V72: a header and one operand, then DISCARD. -/
theorem test_v72_discard :
    let s := stepped (stepped (withInbox [word 5, word 0, .writeReg .word 0x0C 2]))
    statusWord s = 0x00000004 ∧ partialBit (stepped s) = false ∧ (stepped s).cp = 2 := by
  decide +kernel

/-- R390 and R391: the words of a partly received command and the word written while the reset input is
asserted are gone, and the release leaves the reset values. -/
theorem test_reset_input :
    let s := stepped (stepped (withInbox [word 5, .assertReset, word 0x17, .releaseReset]))
    s.pending = [] ∧ s.resetHeld = true ∧ (stepped s).pending = [] ∧ (stepped s).result = 0 ∧
      (stepped (stepped s)).cp = 0 ∧ (stepped (stepped s)).resetHeld = false := by decide +kernel

/-- R47 and R48: the fill scratch holds 256 bytes, and a resident glyph scratch its capacity, from
reset. -/
theorem test_reset_scratches :
    State.reset.fillScratch.length = 256 ∧ State.reset.scratchSize = 4096 := by decide +kernel

/-- U14: a byte access is refused. -/
theorem test_u14_byte_access :
    step (withInbox [.readReg .byte 4]) = .refused .hostAccessShape := rfl

/-! ## The protocol and window family -/

/-- S11. -/
theorem test_s11_send :
    (after (.send true 0x36 0x500 1) (withMem [(0x500, 0x48)])).trace = cmd 0x36 [0x48] := by
  decide +kernel
/-- V15. -/
theorem test_v15_send_out_of_bounds :
    let t := after (.send true 0x36 0xFFFF 2) State.reset
    t.trace = [] ∧ t.last = .resourceBounds ∧ t.err = true := by decide +kernel
/-- S12. -/
theorem test_s12_set_window :
    (after (.setWindow 1 2 3 4) State.reset).trace = win [0, 1, 0, 2] [0, 3, 0, 4] := by
  decide +kernel
/-- V17. -/
theorem test_v17_negative_window :
    let t := after (.setWindow (-1) 5 0 5) State.reset
    t.trace = [] ∧ t.last = .ok := by decide +kernel
/-- V10, the row n = 13. -/
theorem test_v10_rotation :
    let t := after (.rotation 13) State.reset
    t.trace = cmd 0x36 [0x28] ∧ t.rot = 5 ∧ t.width = 320 ∧ t.height = 240 := by decide +kernel

/-- V18: the second transfer fails. -/
def v18 : State := { State.reset with xferDraws := [true, false] }

theorem test_v18_rotation_fails :
    let t := after (.rotation 1) v18
    t.trace = [.cs .active, .dc .command, .xfer [0x36], .dc .data, .xferFail [0x68],
      .cs .inactive] ∧ t.width = 320 ∧ statusWord t = 0x00000142 := by decide +kernel

/-! ## The fill and raster family -/

/-- R195 with the first chunk failing (R352): the window of the whole screen, then one chunk. -/
theorem test_fill_first_chunk :
    (after (.fill 0xAAAA) { State.reset with xferDraws := List.replicate 5 true ++ [false] }).trace =
      win [0, 0, 0, 239] [0, 0, 1, 0x3F]
        ++ [.cs .active, .dc .data, .xferFail (px 128 0xAA 0xAA), .cs .inactive] := by decide +kernel
/-- V20. -/
theorem test_v20_fill_rect :
    (after (.fillRect 0 0 130 1 0xFFFF) State.reset).trace =
      win [0, 0, 0, 129] [0, 0, 0, 0] ++ db [px 128 0xFF 0xFF, px 2 0xFF 0xFF] := by decide +kernel
/-- R47 and R190: all 128 entries of the fill scratch are written, for one pixel too. -/
theorem test_fill_scratch :
    (after (.hline 3 4 1 0x1234) State.reset).fillScratch = px 128 0x12 0x34 := by decide +kernel
/-- V22: there is no clamping. -/
theorem test_v22_fill_rect_off_screen :
    (after (.fillRect 236 0 5 5 1) State.reset).trace = [] := by decide +kernel
/-- V23. -/
theorem test_v23_pixel :
    (after (.pixel 239 319 1) State.reset).trace =
      win [0, 239, 0, 239] [1, 0x3F, 1, 0x3F] ++ db [[0, 1]] := by decide +kernel
/-- S1: x = WIDTH. -/
theorem test_s1_pixel_off_screen : (after (.pixel 240 0 0xFFFF) State.reset).trace = [] := by
  decide +kernel
/-- V24: clamped at the right edge. -/
theorem test_v24_hline :
    (after (.hline 230 0 21 0xAAAA) State.reset).trace =
      win [0, 230, 0, 239] [0, 0, 0, 0] ++ db [px 10 0xAA 0xAA] := by decide +kernel
/-- V26: not clipped on the left. -/
theorem test_v26_hline : (after (.hline (-3) 7 12 0x1F) State.reset).trace = [] := by
  decide +kernel
/-- R204 and R221 under STREAM: an off-screen run of length 1, as either rule has it. -/
def streaming (run : OffscreenRun) : State :=
  { State.reset with
    cfg := { Config.standard with windowPolicy := .stream, offscreenRun := run } }

theorem test_r204_r221_stream :
    (after (.hline (-1) 0 1 0x1234) (streaming .streamsPixel)).trace = db [[0x12, 0x34]] ∧
    (after (.hline (-1) 0 1 0x1234) (streaming .emptyBracket)).trace = db [] ∧
    (after (.vline 0 320 1 0x1234) (streaming .streamsPixel)).trace = db [] := by decide +kernel
/-- V28: clamped at the bottom edge. -/
theorem test_v28_vline :
    (after (.vline 3 310 20 0xFFFF) State.reset).trace =
      win [0, 3, 0, 3] [1, 0x36, 1, 0x3F] ++ db [px 10 0xFF 0xFF] := by decide +kernel
/-- V29: the four sides in order. -/
theorem test_v29_rect :
    (after (.rect 0 0 3 2 0x1234) State.reset).trace =
      win [0, 0, 0, 2] [0, 0, 0, 0] ++ db [px 3 0x12 0x34]
      ++ win [0, 0, 0, 0] [0, 0, 0, 1] ++ db [px 2 0x12 0x34]
      ++ win [0, 0, 0, 2] [0, 1, 0, 1] ++ db [px 3 0x12 0x34]
      ++ win [0, 2, 0, 2] [0, 0, 0, 1] ++ db [px 2 0x12 0x34] := by decide +kernel
/-- V30 and program P2. -/
theorem test_v30_line :
    (after (.line 0 0 5 2 0x07E0) State.reset).trace =
      win [0, 0, 0, 1] [0, 0, 0, 0] ++ db [px 2 7 0xE0]
      ++ win [0, 2, 0, 3] [0, 1, 0, 1] ++ db [px 2 7 0xE0]
      ++ win [0, 4, 0, 5] [0, 2, 0, 2] ++ db [px 2 7 0xE0] := by decide +kernel
/-- V32: four runs of one pixel going up. -/
theorem test_v32_line_runs :
    lineRuns 0 3 3 0 = [⟨0, 3, 1⟩, ⟨1, 2, 1⟩, ⟨2, 1, 1⟩, ⟨3, 0, 1⟩] := by decide +kernel

/-! ## The blit family -/

/-- V39a: an odd length. -/
theorem test_v39a_blit :
    (after (.blit 0x1000 3 0 0 2 1) (withMem [(0x1000, 1), (0x1001, 2), (0x1002, 3)])).trace =
      win [0, 0, 0, 1] [0, 0, 0, 0] ++ db [[1, 2, 3]] := by decide +kernel
/-- V39c: the second chunk is out of bounds. -/
theorem test_v39c_blit :
    let t := after (.blit 0xFF00 512 0 0 16 16) State.reset
    t.trace = win [0, 0, 0, 15] [0, 0, 0, 15] ++ db [List.replicate 256 0] ∧
      t.last = .resourceBounds := by decide +kernel

/-! ## The glyph and bitmap family -/

/-- S8: five values of three bits. -/
theorem test_s8_bit_reader :
    (match readSamples 3 5 (withMem [(0, 0xB2), (1, 0x78)]) with
      | .ok vs t => some (vs, t.bitIndex)
      | .error _ _ => none) = some ([5, 4, 4, 7, 4], 15) := by decide +kernel
/-- V40: the second glyph does not fit. -/
theorem test_v40_text :
    (after v40Text v40).trace = win [0, 228, 0, 235] [0, 0, 0, 1]
      ++ db [px 1 0xFF 0xFF ++ px 6 0 0 ++ px 1 0xFF 0xFF ++ px 8 0xFF 0xFF] := by decide +kernel
/-- V43: the resident scratch is too small. -/
def v43 : State := { v40 with cfg := { v40.cfg with scratch := .resident 16 } }

theorem test_v43_text_scratch :
    let t := after v40Text v43
    t.trace = [] ∧ t.last = .resourceError := by decide +kernel
/-- V44. -/
theorem test_v44_write :
    let t := after (.write 1 1 0x300 2 0x310 0x320 0x330 2 0x340 2 0 0 0xFFFF 0) v44
    t.trace = win [0, 0, 0, 2] [0, 0, 0, 1]
        ++ db [px 1 0xFF 0xFF ++ px 1 0 0 ++ px 1 0xFF 0xFF ++ px 1 0 0 ++ px 1 0xFF 0xFF
          ++ px 1 0 0]
        ++ win [0, 3, 0, 4] [0, 0, 0, 1] ++ db [px 2 0xFF 0xFF ++ px 2 0 0] ∧
      t.result = 5 := by decide +kernel
/-- V45: WRITE stops at the edge. -/
theorem test_v45_write_stops :
    (after (.write 1 1 0x300 2 0x310 0x320 0x330 2 0x340 3 228 0 0xFFFF 0) v45).result = 10 := by
  decide +kernel
/-- V46. -/
theorem test_v46_write_len :
    let t := after (.writeLen 0x300 2 0x310 0x340 2) v44
    t.result = 5 ∧ t.trace = [] := by decide +kernel
/-- V47: WRITE_LEN does not stop at an edge. -/
theorem test_v47_write_len :
    (after (.writeLen 0x300 2 0x310 0x340 3) v45).result = 22 := by decide +kernel
/-- V49. -/
theorem test_v49_foreground :
    (List.range 4).map (isFg .topIndex 2) = [false, false, false, true] ∧
    (List.range 4).map (isFg .nonzero 2) = [false, true, true, true] := by decide
/-- V50. -/
theorem test_v50_offset :
    offsetValue .be [1, 2, 3] = 66051 ∧ offsetValue .le [1, 2, 3] = 197121 := by decide
/-- Program P3, step 1: frame 1. -/
theorem test_p3_bitmap :
    (after (.bitmap 2 0x100 0x200 4 2 2 2 1 10 20) p3).trace =
      win [0, 10, 0, 11] [0, 20, 0, 21] ++ db [[0, 0x1F, 7, 0xE0, 0xF8, 0, 0, 0]] := by
  decide +kernel
/-- V53: a decoded index 3 with a palette of 2 entries. -/
theorem test_v53_bitmap :
    let t := after (.bitmap 2 0x100 0x200 2 2 2 2 1 10 20) p3
    t.trace = [] ∧ t.last = .resourceBounds := by decide +kernel
/-- Program P3, step 2 (S9): the frame index is out of range. -/
theorem test_p3_range_error :
    let t := after (.bitmap 2 0x100 0x200 4 2 2 2 2 10 20) p3
    t.trace = [] ∧ statusWord t = 0x00000022 := by decide +kernel

/-! ## The control family -/

/-- V60 and V61. -/
theorem test_v60_hard_reset :
    (after .hardReset State.reset).trace =
      [.rst .active, .delay 0, .rst .inactive, .delay 0] := by decide +kernel
theorem test_v61_no_reset_pin :
    (after .hardReset { State.reset with cfg := { Config.standard with hasRst := false } }).trace =
      [] := by decide +kernel
/-- V62. -/
theorem test_v62_soft_reset :
    (after .softReset State.reset).trace = cmd 0x01 [] ++ [.delay 0] := by decide +kernel
/-- V63. -/
theorem test_v63_sleep :
    (after (.sleep true) State.reset).trace = cmd 0x10 [] ∧
    (after (.sleep false) State.reset).trace = cmd 0x11 [] := by decide +kernel
theorem test_v63_invert :
    (after (.invert true) State.reset).trace = cmd 0x21 [] ∧
    (after (.invert false) State.reset).trace = cmd 0x20 [] := by decide +kernel
/-- V67 and the example of R318, the first chunk of pixels failing (R352). -/
theorem test_v67_init :
    let t := after .init { State.reset with
      rot := 3, width := 320, height := 240, xferDraws := List.replicate 13 true ++ [false] }
    t.trace = [.rst .active, .delay 0, .rst .inactive, .delay 0] ++ cmd 0x01 [] ++ [.delay 0]
      ++ cmd 0x11 [] ++ cmd 0x3A [0x55] ++ cmd 0x36 [0xA8] ++ cmd 0x21 [] ++ cmd 0x13 []
      ++ win [0, 0, 1, 0x3F] [0, 0, 0, 239]
      ++ [.cs .active, .dc .data, .xferFail (px 128 0 0), .cs .inactive] ∧ t.rot = 3 := by
  decide +kernel
/-- V64. -/
theorem test_v64_vscroll_define :
    (after (.vscrollDefine 0 320 0) State.reset).trace = cmd 0x33 [0, 0, 1, 0x40, 0, 0] := by
  decide +kernel
/-- V65. -/
theorem test_v65_vscroll_set :
    (after (.vscrollSet 16) State.reset).trace = cmd 0x37 [0, 0x10] := by decide +kernel
/-- V66. -/
theorem test_v66_geometry :
    (after .width State.reset).result = 240 ∧ (after .height State.reset).result = 320 := by
  decide +kernel

/-! ## The reference panel -/

/-- Program P1: the pixel the panel shows. -/
theorem test_p1_panel :
    gramRead (panelRead Config.standard []
      (after (.pixel 300 10 0xF800) (after (.rotation 1) State.reset)).trace
      (panelStart 0 0 0 0)).gram 300 10 = some 0xF800 := by decide +kernel

/-- V39a and U4: an odd BLIT leaves the window unknown, also where a later SEND sends the other half. -/
def oddBlit : Panel :=
  panelSees Config.standard (.blit 0x1000 3 0 0 2 1) []
    (after (.blit 0x1000 3 0 0 2 1) (withMem [(0x1000, 1), (0x1001, 2), (0x1002, 3)])).trace
    (panelStart 0 0 0 0)

theorem test_u4_half_pixel :
    oddBlit.gram = [] ∧ oddBlit.half = some 3 ∧
    (panelSees Config.standard (pseudoData 0 1) [] (db [[4]]) oddBlit).gram = [] ∧
    (panelRead Config.standard [] (cmd 0x2C [] ++ db [[5, 6]]) oddBlit).gram =
      [((0, 0), 0x0506)] := by decide +kernel

/-- R82: the byte of one SEND and that of the next form a word, also over a BLIT that sends nothing; R81: a
command byte clears a pending byte and no pixel. -/
theorem test_r82_odd_send :
    let p := panelRead Config.standard [] (win [0, 0, 0, 1] [0, 0, 0, 0] ++ db [[1, 2, 3]])
      (panelStart 0 0 0 0)
    (panelSees Config.standard (pseudoData 0 1) [] (db [[4]]) p).gram =
      [((0, 0), 0x0102), ((0, 1), 0x0304)] ∧
    panelSees Config.standard (.blit 0 2 300 0 1 1) [] [] p = p ∧
    (panelRead Config.standard [] (cmd 0x21 []) p).gram = [((0, 0), 0x0102)] := by decide +kernel

/-- R81 and R82: a memory write goes on over two brackets. -/
theorem test_panel_stream_goes_on :
    (panelRead Config.standard [] (win [0, 0, 0, 1] [0, 0, 0, 0] ++ db [[1, 2]] ++ db [[3], [4]])
      (panelStart 0 0 0 0)).gram = [((0, 0), 0x0102), ((0, 1), 0x0304)] := by decide +kernel

/-! ## Witnesses

Each theorem shows a state and operands that meet together the hypotheses of the statement it is named
after, at the ends of their ranges where there are ranges. -/

/-- A state in the middle of a run: ROTATION 1 has run, a FILL_RECT header and one operand are in the
buffer, one move is to come. -/
def parked : State :=
  { State.reset with
    rot := 1, width := 320, height := 240, cp := 3, pending := [0x00000005, 0]
    trace := cmd 0x36 [0x68], dc := .driven .data, inbox := [word 0x00010082] }

theorem parked_inv : parked.Inv where
  memory := by decide
  rotation := by decide
  widthFollows := by decide
  heightFollows := by decide
  partialCommand := fun _ => ⟨2, by decide, by decide⟩
  counted := by decide
  idle := by decide
  fillBuffer := by decide +kernel
  scratchBuffer := by decide
  resetDiscards := by decide
  codeWritten := by decide
  brackets := by decide
  events := by decide
  lines := by decide

/-- The reset state with moves to come meets the invariant. -/
theorem inbox_inv (ops : List HostOp) : (withInbox ops).Inv where
  memory := rfl
  rotation := by show (0 : BitVec 3).toNat < Variant.extended.count; decide
  widthFollows := rfl
  heightFollows := rfl
  partialCommand := fun h => absurd rfl h
  counted := Nat.le_refl 0
  idle := ⟨rfl, rfl, rfl, rfl⟩
  fillBuffer := List.length_replicate
  scratchBuffer := Nat.zero_le _
  resetDiscards := fun _ => rfl
  codeWritten := by show Code.ok ≠ Code.decodeError; decide
  brackets := rfl
  events := rfl
  lines := rfl

/-- Ready, for SetWindowPrograms, RotationSends, FillFillsScreen, FillRectFills, PixelDraws, HlineDraws,
VlineDraws, RectDraws, LineDraws, SoftResetSends, SleepSends, InvertSends, InitPowersOn,
VscrollDefineSends and VscrollSetSends; with draws that are left, too. -/
theorem witness_ready :
    Ready State.reset ∧ Ready { State.reset with xferDraws := [true, true] } :=
  ⟨⟨by decide, by unfold TransportUp; decide⟩, ⟨by decide, by unfold TransportUp; decide⟩⟩

theorem ready_withMem (m : Memory) : Ready (withMem m) :=
  ⟨by show configLegal Config.standard = true; decide, by unfold TransportUp; simp [withMem,
    State.reset, State.resetWith]⟩

theorem scratch_withMem (m : Memory) (n : Nat) (h : n ≤ 4096) : ScratchFor (withMem m) n := by
  intro cap hc
  obtain rfl : 4096 = cap := Scratch.resident.inj (hc : Config.standard.scratch = .resident cap)
  omega

theorem alloc_withMem (m : Memory) (n : Nat) : AllocUp (withMem m) n :=
  fun h => nomatch (h : Config.standard.scratch = .transient)

theorem witness_DecodeOfEncode :
    (Instr.write 8 3 0 0 0 0 0 0 0 0 0 0 0 0).wf = true ∧
    (Instr.write 1 1 0 0 0 0 0 0 0 0 0 0 0 0).wf = true ∧
    (Instr.text 0 8 0 9 1 0 0 0 0 0 0).wf = true ∧ (Instr.text 0 248 0 9 1 0 0 0 0 0 0).wf = true ∧
    (Instr.bitmap 1 0 0 0 0 0 0 0 0 0).wf = true ∧
    (Instr.bitmap 8 0 0 0 0 0 0 0 0 0).wf = true := by decide

theorem witness_EncodeOfDecode :
    decodeWords [0x00000004, 0x0000F800, 0xFFFFFFFF] = .command (.fill 0xF800) := by decide

/-- The four clauses: opcodes 0x00, 0x19 and 0xFF; opcodes 0x01 and 0x18; words missing; all there. -/
theorem witness_OpcodeDecidesLength :
    (headerOpc 0xFFFFFF00).toNat = 0 ∧ 0x18 < (headerOpc 0x00000019).toNat ∧
    0x18 < (headerOpc 0x000000FF).toNat ∧ 1 ≤ (headerOpc 0x00000001).toNat ∧
    (headerOpc 0x00000018).toNat ≤ 0x18 ∧ [(0 : Word)].length < operandCounts.getD (1 - 1) 0 ∧
    operandCounts.getD (0x18 - 1) 0 ≤ ([] : List Word).length := by decide

theorem witness_StepRunsDecoded :
    let s := { withInbox [word 0x0000FFFF] with pending := [0x00000004], cp := 1 }
    s.busy = false ∧ s.resetHeld = false ∧ s.inbox = .writeReg .word 0 0x0000FFFF :: [] ∧
      decodeWords (s.pending ++ [0x0000FFFF]) = .command (.fill 0xFFFF) :=
  ⟨rfl, rfl, rfl, by decide⟩

theorem witness_StepTakesOperand :
    parked.busy = false ∧ parked.resetHeld = false ∧
      parked.inbox = .writeReg .word 0 0x00010082 :: [] ∧
      decodeWords (parked.pending ++ [0x00010082]) = .incomplete 1 := ⟨rfl, rfl, rfl, by decide⟩

theorem witness_EncodedCommandRuns :
    State.reset.busy = false ∧ State.reset.resetHeld = false ∧ State.reset.pending = [] ∧
      (Instr.fill 1).wf = true := ⟨rfl, rfl, rfl, rfl⟩

/-- Opcodes 0x00 and 0x19, whatever the other bits are. -/
theorem witness_IllegalOpcode :
    (withInbox [word 0xFFFFFF00]).Inv ∧ configLegal (withInbox [word 0xFFFFFF00]).cfg = true ∧
    (withInbox [word 0xFFFFFF00]).resetHeld = false ∧
    (withInbox [word 0xFFFFFF00]).pending = [] ∧ (headerOpc 0xFFFFFF00).toNat = 0 ∧
    (withInbox [word 0x00000019]).Inv ∧ 0x18 < (headerOpc 0x00000019).toNat :=
  ⟨inbox_inv _, by decide, rfl, rfl, by decide, inbox_inv _, by decide⟩

/-- A FILL whose last word is to come, with header `h`; the state of the next theorem. -/
def fillPending (h : Word) (w : Word) : State :=
  { withInbox [word w] with pending := [h], cp := 1 }

/-- The five reasons of R121: RSV, A, B, an operand bit, and a constraint (SLEEP has no operand and
stands for the header cases too; the constraint case is BITMAP with K = 0). -/
theorem witness_IllegalFields :
    (fillPending 0x01000004 0xFFFF).Inv ∧ (fillPending 0x01000004 0xFFFF).resetHeld = false ∧
    ((fillPending 0x01000004 0xFFFF).pending ++ [0xFFFF]).head? = some 0x01000004 ∧
    opcodeRow (headerOpc 0x01000004) = some ⟨0xFF, 0xFF, [.color1]⟩ ∧
    (fillPending 0x01000004 0xFFFF).pending.length = [Format.color1].length ∧
    headerRsv 0x01000004 ≠ 0 ∧ headerA 0x00000104 &&& 0xFF ≠ 0 ∧ headerB 0x00010004 &&& 0xFF ≠ 0 ∧
    (∃ p ∈ ([0x0001F800] : List Word).zip [Format.color1], p.1 &&& p.2.mustBeZero ≠ 0) ∧
    (∃ i, readFields 0x0000000F [0, 0, 0, 0, 0, 0] = some i ∧ i.wf = false) := by
  refine ⟨?_, rfl, by decide, by decide, by decide, by decide, by decide, by decide, ?_,
    ⟨.bitmap 0 0 0 0 0 0 0 0 0 0, by decide, by decide⟩⟩
  · have h := inbox_inv [word 0xFFFF]
    exact ⟨h.memory, h.rotation, h.widthFollows, h.heightFollows,
      fun _ => ⟨1, by decide, by decide⟩, Nat.le_refl 1, h.idle, h.fillBuffer, h.scratchBuffer,
      fun e => absurd e Bool.false_ne_true, h.codeWritten, h.brackets, h.events, h.lines⟩
  · exact ⟨(0x0001F800, .color1), by decide, by decide⟩

/-- A bad geometry, no DC pin, a negative capacity; then an illegal word, and a header that waits. -/
theorem witness_ConfigurationError :
    cfgBad badGeometry = true ∧
    cfgBad (State.resetWith { Config.standard with hasDc := false } [] [] []) = true ∧
    cfgBad (State.resetWith { Config.standard with scratch := .resident (-1) } [] [] []) = true ∧
    (cfgBad { badGeometry with inbox := [word 0] } = true ∧ badGeometry.busy = false ∧
      badGeometry.resetHeld = false ∧
      (badGeometry.pending ++ [0]).head? = some 0 ∧
      decodeWords (badGeometry.pending ++ [0]) = .illegal .opcode 1) ∧
    decodeWords (badGeometry.pending ++ [5]) = .incomplete 3 := by decide

/-- ControlRegister, StatusRead, RegisterMap and BlockReset: a state that is not busy, and the move; and
the same state while the reset input is asserted. -/
theorem witness_host_moves :
    (withInbox [.writeReg .word 0x0C 3]).busy = false ∧
    (withInbox [.writeReg .word 0x0C 3]).inbox = .writeReg .word 0x0C 3 :: [] ∧
    (withInbox [.readReg .word 0x04]).inbox = .readReg .word 0x04 :: [] ∧
    (withInbox [.readReg .half 0x08]).inbox = .readReg .half 0x08 :: [] ∧
    ((0x1E : BitVec 5).toNat % 4 ≠ 0) ∧
    (withInbox [.assertReset]).inbox = .assertReset :: [] ∧
    (withInbox [.releaseReset]).inbox = .releaseReset :: [] ∧
    (withInbox [.releaseReset]).resetHeld = false ∧
    (stepped (withInbox [.assertReset, .releaseReset])).busy = false ∧
    (stepped (withInbox [.assertReset, .releaseReset])).resetHeld = true ∧
    (stepped (withInbox [.assertReset, .releaseReset])).inbox = .releaseReset :: [] ∧
    (stepped (withInbox [.assertReset, word 4])).inbox = .writeReg .word 0 4 :: [] := by decide

/-- The last address that exists and the first that does not. -/
theorem witness_HostWritesMemory :
    (withInbox [.writeMem 0xFFFF 7]).busy = false ∧
    (withInbox [.writeMem 0xFFFF 7]).mem.wf = true ∧
    (withInbox [.writeMem 0xFFFF 7]).inbox = .writeMem 0xFFFF 7 :: [] ∧
    0xFFFF < Config.standard.resMemSize.val ∧ Config.standard.resMemSize.val ≤ 0x10000 := by decide

theorem witness_InvAfterReset :
    Memory.wf [(0, 1), (0xFFFF, 2)] = true ∧ Memory.wf [(1, 1), (0, 2)] = false := by decide

theorem witness_InvKept : parked.Inv ∧ ∃ t, step parked = .next t := ⟨parked_inv, _, rfl⟩

/-- CommandFrame, FaultTable and BracketsClose: a command that ends well and one that faults, each
with the premises of its clauses. -/
theorem witness_CommandFrame :
    (∃ t, exec (.fillRect 0 0 1 1 1) State.reset = .next t ∧ t.trace ≠ []) ∧
    (∃ t, exec (.rotation 1) v18 = .next t ∧ t.last ≠ .ok) ∧
    (Instr.rotation 1).wf = true ∧ configLegal v18.cfg = true ∧
    (∀ n, Instr.fill 1 ≠ .rotation n) ∧ writesResult (.fill 1) = false ∧
    usesCursor (.writeLen 0 0 0 0 0) = false ∧ usesFillScratch (.pixel 0 0 0) = false ∧
    usesGlyphScratch (.fill 1) = false :=
  ⟨⟨_, rfl, by decide +kernel⟩, ⟨_, rfl, by decide +kernel⟩, by decide, by decide,
    fun _ h => Instr.noConfusion h, by decide, by decide, by decide, by decide⟩

/-- V18: transfer 1 of 2 fails. -/
theorem witness_TransportFailureCuts :
    (∃ u, exec (.rotation 1) { v18 with xferDraws := [] } = .next u ∧
      u.trace = v18.trace ++ cmd 0x36 [0x68]) ∧
    1 < xferCount (cmd 0x36 [0x68]) ∧ v18.xferDraws = List.replicate 1 true ++ false :: [] :=
  ⟨⟨_, rfl, by decide +kernel⟩, by decide, by decide⟩

theorem witness_OnlyReadersReadMemory :
    readsMemory (.pixel 0 0 1) = false ∧ ∃ t, exec (.pixel 0 0 1) State.reset = .next t :=
  ⟨rfl, _, rfl⟩

theorem witness_NoCommandReadsFlagsOrCursor :
    (∃ t, exec .width State.reset = .next t ∧ t.last = .ok) ∧ writesResult .width = true ∧
    ∃ u, exec .width
      { State.reset with err := true, last := .rangeError, result := 7, bitBase := 1, bitPos := 9 }
        = .next u := ⟨⟨_, rfl, by decide +kernel⟩, rfl, _, rfl⟩

/-- The last byte of resource memory, and no byte at all from past its end. -/
theorem witness_SendSends :
    Ready State.reset ∧ Readable State.reset (0xFFFF : Word).toNat (1 : Word).toNat ∧
    Readable State.reset (0xFFFFFFFF : Word).toNat (0 : Word).toNat :=
  ⟨witness_ready.1, by unfold Readable; decide, by unfold Readable; decide⟩

/-- V15: one byte too many. -/
theorem witness_SendOutOfBounds :
    configLegal State.reset.cfg = true ∧ (2 : Word) ≠ 0 ∧
    State.reset.cfg.resMemSize < (0xFFFF : Word).toNat + (2 : Word).toNat := by decide

/-- A swapping rotation, then one that does not swap; n = 1 and n' = 9. -/
theorem witness_Rotation :
    (1 : Byte).toNat % Config.standard.variant.count =
      (9 : Byte).toNat % Config.standard.variant.count ∧
    (rotationRow ((1 : Byte).toNat % Config.standard.variant.count)).swap = true ∧
    (rotationRow ((254 : Byte).toNat % Config.standard.variant.count)).swap = false ∧
    ∃ t, exec (.rotation 1) State.reset = .next t ∧ ∃ u, exec (.rotation 254) t = .next u :=
  ⟨by decide, by decide, by decide, _, rfl, _, rfl⟩

theorem witness_FillMakesSixHundredTransfers : parked.Inv ∧ Ready parked ∧ TransportUp parked :=
  ⟨parked_inv, ⟨by decide, by unfold TransportUp; decide⟩, by unfold TransportUp; decide⟩

/-- Under SUPPRESS at the edge of the screen; under STREAM left of it, at its end and above it, with the
configuration following either rule. -/
theorem witness_RunOfOneIsPixel :
    (Ready (streaming .emptyBracket) ∧ (streaming .emptyBracket).cfg.windowPolicy = .stream ∧
      onScreen (streaming .emptyBracket) (s16 (-1)) 0 = false ∧
      (streaming .emptyBracket).cfg.offscreenRun = .emptyBracket) ∧
    (Ready (streaming .streamsPixel) ∧ onScreen (streaming .streamsPixel) 0 (s16 (-1)) = false ∧
      (streaming .streamsPixel).cfg.offscreenRun = .streamsPixel ∧
      (s16 239 < (streaming .streamsPixel).width.toNat ∧
        (streaming .streamsPixel).width.toNat ≤ s16 240) ∧
      (s16 (-1) < (streaming .streamsPixel).height.toNat ∧
        (streaming .streamsPixel).height.toNat ≤ s16 320)) ∧
    State.reset.cfg.windowPolicy = .suppress ∧
    (∃ t, exec (.pixel 239 0 1) State.reset = .next t) ∧
    (∃ u, exec (.hline 239 0 1 1) State.reset = .next u) ∧
    ∃ v, exec (.vline 239 0 1 1) State.reset = .next v :=
  ⟨⟨⟨by decide, by unfold TransportUp; decide⟩, rfl, by decide, rfl⟩,
    ⟨⟨by decide, by unfold TransportUp; decide⟩, by decide, rfl, by decide, by decide⟩,
    rfl, ⟨_, rfl⟩, ⟨_, rfl⟩, _, rfl⟩

/-- A buffer that ends with resource memory; V39d, whose window is invalid. -/
theorem witness_BlitStreams :
    Ready State.reset ∧ Readable State.reset (0xFE00 : Word).toNat 512 ∧
    validWindow State.reset 0 0 15 15 = true ∧ validWindow State.reset 300 0 315 15 = false ∧
    State.reset.cfg.windowPolicy ≠ .stream :=
  ⟨witness_ready.1, by unfold Readable; decide, by decide, by decide, by decide⟩

/-- V39c, and a start past the end of resource memory. -/
theorem witness_BlitOutOfBounds :
    Ready State.reset ∧ validWindow State.reset 0 0 15 15 = true ∧
    min (512 : Word).toNat ((s16 16).toNat * (s16 16).toNat * 2) ≠ 0 ∧
    State.reset.cfg.resMemSize < (0xFF00 : Word).toNat + 512 ∧
    State.reset.cfg.resMemSize < (0xFFFFFFFF : Word).toNat + 512 :=
  ⟨witness_ready.1, by decide, by decide, by decide, by decide⟩

/-- S8: five 3-bit values in the bytes B2 78, the third of them across the byte boundary. -/
theorem witness_BitReaderRoundTrip :
    let s := withMem [(0, 0xB2), (1, 0x78)]
    let vs := [5, 4, 4, 7, 4]
    s.bitPos.toNat = 0 ∧ s.bitOver = none ∧ (∀ v ∈ vs, v < 2 ^ 3) ∧ 0 + vs.length * 3 < 2 ^ 35 ∧
    (∀ i < 5, ∀ j < 3, streamBit s.mem s.bitBase.toNat (0 + i * 3 + j) =
      (vs.getD i 0).testBit (3 - 1 - j)) ∧
    s.bitBase.toNat * 8 + 0 + vs.length * 3 ≤ s.cfg.resMemSize * 8 := by decide

/-- V40. -/
theorem witness_TextDraws :
    Ready v40 ∧ glyphWidthOk 8 = true ∧
    AllocUp v40 2 ∧ TextReadable v40 ⟨0x400, 8, 2, 0x41, 0x42, 0x410, 0, 0xFFFF, 0⟩ 2 := by
  refine ⟨ready_withMem _, by decide, alloc_withMem _ _, .inr (by decide),
    fun ch hch hr => ⟨?_, ?_⟩⟩
  · refine .inr ?_
    have h : ∀ ch ∈ v40.mem.readBytes 0x410 2,
        glyphAddress ⟨0x400, 8, 2, 0x41, 0x42, 0x410, 0, 0xFFFF, 0⟩ ch.toNat + 2 ≤ 0x10000 := by
      decide +kernel
    exact h ch hch
  · exact scratch_withMem _ _ (by decide)

/-- The arguments of V44 and V45. -/
def v44Args : WriteArgs := ⟨1, 1, 0x300, 2, 0x310, 0x320, 0x330, 2, 0x340, 0, 0xFFFF, 0⟩

/-- The two characters of V44's string, and the first of V45's, are mapped. -/
theorem v44_map :
    mapIndex v44.mem 0x300 2 (v44.mem.read 0x340) = some 0 ∧
    mapIndex v44.mem 0x300 2 (v44.mem.read 0x341) = some 1 ∧
    mapIndex v45.mem 0x300 2 (v45.mem.read 0x340) = some 0 ∧
    mapIndex v45.mem 0x300 2 (v45.mem.read 0x341) = some 0 := by decide +kernel

theorem v44_glyph (m : Memory) (j : Nat) (h1 : 0x310 + j + 1 ≤ 0x10000)
    (h2 : 0x320 + j * 1 + 1 ≤ 0x10000)
    (h3 : 0x330 * 8 + glyphOffset (withMem m) v44Args j + glyphWidth m 0x310 j * 2 * 1
      ≤ 0x10000 * 8)
    (h4 : glyphWidth m 0x310 j * 2 * 2 ≤ 4096) : GlyphReadable (withMem m) v44Args j :=
  ⟨.inr h1, .inr h2, .inr h3, scratch_withMem _ _ h4⟩

theorem v44_lookup (m : Memory) (ch : Byte) (j : Nat) (e : mapIndex m 0x300 2 ch = some j)
    (h : j < 8) : LookupReadable (withMem m) 0x300 2 ch := by
  refine .inr ?_
  show 0x300 + (match mapIndex m 0x300 2 ch with | none => 2 | some j => j + 1) ≤ 0x10000
  rw [e]
  show 0x300 + (j + 1) ≤ _
  omega

theorem v44_character (s : State) (n i j : Nat) (x : Int)
    (e : mapIndex s.mem 0x300 2 (s.mem.read (0x340 + i)) = some j) (hr : Readable s (0x340 + i) 1)
    (hl : LookupReadable s 0x300 2 (s.mem.read (0x340 + i))) (hg : GlyphReadable s v44Args j)
    (hn : x + glyphWidth s.mem 0x310 j - 1 < s.width.toNat →
      WriteReadable s v44Args n (i + 1) (x + glyphWidth s.mem 0x310 j)) :
    WriteReadable s v44Args (n + 1) i x := by
  refine ⟨hr, hl, ?_⟩
  show (match mapIndex s.mem 0x300 2 (s.mem.read (0x340 + i)) with
    | none => WriteReadable s v44Args n (i + 1) x
    | some j => _)
  rw [e]
  exact ⟨hg, hn⟩

/-- V44. -/
theorem witness_WriteDraws :
    Ready v44 ∧ sampleWidthOk 1 = true ∧ offsetWidthOk 1 = true ∧
    WriteReadable v44 v44Args 2 0 0 ∧ AllocUp v44 2 := by
  obtain ⟨a0, a1, _, _⟩ := v44_map
  refine ⟨ready_withMem _, by decide, by decide, ?_, alloc_withMem _ _⟩
  refine v44_character _ _ _ _ _ a0 (.inr (by decide)) (v44_lookup _ _ _ a0 (by decide))
    (v44_glyph _ _ (by decide) (by decide) (by decide +kernel) (by decide +kernel)) fun _ => ?_
  exact v44_character _ _ _ _ _ a1 (.inr (by decide)) (v44_lookup _ _ _ a1 (by decide))
    (v44_glyph _ _ (by decide) (by decide) (by decide +kernel) (by decide +kernel)) fun _ => trivial

/-- V45: what lies behind its second character, which does not fit, is not asked for. -/
theorem witness_WriteDraws_edge : WriteReadable v45 v44Args 3 0 228 ∧ AllocUp v45 2 := by
  obtain ⟨_, _, b0, b1⟩ := v44_map
  refine ⟨?_, alloc_withMem _ _⟩
  refine v44_character _ _ _ _ _ b0 (.inr (by decide)) (v44_lookup _ _ _ b0 (by decide))
    (v44_glyph _ _ (by decide) (by decide) (by decide +kernel) (by decide +kernel)) fun _ => ?_
  exact v44_character _ _ _ _ _ b1 (.inr (by decide)) (v44_lookup _ _ _ b1 (by decide))
    (v44_glyph _ _ (by decide) (by decide) (by decide +kernel) (by decide +kernel))
    fun h => absurd h (by decide +kernel)

/-- V46: every byte that is read can be read. -/
theorem witness_WriteLenMeasures :
    configLegal v44.cfg = true ∧ Readable v44 (0x340 : Word).toNat (2 : Word).toNat ∧
    ∀ ch ∈ v44.mem.readBytes 0x340 2, LookupReadable v44 0x300 2 ch ∧
      ∀ j, mapIndex v44.mem 0x300 2 ch = some j → Readable v44 (0x310 + j) 1 := by
  refine ⟨by decide, by unfold Readable; decide, fun ch _ => ?_⟩
  have bound : ∀ j, mapIndex v44.mem 0x300 2 ch = some j → j < 2 := fun j hj =>
    List.mem_range.1 (List.mem_of_find?_eq_some hj)
  refine ⟨.inr ?_, fun j hj => .inr ?_⟩
  · show 0x300 + _ ≤ 0x10000
    cases hj : mapIndex v44.mem 0x300 2 ch with
    | none => decide
    | some j =>
      have := bound j hj
      show 0x300 + (j + 1) ≤ _
      omega
  · have := bound j hj
    show 0x310 + j + 1 ≤ 0x10000
    omega

/-- Program P3's frame 1, and V52: no frames are declared and the index is 9; V53, whose palette is too
short for an index, and a bitmap past the end of resource memory. -/
theorem witness_BitmapDraws :
    Ready p3 ∧ sampleWidthOk 2 = true ∧
    ((2 : Half) = 0 ∨ (1 : Half).toNat < (2 : Half).toNat) ∧
    ((0 : Half) = 0 ∨ (9 : Half).toNat < (0 : Half).toNat) ∧ ScratchFor p3 8 ∧
    BitmapReadable p3 0x100 0x200 4 2 (frameStart 2 1 4 2) 4 ∧
    BitmapReadable p3 0x100 0x200 4 2 (frameStart 0 9 4 2) 4 ∧ AllocUp p3 1 ∧
    ¬ BitmapReadable p3 0x100 0x200 2 2 (frameStart 2 1 4 2) 4 ∧
    ¬ BitmapReadable p3 0xFFFFFFFF 0x200 4 2 (frameStart 0 0 4 2) 4 :=
  ⟨ready_withMem _, by decide, by decide, by decide,
    scratch_withMem _ _ (by decide), by unfold BitmapReadable Readable; decide +kernel,
    by unfold BitmapReadable Readable; decide +kernel, alloc_withMem _ _,
    by unfold BitmapReadable Readable; decide +kernel,
    by unfold BitmapReadable Readable; decide +kernel⟩

/-- FIDX = FCOUNT, the least index out of range; and a command that ends so. -/
theorem witness_RangeErrorIsFrameCheck :
    configLegal p3.cfg = true ∧ sampleWidthOk 2 = true ∧ (2 : Half) ≠ 0 ∧
    (2 : Half).toNat ≤ (2 : Half).toNat ∧
    ∃ t, exec (.bitmap 2 0x100 0x200 4 2 2 2 2 10 20) p3 = .next t ∧ t.last = .rangeError :=
  ⟨by decide, by decide, by decide, by decide, _, rfl, by decide +kernel⟩

/-- V40 and V44 with a transient scratch whose second, or whose first, acquisition fails. -/
def transientText : State :=
  { v40 with cfg := { v40.cfg with scratch := .transient }, allocDraws := [true, false] }
def transientWrite : State :=
  { v44 with cfg := { v44.cfg with scratch := .transient }, allocDraws := [false, true] }

/-- V44 with a resident scratch of 8 bytes. -/
def residentWrite : State := { v44 with cfg := { v44.cfg with scratch := .resident 8 } }

/-- V43, at TEXT's first glyph; the draw of its second one fails; a BITMAP of one byte more than the
capacity. -/
theorem witness_ResourceErrorAtAcquisition_text :
    let a : TextArgs := ⟨0x400, 8, 2, 0x41, 0x42, 0x410, 0, 0xFFFF, 0⟩
    configLegal v43.cfg = true ∧ sampleWidthOk 8 = true ∧ glyphWidthOk 8 = true ∧
    v43.cfg.scratch = .resident 16 ∧ (16 : Int) < ((s16 9).toNat * (s16 1).toNat * 2 : Nat) ∧
    0 < (2 : Word).toNat ∧ Readable v43 0x410 (0 + 1) ∧ inRange a (v43.mem.read 0x410) = true ∧
    (16 : Int) < ((8 : Byte).toNat * (2 : Byte).toNat * 2 : Nat) ∧
    (v43.mem.readBytes 0x410 0).countP (inRange a) = 0 ∧
    configLegal transientText.cfg = true ∧ transientText.cfg.scratch = .transient ∧
    1 < (2 : Word).toNat ∧ Readable transientText 0x410 (1 + 1) ∧
    inRange a (transientText.mem.read (0x410 + 1)) = true ∧
    (∀ ch ∈ transientText.mem.readBytes 0x410 1, inRange a ch = true →
      Readable transientText (glyphAddress a ch.toNat) (a.h * (a.w / 8))) ∧
    transientText.allocDraws =
      List.replicate ((transientText.mem.readBytes 0x410 1).countP (inRange a)) true
        ++ false :: [] := by
  unfold Readable
  decide +kernel

/-- WRITE at its first mapped glyph: a draw that fails, and a glyph of 12 bytes under a capacity of
8. -/
theorem witness_ResourceErrorAtAcquisition_write :
    configLegal transientWrite.cfg = true ∧ sampleWidthOk 1 = true ∧ offsetWidthOk 1 = true ∧
    0 < (2 : Word).toNat ∧ Readable transientWrite 0x340 (0 + 1) ∧
    (∀ i < 1, LookupReadable transientWrite 0x300 2 (transientWrite.mem.read (0x340 + i))) ∧
    mapIndex transientWrite.mem 0x300 2 (transientWrite.mem.read 0x340) = some 0 ∧
    Readable transientWrite (0x310 + 0) 1 ∧ Readable transientWrite (0x320 + 0 * 1) 1 ∧
    transientWrite.cfg.scratch = .transient ∧ transientWrite.allocDraws = false :: [true] ∧
    configLegal residentWrite.cfg = true ∧ residentWrite.cfg.scratch = .resident 8 ∧
    residentWrite.mem = transientWrite.mem ∧ residentWrite.cfg.resMemSize.val = 0x10000 ∧
    (8 : Int) < (glyphWidth residentWrite.mem 0x310 0 * 2 * 2 : Nat) := by
  unfold LookupReadable Readable
  decide +kernel

/-- HardResetPulses and GeometryQueries. -/
theorem witness_configLegal : configLegal State.reset.cfg = true := by decide

theorem witness_InitPowersOn : parked.Inv ∧ ∃ t, exec .init parked = .next t :=
  ⟨parked_inv, _, rfl⟩

/-- A rectangle that ends at the corner of the screen, and the default bytes. -/
theorem witness_PanelShowsFillRect :
    Ready State.reset ∧ State.reset.cfg.cmdCaset ≠ State.reset.cfg.cmdRamwr ∧
    State.reset.cfg.cmdPaset ≠ State.reset.cfg.cmdRamwr ∧
    State.reset.cfg.cmdCaset ≠ State.reset.cfg.cmdPaset ∧
    0 ≤ s16 238 ∧ 0 ≤ s16 319 ∧ 0 < s16 2 ∧ 0 < s16 1 ∧
    s16 238 + s16 2 ≤ State.reset.width.toNat ∧ s16 319 + s16 1 ≤ State.reset.height.toNat ∧
    (∃ t es, exec (.fillRect 238 319 2 1 5) State.reset = .next t ∧
      t.trace = State.reset.trace ++ es) :=
  ⟨witness_ready.1, by decide, by decide, by decide, by decide, by decide, by decide, by decide,
    by decide, by decide, ⟨_, _, rfl, (List.nil_append _).symm⟩⟩

end Sys2Proof.Tests
end

section
/-! PROOF. The host's moves one at a time: what `step` does when the next move settles, what an aligned
32-bit access of a register comes to, and from these the control register (spec/10_state.md R39). -/

namespace Sys2Proof.Machine

/-! ## The next move of the host -/

theorem portNext_of_inbox_cons {s : State} {op : HostOp} {rest : List HostOp}
    (hbusy : s.busy = false) (hinbox : s.inbox = op :: rest) :
    portNext s = hostMove op { s with inbox := rest } := by
  simp [portNext, hbusy, hinbox]

/-- A move that completes no legal command is the whole step. -/
theorem step_of_hostMove_settled {s : State} {op : HostOp} {rest : List HostOp}
    {o : Host.Outcome State Fault Refusal}
    (hbusy : s.busy = false) (hinbox : s.inbox = op :: rest)
    (hmove : hostMove op { s with inbox := rest } = .settled o) : step s = o := by
  rw [step, portNext_of_inbox_cons hbusy hinbox, hmove]

/-! ## Aligned 32-bit accesses (R41) -/

theorem accessOk_iff (width : AccessWidth) (offset : BitVec 5) :
    accessOk width offset = true ↔ width = .word ∧ offset.toNat % 4 = 0 :=
  decide_eq_true_iff

theorem hostMove_writeReg_aligned {offset : BitVec 5} (h : offset.toNat % 4 = 0) (v : Word)
    (s : State) : hostMove (.writeReg .word offset v) s = writeRegister offset v s :=
  if_pos ((accessOk_iff .word offset).mpr ⟨rfl, h⟩)

theorem hostMove_readReg_aligned {offset : BitVec 5} (h : offset.toNat % 4 = 0) (s : State) :
    hostMove (.readReg .word offset) s =
      .settled (.next { s with readData := registerValue offset s }) :=
  if_pos ((accessOk_iff .word offset).mpr ⟨rfl, h⟩)

/-! ## CTRL (R39) -/

@[simp] theorem writeRegister_ctrl (v : Word) (s : State) :
    writeRegister 0x0C v s = .settled (.next (writeCtrl v s)) := rfl

@[simp] theorem registerValue_ctrl (s : State) : registerValue 0x0C s = 0 := rfl

/-- CLR_ERR as a choice between 0 and the old value, the form in which R39 states it. -/
theorem writeCtrl_eq_ite (v : Word) (s : State) :
    writeCtrl v s =
      { s with
        err := if v.getLsbD 0 then false else s.err
        pending := if v.getLsbD 1 then [] else s.pending } := by
  have herr : (s.err && !v.getLsbD 0) = if v.getLsbD 0 then false else s.err := by
    cases v.getLsbD 0 <;> simp
  rw [writeCtrl, herr]

theorem step_writeCtrl {s : State} {v : Word} {rest : List HostOp}
    (hbusy : s.busy = false) (hinbox : s.inbox = .writeReg .word 0x0C v :: rest) :
    step s = .next (writeCtrl v { s with inbox := rest }) :=
  step_of_hostMove_settled hbusy hinbox <| by
    rw [hostMove_writeReg_aligned (by decide), writeRegister_ctrl]

theorem step_readCtrl {s : State} {rest : List HostOp}
    (hbusy : s.busy = false) (hinbox : s.inbox = .readReg .word 0x0C :: rest) :
    step s = .next { s with inbox := rest, readData := 0 } :=
  step_of_hostMove_settled hbusy hinbox <| by
    rw [hostMove_readReg_aligned (by decide), registerValue_ctrl]

/-- Settles O11: each clause is one settled move of the host, at the offset of CTRL. -/
theorem controlRegister : Obligations.ControlRegister := by
  unfold Obligations.ControlRegister
  constructor
  · intro s v rest hbusy hinbox
    rw [step_writeCtrl hbusy hinbox, writeCtrl_eq_ite]
  · intro s rest hbusy hinbox
    exact step_readCtrl hbusy hinbox

end Sys2Proof.Machine
end

section
/-! PROOF. What the decoder answers for a word whose opcode is not in the map and for the words of a known
opcode (spec/30_encoding.md R118, R121, R124), and the worked encodings of R132. -/

namespace Sys2Proof

/-! ## The opcode map (R118, R124) -/

/-- The opcodes outside the map are 0 and those above 0x18 (R124). -/
theorem opcodeRow_eq_none {opc : Byte} (h : opc.toNat = 0 ∨ 0x18 < opc.toNat) :
    opcodeRow opc = none := by
  unfold opcodeRow
  split
  case h_25 => rfl
  all_goals omega

/-- Every opcode with a row of the map has its fields laid out (R118). -/
theorem readFields_of_opcodeRow {h : Word} {row : OpcodeRow} (hr : opcodeRow (headerOpc h) = some row)
    (ops : List Word) : ∃ i, readFields h ops = some i := by
  unfold readFields
  split
  case h_25 => simp_all [opcodeRow]
  all_goals exact ⟨_, rfl⟩

/-! ## The check of R121 -/

/-- The operand words pass when no bit marked "must be 0" by R112 is 1, word by word. -/
theorem operandBitsOk_iff {fs : List Format} {ws : List Word} (h : fs.length ≤ ws.length) :
    operandBitsOk fs ws = true ↔ ∀ p ∈ ws.zip fs, p.1 &&& p.2.mustBeZero = 0 := by
  induction fs generalizing ws with
  | nil => simp [operandBitsOk]
  | cons f fs ih =>
    cases ws with
    | nil => simp at h
    | cons w ws => simp [operandBitsOk, ih (Nat.le_of_succ_le_succ h)]

/-- A command of a known opcode with all its words is either legal in every field or illegal with its
whole length, and then not for its opcode (R121). -/
theorem checkCommand_cases {row : OpcodeRow} {h : Word} {ops : List Word} {i : Instr}
    (hread : readFields h ops = some i) :
    (headerRsv h = 0 ∧ headerA h &&& row.aZero = 0 ∧ headerB h &&& row.bZero = 0 ∧
      operandBitsOk row.formats ops = true ∧ i.wf = true ∧ checkCommand row h ops = .command i) ∨
    ∃ why, why ≠ .opcode ∧ checkCommand row h ops = .illegal why (1 + row.formats.length) := by
  by_cases hrsv : headerRsv h = 0
  case neg => exact .inr ⟨.reservedBits, by decide, if_pos hrsv⟩
  by_cases hab : headerA h &&& row.aZero ≠ 0 ∨ headerB h &&& row.bZero ≠ 0
  case pos =>
    exact .inr ⟨.headerField, by decide, (if_neg (not_not.mpr hrsv)).trans (if_pos hab)⟩
  obtain ⟨ha, hb⟩ : headerA h &&& row.aZero = 0 ∧ headerB h &&& row.bZero = 0 := by
    simpa only [ne_eq, not_or, not_not] using hab
  cases hops : operandBitsOk row.formats ops with
  | false => exact .inr ⟨.operandField, by decide, by simp [checkCommand, hrsv, ha, hb, hops]⟩
  | true =>
    cases hwf : i.wf with
    | false =>
      exact .inr ⟨.constraint, by decide, by simp [checkCommand, hrsv, ha, hb, hops, hread, hwf]⟩
    | true =>
      exact .inl ⟨hrsv, ha, hb, rfl, rfl, by simp [checkCommand, hrsv, ha, hb, hops, hread, hwf]⟩

/-- All the words of a known opcode with a field that R121 calls bad: illegal, with their number. -/
theorem decodeWords_badField {h : Word} {ops : List Word} {row : OpcodeRow}
    (hr : opcodeRow (headerOpc h) = some row) (hlen : ops.length = row.formats.length)
    (hbad : headerRsv h ≠ 0 ∨ headerA h &&& row.aZero ≠ 0 ∨ headerB h &&& row.bZero ≠ 0 ∨
      (∃ p ∈ ops.zip row.formats, p.1 &&& p.2.mustBeZero ≠ 0) ∨
      (∃ i, readFields h ops = some i ∧ i.wf = false)) :
    ∃ why, decodeWords (h :: ops) = .illegal why (1 + row.formats.length) := by
  have hdecode : decodeWords (h :: ops) = checkCommand row h ops := by
    rw [decodeWords_known hr, if_neg (by omega), ← hlen, List.take_length]
  obtain ⟨i, hread⟩ := readFields_of_opcodeRow hr ops
  rcases checkCommand_cases (row := row) hread with ⟨hrsv, ha, hb, hops, hwf, -⟩ | ⟨why, -, hcheck⟩
  · exfalso
    rcases hbad with hbad | hbad | hbad | ⟨p, hp, hbit⟩ | ⟨j, hj, hjwf⟩
    · exact hbad hrsv
    · exact hbad ha
    · exact hbad hb
    · exact hbit ((operandBitsOk_iff hlen.ge).mp hops p hp)
    · rw [hread, Option.some.injEq] at hj
      rw [← hj, hwf] at hjwf
      exact Bool.noConfusion hjwf
  · exact ⟨why, hdecode.trans hcheck⟩

/-! ## The worked encodings (R132) -/

/-- Settles O4: the closed encodings are computed both ways; a worked header does not depend on the
operands behind it. -/
theorem workedEncodings : Obligations.WorkedEncodings := by
  unfold Obligations.WorkedEncodings
  have hwrite : packHeader 0x0D 1 2 = 0x0002010D := by decide
  have hbitmap : packHeader 0x0F 2 0 = 0x0000020F := by decide
  refine ⟨by decide, rfl, ?_, ?_⟩
  · intros
    exact congrArg some hwrite
  · intros
    exact congrArg some hbitmap

end Sys2Proof
end

section
/-! PROOF. The word on CMD with which an illegal command is complete: under a legal configuration the step
writes LAST and ERR, counts the word and empties the buffer (spec/30_encoding.md R121, R124). -/

namespace Sys2Proof.Machine

/-! ## A word on CMD (R33, R42) -/

theorem portNext_writeCmd {s : State} {w : Word} {rest : List HostOp} (hbusy : s.busy = false)
    (hheld : s.resetHeld = false) (hinbox : s.inbox = .writeReg .word 0 w :: rest) :
    portNext s = acceptWord w { s with inbox := rest } := by
  rw [portNext_of_inbox_cons hbusy hinbox, hostMove_writeReg_aligned (by decide)]
  simp [writeRegister, hheld]

/-- The word that completes an illegal command runs it from the state at its header. -/
theorem step_illegal {s : State} {w : Word} {rest : List HostOp} {why : IllegalReason} {len : Nat}
    (hbusy : s.busy = false) (hheld : s.resetHeld = false)
    (hinbox : s.inbox = .writeReg .word 0 w :: rest)
    (hdecode : decodeWords (s.pending ++ [w]) = .illegal why len) :
    step s = .next (illegalCommand len
      { s with inbox := rest, pending := [], cp := s.cp - s.pending.length }) := by
  simp [step, portNext_writeCmd hbusy hheld hinbox, acceptWord, hdecode]

/-! ## The end of an illegal command (R121, R351) -/

theorem illegalCommand_eq_ended {s : State} (hc : configLegal s.cfg = true) (len : Nat) :
    illegalCommand len s = s.ended len .illegalCommand := by
  simp [illegalCommand, runCommand, hc, endCommand, recordCompletion, State.ended]

/-- Between two steps nothing of a command is left, so the end of one that ran no body writes only CP,
LAST and ERR. -/
theorem ended_of_idle {s : State}
    (h : s.busy = false ∧ s.line = none ∧ s.scratchHeld = none ∧ s.bitOver = none) (len : Nat) :
    s.ended len .illegalCommand =
      { s with cp := s.cp + len, last := .illegalCommand, err := true } := by
  obtain ⟨hbusy, hline, hheld, hover⟩ := h
  simp [State.ended, hbusy, hline, hheld, hover]

/-- The pending words are counted already: a command of one word more than the buffer holds advances CP
by 1 in its last step. -/
theorem step_illegal_of_inv {s : State} {w : Word} {rest : List HostOp} {why : IllegalReason}
    (hinv : s.Inv) (hc : configLegal s.cfg = true) (hheld : s.resetHeld = false)
    (hinbox : s.inbox = .writeReg .word 0 w :: rest)
    (hdecode : decodeWords (s.pending ++ [w]) = .illegal why (1 + s.pending.length)) :
    step s = .next { s with
      inbox := rest, pending := [], cp := s.cp + 1, last := .illegalCommand, err := true } := by
  have hcp : s.cp - s.pending.length + (1 + s.pending.length) = s.cp + 1 := by
    have := hinv.counted
    omega
  obtain ⟨hbusy, -⟩ := hinv.idle
  rw [step_illegal hbusy hheld hinbox hdecode, illegalCommand_eq_ended (by exact hc),
    ended_of_idle (by exact hinv.idle), ← hcp]

/-- Settles O8: a word whose opcode is not in the map is an illegal command by itself. -/
theorem illegalOpcode : Obligations.IllegalOpcode := by
  unfold Obligations.IllegalOpcode
  intro s w rest hinv hc hheld hpending hinbox hopc
  have hdecode : decodeWords (s.pending ++ [w]) = .illegal .opcode (1 + s.pending.length) := by
    rw [hpending]
    exact decodeWords_unknown [] (opcodeRow_eq_none hopc)
  rw [step_illegal_of_inv hinv hc hheld hinbox hdecode, ← hpending]

/-- Settles O9: the words received decode to an illegal command of their whole number. -/
theorem illegalFields : Obligations.IllegalFields := by
  unfold Obligations.IllegalFields
  intro s h w rest row hinv hc hheld hinbox hhead hrow hlen hbad
  have hwords : s.pending ++ [w] = h :: (s.pending ++ [w]).tail :=
    List.eq_cons_of_mem_head? hhead
  have hops : (s.pending ++ [w]).tail.length = row.formats.length := by
    simp [hlen]
  obtain ⟨why, hdecode⟩ := decodeWords_badField hrow hops hbad
  rw [← hwords, ← hlen] at hdecode
  exact ⟨_, step_illegal_of_inv hinv hc hheld hinbox hdecode, rfl⟩

end Sys2Proof.Machine
end

section
/-! PROOF. The bracket automaton as a frame rule: a piece of pseudocode that runs outside a bracket
adds whole brackets to the trace, one that runs inside a bracket adds transfers and no CS event,
faulting or not (spec/40_protocol_window.md R150 to R155, spec/10_state.md R45). -/

namespace Sys2Proof.Machine

/-! ## The bracket automaton on event lists -/

theorem bracketScan_append (hasCs isOpen : Bool) (a b : List Event) :
    bracketScan hasCs isOpen (a ++ b) =
      (bracketScan hasCs isOpen a).bind fun isOpen' => bracketScan hasCs isOpen' b := by
  induction a generalizing isOpen with
  | nil => rfl
  | cons e a ih =>
    cases e with
    | cs l => cases l <;> simp only [List.cons_append, bracketScan, ih] <;> split <;> rfl
    | xfer bs | xferFail bs => simp only [List.cons_append, bracketScan, ih]; split <;> rfl
    | dc | rst | bl | delay => exact ih isOpen

/-- Events the configuration allows, from which the automaton comes back to where it started. -/
def WholeEvents (c : Config) (isOpen : Bool) (es : List Event) : Prop :=
  bracketScan c.hasCs isOpen es = some isOpen ∧ es.all (eventOk c) = true

theorem wholeEvents_nil (c : Config) (isOpen : Bool) : WholeEvents c isOpen [] := ⟨rfl, rfl⟩

theorem WholeEvents.append {c : Config} {isOpen : Bool} {a b : List Event}
    (ha : WholeEvents c isOpen a) (hb : WholeEvents c isOpen b) :
    WholeEvents c isOpen (a ++ b) := by
  obtain ⟨hscan, hok⟩ := ha
  obtain ⟨hscan', hok'⟩ := hb
  exact ⟨by rw [bracketScan_append, hscan, Option.bind_some, hscan'],
    by rw [List.all_append, hok, hok', Bool.and_self]⟩

/-- A transfer is whole where a bracket is open, or where no CS pin shows one; `isOpen` is `c.hasCs`
in both. -/
theorem wholeEvents_xfer {c : Config} {bs : List Byte} (h : bs ≠ []) :
    WholeEvents c c.hasCs [.xfer bs] :=
  ⟨by simp [bracketScan], by simp [eventOk, h]⟩

theorem wholeEvents_xferFail {c : Config} {bs : List Byte} (h : bs ≠ []) :
    WholeEvents c c.hasCs [.xferFail bs] :=
  ⟨by simp [bracketScan], by simp [eventOk, h]⟩

/-- R150: what is whole inside a bracket is whole outside once CS is asserted before and released
behind it. -/
theorem WholeEvents.bracket {c : Config} {es : List Event} (h : WholeEvents c c.hasCs es) :
    WholeEvents c false (csOn c ++ es ++ csOff c) := by
  obtain ⟨hscan, hok⟩ := h
  cases hcs : c.hasCs with
  | false =>
    rw [hcs] at hscan
    simpa [csOn, csOff, hcs, WholeEvents] using And.intro hscan (List.all_eq_true.mp hok)
  | true =>
    rw [hcs] at hscan
    have hopened : bracketScan true false (.cs .active :: es) = some true := hscan
    constructor
    · simp only [csOn, csOff, hcs, if_true, List.cons_append, List.nil_append]
      rw [← List.cons_append, bracketScan_append, hopened]
      rfl
    · simp only [csOn, csOff, hcs, if_true, List.all_append, hok]
      simp [eventOk, hcs]

/-! ## What pseudocode adds to the trace -/

/-- The trace grows by whole events; `isOpen` says, for a configuration, whether the automaton is
inside a bracket there. -/
def GrowsWhole (isOpen : Config → Bool) (s t : State) : Prop :=
  t.cfg = s.cfg ∧ ∃ es, t.trace = s.trace ++ es ∧ WholeEvents s.cfg (isOpen s.cfg) es

/-- No bracket is open. -/
def outside : Config → Bool := fun _ => false

/-- A bracket is open, which only shows where CS is configured (R151). -/
def inside : Config → Bool := fun c => c.hasCs

section
variable {isOpen : Config → Bool} {s t u : State}

theorem GrowsWhole.trans (h : GrowsWhole isOpen s t) (h' : GrowsWhole isOpen t u) :
    GrowsWhole isOpen s u := by
  obtain ⟨hcfg, a, htrace, ha⟩ := h
  obtain ⟨hcfg', b, htrace', hb⟩ := h'
  rw [hcfg] at hcfg' hb
  exact ⟨hcfg', a ++ b, by rw [htrace', htrace, List.append_assoc], ha.append hb⟩

theorem growsWhole_silent (hcfg : t.cfg = s.cfg) (htrace : t.trace = s.trace) :
    GrowsWhole isOpen s t :=
  ⟨hcfg, [], by rw [htrace, List.append_nil], wholeEvents_nil _ _⟩

theorem growsWhole_emit {e : Event} (h : WholeEvents s.cfg (isOpen s.cfg) [e]) :
    GrowsWhole isOpen s (s.emit e) :=
  ⟨State_emit_cfg s e, [e], State_emit_trace s e, h⟩

/-- What grows whole inside a bracket grows whole outside with the bracket around it. -/
theorem GrowsWhole.bracket (h : GrowsWhole inside s.csAssert t) :
    GrowsWhole outside s t.csRelease := by
  obtain ⟨hcfg, es, htrace, hes⟩ := h
  rw [State_csAssert_cfg] at hcfg hes
  refine ⟨by rw [State_csRelease_cfg, hcfg], csOn s.cfg ++ es ++ csOff s.cfg, ?_, hes.bracket⟩
  rw [csRelease_eq, State_performs_trace, htrace, csAssert_eq, State_performs_trace, hcfg,
    List.append_assoc, List.append_assoc, List.append_assoc]

end

/-- A relation between the states before and behind a piece of pseudocode that composes. -/
structure Composes (R : State → State → Prop) : Prop where
  refl : ∀ s, R s s
  trans : ∀ s t u, R s t → R t u → R s u

theorem growsWhole_composes (isOpen : Config → Bool) : Composes (GrowsWhole isOpen) where
  refl _ := growsWhole_silent rfl rfl
  trans _ _ _ := GrowsWhole.trans

/-! ## The frame rule of composition

`Respects` asks a relation to hold across every event, but `GrowsWhole` is about which events are
emitted: its control flow composes as for any other relation, and each event is looked at where it
is emitted. -/

section
variable {R : State → State → Prop} {Q : Raised → Prop} {α β : Type}

theorem Composes.pure (hR : Composes R) (a : α) : After R Q (Pure.pure a : Cmd α) :=
  fun s => hR.refl s

theorem Composes.bind (hR : Composes R) {c : Cmd α} {k : α → Cmd β} (hc : After R Q c)
    (hk : ∀ a, After R Q (k a)) : After R Q (c >>= k) := by
  intro s
  cases e : c s with
  | error f t => rw [cmd_bind_error e]; exact hc.error e
  | ok a t =>
    rw [cmd_bind_ok e]
    cases e' : k a t with
    | ok b u => exact hR.trans s t u (hc.ok e) ((hk a).ok e')
    | error f u =>
      obtain ⟨hRtu, hQ⟩ := (hk a).error e'
      exact ⟨hR.trans s t u (hc.ok e) hRtu, hQ⟩

theorem Composes.forUp (hR : Composes R) {body : Nat → Cmd Unit} (n a : Nat)
    (h : ∀ i < a + n, After R Q (body i)) : After R Q (forUp n a body) := by
  induction n generalizing a with
  | zero => exact hR.pure ()
  | succ n ih => exact hR.bind (h a (by omega)) fun _ => ih (a + 1) fun i hi => h i (by omega)

theorem Composes.collectBytes (hR : Composes R) {body : Nat → Cmd (List Byte)}
    (h : ∀ i, After R Q (body i)) (n a : Nat) : After R Q (collectBytes n a body) := by
  induction n generalizing a with
  | zero => exact hR.pure []
  | succ n ih => exact hR.bind (h a) fun _ => hR.bind (ih (a + 1)) fun _ => hR.pure _

end

/-- From every state, c adds whole events to the trace, whether it raises a fault or not. -/
abbrev AddsWhole {α : Type} (isOpen : Config → Bool) (c : Cmd α) : Prop :=
  After (GrowsWhole isOpen) (fun _ => True) c

section
variable {isOpen : Config → Bool} {α β : Type}

theorem addsWhole_pure (a : α) : AddsWhole isOpen (pure a : Cmd α) :=
  (growsWhole_composes isOpen).pure a

theorem AddsWhole.bind {c : Cmd α} {k : α → Cmd β} (hc : AddsWhole isOpen c)
    (hk : ∀ a, AddsWhole isOpen (k a)) : AddsWhole isOpen (c >>= k) :=
  (growsWhole_composes isOpen).bind hc hk

theorem addsWhole_raise (f : Raised) : AddsWhole isOpen (raise f : Cmd α) :=
  fun _ => ⟨growsWhole_silent rfl rfl, trivial⟩

/-- An update that emits nothing. -/
theorem addsWhole_silent {g : State → State} (hcfg : ∀ s, (g s).cfg = s.cfg)
    (htrace : ∀ s, (g s).trace = s.trace) : AddsWhole isOpen (update g) :=
  after_update fun s => growsWhole_silent (hcfg s) (htrace s)

/-! ## Reads, registers and the scratch: no event at all -/

/-- A read answers its n bytes or faults, and changes nothing. -/
theorem memRead_cases (addr n : Nat) (s : State) :
    (∃ bs, bs.length = n ∧ memRead addr n s = .ok bs s) ∨ ∃ f, memRead addr n s = .error f s := by
  by_cases h : Readable s addr n
  · exact .inl ⟨_, Memory_readBytes_length s.mem addr n, memRead_ok h⟩
  · obtain ⟨h0, hend⟩ : n ≠ 0 ∧ ¬ addr + n ≤ s.cfg.resMemSize := not_or.mp h
    exact .inr ⟨_, (if_neg h0).trans (if_neg hend)⟩

theorem addsWhole_memRead (addr n : Nat) : AddsWhole isOpen (memRead addr n) := by
  intro s
  rcases memRead_cases addr n s with ⟨bs, -, e⟩ | ⟨f, e⟩
  · rw [e]; exact growsWhole_silent rfl rfl
  · rw [e]; exact ⟨growsWhole_silent rfl rfl, trivial⟩

theorem addsWhole_memRead8 (addr : Nat) : AddsWhole isOpen (memRead8 addr) :=
  (addsWhole_memRead addr 1).bind fun _ => addsWhole_pure _

theorem addsWhole_setResult (v : Nat) : AddsWhole isOpen (setResult v) :=
  addsWhole_silent (fun _ => rfl) fun _ => rfl

theorem addsWhole_setRotation (r : Nat) : AddsWhole isOpen (setRotation r) :=
  addsWhole_silent (fun _ => rfl) fun _ => rfl

theorem addsWhole_seedCursor (base : Word) (pos : Nat) : AddsWhole isOpen (seedCursor base pos) :=
  addsWhole_silent (fun _ => rfl) fun _ => rfl

theorem addsWhole_advanceCursor :
    AddsWhole isOpen (update fun s => s.atBit (s.bitIndex + 1)) :=
  addsWhole_silent (fun _ => rfl) fun _ => rfl

theorem addsWhole_forgetCursor : AddsWhole isOpen forgetCursor :=
  addsWhole_silent (fun _ => rfl) fun _ => rfl

theorem addsWhole_putLine (r : LineRegs) : AddsWhole isOpen (putLine r) :=
  addsWhole_silent (fun _ => rfl) fun _ => rfl

theorem addsWhole_storeScratch (bytes : List Byte) : AddsWhole isOpen (storeScratch bytes) :=
  addsWhole_silent (fun _ => rfl) fun _ => rfl

theorem addsWhole_acquireScratch (n : Nat) : AddsWhole isOpen (acquireScratch n) := by
  intro s
  rw [acquireScratch]
  cases s.cfg.scratch with
  | resident cap =>
    by_cases h : (n : Int) > cap
    · simp only [h, if_true]
      exact ⟨growsWhole_silent rfl rfl, trivial⟩
    · simp only [h, if_false]
      exact growsWhole_silent rfl rfl
  | transient =>
    cases h : s.nextAllocOk with
    | true => exact growsWhole_silent rfl rfl
    | false => exact ⟨growsWhole_silent rfl rfl, trivial⟩

theorem AddsWhole.withScratch {body : Cmd α} (h : AddsWhole isOpen body) (n : Nat) :
    AddsWhole isOpen (withScratch n body) := by
  refine (addsWhole_acquireScratch n).bind fun _ s => ?_
  simp only [releasing]
  cases e : body s with
  | ok a t => exact (h.ok e).trans (growsWhole_silent rfl rfl)
  | error f t => exact ⟨(h.error e).1.trans (growsWhole_silent rfl rfl), trivial⟩

theorem addsWhole_lookupFrom (map : Nat) (ch : Byte) (mlen j : Nat) :
    AddsWhole isOpen (lookupFrom map ch mlen j) := by
  induction mlen generalizing j with
  | zero => exact addsWhole_pure none
  | succ mlen ih =>
    exact (addsWhole_memRead8 _).bind fun _ => after_ite (addsWhole_pure _) (ih (j + 1))

theorem addsWhole_measureLoop (map mlen widths str n i total : Nat) :
    AddsWhole isOpen (measureLoop map mlen widths str n i total) := by
  induction n generalizing i total with
  | zero => exact addsWhole_pure total
  | succ n ih =>
    refine (addsWhole_memRead8 _).bind fun _ => (addsWhole_lookupFrom _ _ _ _).bind fun j => ?_
    cases j with
    | none => exact ih (i + 1) total
    | some j => exact (addsWhole_memRead8 _).bind fun _ => ih (i + 1) _

theorem addsWhole_readOffset (a ow : Nat) : AddsWhole isOpen (readOffset a ow) :=
  AddsWhole.bind ((growsWhole_composes isOpen).collectBytes
    (fun _ => (addsWhole_memRead8 _).bind fun _ => addsWhole_pure _) _ _) fun _ =>
      after_withState fun _ => addsWhole_pure _

theorem addsWhole_bitReadFrom (v k : Nat) : AddsWhole isOpen (bitReadFrom v k) := by
  induction k generalizing v with
  | zero => exact addsWhole_pure v
  | succ k ih =>
    exact after_withState fun _ => (addsWhole_memRead8 _).bind fun _ =>
      addsWhole_advanceCursor.bind fun _ => ih _

theorem addsWhole_rasterGlyph (a : TextArgs) (ch : Nat) : AddsWhole isOpen (rasterGlyph a ch) :=
  (growsWhole_composes isOpen).collectBytes (fun _ =>
    (growsWhole_composes isOpen).collectBytes (fun _ =>
      (addsWhole_memRead8 _).bind fun _ => addsWhole_pure _) _ _) _ _

theorem addsWhole_decodeGlyph (a : WriteArgs) (count : Nat) :
    AddsWhole isOpen (decodeGlyph a count) :=
  (growsWhole_composes isOpen).collectBytes (fun _ => (addsWhole_bitReadFrom 0 _).bind fun _ =>
    after_withState fun _ => addsWhole_pure _) _ _

theorem addsWhole_palettePixel (k pal plen : Nat) : AddsWhole isOpen (palettePixel k pal plen) :=
  (addsWhole_bitReadFrom 0 k).bind fun _ => after_ite (addsWhole_raise _)
    ((addsWhole_memRead8 _).bind fun _ => (addsWhole_memRead8 _).bind fun _ => addsWhole_pure _)

theorem addsWhole_frameCheck (fcount fidx : Nat) : AddsWhole isOpen (frameCheck fcount fidx) :=
  after_ite (addsWhole_raise _) (addsWhole_pure ())

theorem addsWhole_fits (x w : Int) : AddsWhole isOpen (fits x w) :=
  after_withState fun _ => addsWhole_pure _

/-! ## Events that may stand inside and outside a bracket -/

theorem addsWhole_setDc (m : DcMode) : AddsWhole isOpen (setDc m) :=
  after_update fun _ => growsWhole_emit ⟨rfl, rfl⟩

theorem addsWhole_delayFor (d : Config → Nat) : AddsWhole isOpen (delayFor d) :=
  after_withState fun _ => after_update fun _ => growsWhole_emit ⟨rfl, rfl⟩

theorem addsWhole_setRst (l : Act) : AddsWhole isOpen (setRst l) := by
  refine after_update fun s => ?_
  split
  case isTrue h => exact growsWhole_emit ⟨rfl, by simp [eventOk, h]⟩
  case isFalse => exact growsWhole_silent rfl rfl

theorem addsWhole_setBl (l : Light) : AddsWhole isOpen (setBl l) := by
  refine after_update fun s => ?_
  split
  case isTrue h => exact growsWhole_emit ⟨rfl, by simp [eventOk, h]⟩
  case isFalse => exact growsWhole_silent rfl rfl

end

/-! ## Transfers: inside a bracket only, and never empty (R150, R152) -/

/-- A transfer that has bytes, succeeding or failing. -/
theorem xferOut_cases {bs : List Byte} (h : bs ≠ []) (s : State) :
    ∃ t, GrowsWhole inside s t ∧ t.fillScratch = s.fillScratch ∧
      (xferOut bs s = .ok () t ∨ ∃ f, xferOut bs s = .error f t) := by
  let u : State := { s with xferDraws := s.xferDraws.tail }
  have hu : GrowsWhole inside s u := growsWhole_silent rfl rfl
  cases hok : s.nextXferOk with
  | true =>
    exact ⟨u.emit (.xfer bs), hu.trans (growsWhole_emit (wholeEvents_xfer h)),
      State_emit_fillScratch u _, .inl (by simp [xferOut, hok, u])⟩
  | false =>
    exact ⟨u.emit (.xferFail bs), hu.trans (growsWhole_emit (wholeEvents_xferFail h)),
      State_emit_fillScratch u _, .inr ⟨.transportError bs.length, by simp [xferOut, hok, u]⟩⟩

theorem addsWhole_xferOut {bs : List Byte} (h : bs ≠ []) : AddsWhole inside (xferOut bs) := by
  intro s
  obtain ⟨t, hgrows, -, e | ⟨f, e⟩⟩ := xferOut_cases h s
  · rw [e]; exact hgrows
  · rw [e]; exact ⟨hgrows, trivial⟩

/-- A chunk read from resource memory just before it is sent (R240). -/
theorem addsWhole_readXfer (addr : Nat) {n : Nat} (h : n ≠ 0) :
    AddsWhole inside (memRead addr n >>= xferOut) := by
  intro s
  rcases memRead_cases addr n s with ⟨bs, hlen, e⟩ | ⟨f, e⟩
  · rw [cmd_bind_ok e]
    exact addsWhole_xferOut (List.ne_nil_of_length_pos (by omega)) s
  · rw [cmd_bind_error e]
    exact ⟨growsWhole_silent rfl rfl, trivial⟩

theorem addsWhole_memStream (addr n : Nat) {k : Nat} (hk : k ≠ 0) :
    AddsWhole inside (memStream addr n k) := by
  refine AddsWhole.bind ((growsWhole_composes inside).forUp _ _ fun _ _ =>
    addsWhole_readXfer _ hk) fun _ => ?_
  split
  case isTrue => exact addsWhole_pure ()
  case isFalse h => exact addsWhole_readXfer _ h

theorem addsWhole_chunkStream (n : Nat) {k : Nat} (hk : 0 < k) :
    AddsWhole inside (chunkStream n k) := by
  refine after_withState fun s => ?_
  generalize s.scratch.take n = bytes
  have hchunk : ∀ i < bytes.length / k, (bytes.drop (i * k)).take k ≠ [] := by
    intro i hi
    have hend : (i + 1) * k ≤ bytes.length := Nat.mul_le_of_le_div k (i + 1) bytes.length hi
    rw [Nat.succ_mul] at hend
    apply List.ne_nil_of_length_pos
    rw [List.length_take, List.length_drop]
    omega
  refine AddsWhole.bind ((growsWhole_composes inside).forUp _ 0 fun i hi =>
    addsWhole_xferOut (hchunk i (by omega))) fun _ => ?_
  split
  case isTrue => exact addsWhole_pure ()
  case isFalse h =>
    refine addsWhole_xferOut (List.ne_nil_of_length_pos ?_)
    have := Nat.div_add_mod' bytes.length k
    rw [List.length_drop]
    omega

/-! ### The filler (R190) -/

/-- What the transfers of a fill do once the fill scratch is loaded: then none of them is empty. -/
def FillsWhole (s t : State) : Prop :=
  s.fillScratch ≠ [] → t.fillScratch ≠ [] ∧ GrowsWhole inside s t

theorem fillsWhole_composes : Composes FillsWhole where
  refl _ h := ⟨h, growsWhole_silent rfl rfl⟩
  trans := by
    intro s t u hst htu hs
    obtain ⟨ht, hgrows⟩ := hst hs
    obtain ⟨hu, hgrows'⟩ := htu ht
    exact ⟨hu, hgrows.trans hgrows'⟩

theorem fillsWhole_xferFill {n : Nat} (h : n ≠ 0) :
    After FillsWhole (fun _ => True) (xferFill n) := by
  intro s
  rw [xferFill, withState_apply]
  by_cases hs : s.fillScratch = []
  · split
    · exact absurd hs
    · exact ⟨absurd hs, trivial⟩
  · have hbytes : s.fillScratch.take (2 * n) ≠ [] := by simp [List.take_eq_nil_iff, hs, h]
    obtain ⟨t, hgrows, hfill, e | ⟨f, e⟩⟩ := xferOut_cases hbytes s
    · rw [e]; exact fun _ => ⟨hfill ▸ hs, hgrows⟩
    · rw [e]; exact ⟨fun _ => ⟨hfill ▸ hs, hgrows⟩, trivial⟩

/-- A piece behind the load of the fill scratch, which makes it nonempty. -/
theorem addsWhole_loaded (c : Half) {k : Unit → Cmd Unit}
    (h : After FillsWhole (fun _ => True) (k ())) : AddsWhole inside (loadFillScratch c >>= k) := by
  intro s
  let u : State := { s with fillScratch := pixels c Config.fillChunkPx }
  have hu : u.fillScratch ≠ [] := List.ne_nil_of_length_pos (by simp [u, Config.fillChunkPx])
  have hsu : GrowsWhole inside s u := growsWhole_silent rfl rfl
  rw [cmd_bind_ok (show loadFillScratch c s = .ok () u from rfl)]
  cases e : k () u with
  | ok a t => exact hsu.trans (h.ok e hu).2
  | error f t => exact ⟨hsu.trans ((h.error e).1 hu).2, trivial⟩

theorem addsWhole_fillStream (c : Half) (n : Nat) : AddsWhole inside (fillStream c n) := by
  refine addsWhole_loaded c (fillsWhole_composes.bind (fillsWhole_composes.forUp _ _ fun _ _ =>
    fillsWhole_xferFill (by decide)) fun _ => ?_)
  split
  case isTrue => exact fillsWhole_composes.pure ()
  case isFalse h => exact fillsWhole_xferFill h

/-! ## Brackets (R150, R153, R155) -/

/-- CS is released on every exit path, so what the body adds, fault or not, is in one bracket. -/
theorem AddsWhole.bracketed {body : Cmd Unit} (h : AddsWhole inside body) :
    AddsWhole outside (bracketed body) := by
  intro s
  simp only [Machine.bracketed]
  cases e : body s.csAssert with
  | ok a t => exact (h.ok e).bracket
  | error f t => exact ⟨(h.error e).1.bracket, trivial⟩

theorem AddsWhole.dataBracket {body : Cmd Unit} (h : AddsWhole inside body) :
    AddsWhole outside (dataBracket body) :=
  ((addsWhole_setDc _).bind fun _ => h).bracketed

theorem addsWhole_send (c : Option Byte) (p : List Byte) : AddsWhole outside (send c p) := by
  have hhead : AddsWhole inside (sendHead c) := by
    cases c with
    | none => exact addsWhole_pure ()
    | some b => exact (addsWhole_setDc _).bind fun _ => addsWhole_xferOut (List.cons_ne_nil b [])
  have hpayload : AddsWhole inside (sendPayload p) := by
    cases p with
    | nil => exact addsWhole_pure ()
    | cons b bs => exact (addsWhole_setDc _).bind fun _ => addsWhole_xferOut (List.cons_ne_nil b bs)
  exact (hhead.bind fun _ => hpayload).bracketed

theorem addsWhole_sendCmd (byte : Config → Byte) (p : List Byte) :
    AddsWhole outside (sendCmd byte p) :=
  after_withState fun _ => addsWhole_send _ _

/-! ## The window and the pixel stream (R156 to R159) -/

theorem addsWhole_openWindow (x0 y0 x1 y1 : Int) : AddsWhole outside (openWindow x0 y0 x1 y1) := by
  have hraw : AddsWhole outside (windowRaw x0 y0 x1 y1) :=
    (addsWhole_sendCmd _ _).bind fun _ => (addsWhole_sendCmd _ _).bind fun _ =>
      addsWhole_sendCmd _ _
  exact after_withState fun _ =>
    after_ite (hraw.bind fun _ => addsWhole_pure true) (addsWhole_pure false)

theorem AddsWhole.pixelStream {body : Cmd Unit} (h : AddsWhole inside body) (x0 y0 x1 y1 : Int) :
    AddsWhole outside (pixelStream x0 y0 x1 y1 body) :=
  (addsWhole_openWindow x0 y0 x1 y1).bind fun _ => after_withState fun _ =>
    after_ite h.dataBracket (addsWhole_pure ())

/-! ## The rasterizer (R195 to R218) -/

theorem addsWhole_fillScreen (c : Half) : AddsWhole outside (fillScreen c) :=
  after_withState fun _ => (addsWhole_fillStream c _).pixelStream _ _ _ _

theorem addsWhole_pixelOp (x y : Int) (c : Half) : AddsWhole outside (pixelOp x y c) :=
  (addsWhole_xferOut (List.cons_ne_nil _ _)).pixelStream _ _ _ _

theorem addsWhole_hlineOp (x y w : Int) (c : Half) : AddsWhole outside (hlineOp x y w c) :=
  after_withState fun _ => (addsWhole_fillStream c _).pixelStream _ _ _ _

theorem addsWhole_vlineOp (x y h : Int) (c : Half) : AddsWhole outside (vlineOp x y h c) :=
  after_withState fun _ => (addsWhole_fillStream c _).pixelStream _ _ _ _

theorem addsWhole_flushRun (steep : Bool) (c : Half) (run : LineRun) :
    AddsWhole outside (flushRun steep c run) :=
  after_ite (after_ite (addsWhole_pixelOp _ _ c) (addsWhole_pixelOp _ _ c))
    (after_ite (addsWhole_vlineOp _ _ _ c) (addsWhole_hlineOp _ _ _ c))

theorem addsWhole_lineWalk (c : Half) (n : Nat) (x : Int) (r : LineRegs) :
    AddsWhole outside (lineWalk c n x r) := by
  induction n generalizing x r with
  | zero => exact addsWhole_pure r
  | succ n ih =>
    refine (addsWhole_putLine _).bind fun _ => AddsWhole.bind ?_ fun _ => ih _ _
    cases (lineAdvance r x).2 with
    | none => exact addsWhole_pure ()
    | some run => exact addsWhole_flushRun _ c run

theorem addsWhole_lineOp (x0 y0 x1 y1 : Int) (c : Half) :
    AddsWhole outside (lineOp x0 y0 x1 y1 c) :=
  (addsWhole_putLine _).bind fun _ => (addsWhole_lineWalk c _ _ _).bind fun _ =>
    after_ite (addsWhole_flushRun _ c _) (addsWhole_pure ())

/-! ## Glyphs and bitmaps (R263 to R305) -/

theorem addsWhole_blitDecoded (bytes : List Byte) (x y w h : Int) :
    AddsWhole outside (blitDecoded bytes x y w h) := by
  have hblit : AddsWhole outside (blitScratch x y w h) :=
    after_withState fun s =>
      (addsWhole_chunkStream _ s.cfg.scratchChunk.property).pixelStream _ _ _ _
  exact (addsWhole_storeScratch bytes).bind fun _ => (addsWhole_fits x w).bind fun _ =>
    AddsWhole.bind (after_ite hblit (addsWhole_pure ())) fun _ => addsWhole_pure _

theorem addsWhole_textLoop (a : TextArgs) (n i : Nat) (x : Int) :
    AddsWhole outside (textLoop a n i x) := by
  induction n generalizing i x with
  | zero => exact addsWhole_pure ()
  | succ n ih =>
    have hglyph : ∀ ch, AddsWhole outside (textGlyph a ch x) := fun ch =>
      ((addsWhole_rasterGlyph a ch).bind fun _ => addsWhole_blitDecoded _ _ _ _ _).withScratch _
    exact (addsWhole_memRead8 _).bind fun _ =>
      after_ite ((hglyph _).bind fun _ => ih (i + 1) _) (ih (i + 1) x)

theorem addsWhole_writeGlyph (a : WriteArgs) (j : Nat) (x : Int) :
    AddsWhole outside (writeGlyph a j x) :=
  (addsWhole_memRead8 _).bind fun _ => (addsWhole_readOffset _ _).bind fun _ =>
    ((addsWhole_seedCursor _ _).bind fun _ => (addsWhole_decodeGlyph a _).bind fun _ =>
      (addsWhole_blitDecoded _ _ _ _ _).bind fun _ => addsWhole_pure _).withScratch _

theorem addsWhole_writeLoop (a : WriteArgs) (n i : Nat) (x : Int) (total : Nat) :
    AddsWhole outside (writeLoop a n i x total) := by
  induction n generalizing i x total with
  | zero => exact addsWhole_pure total
  | succ n ih =>
    refine (addsWhole_memRead8 _).bind fun _ => (addsWhole_lookupFrom _ _ _ _).bind fun j => ?_
    cases j with
    | none => exact ih (i + 1) x total
    | some j =>
      exact (addsWhole_writeGlyph a j x).bind fun ⟨_, _⟩ =>
        after_ite (ih (i + 1) _ _) (addsWhole_pure total)

theorem addsWhole_bitmapOp (k : Nat) (bits : Word) (pal plen : Nat) (w h : Int)
    (fcount fidx : Nat) (x y : Int) :
    AddsWhole outside (bitmapOp k bits pal plen w h fcount fidx x y) := by
  have hdecode : AddsWhole outside
      (collectBytes (extent w * extent h) 0 fun _ => palettePixel k pal plen) :=
    (growsWhole_composes outside).collectBytes (fun _ => addsWhole_palettePixel k pal plen) _ _
  exact (addsWhole_frameCheck fcount fidx).bind fun _ =>
    (((addsWhole_seedCursor bits _).bind fun _ => hdecode.bind fun _ =>
      addsWhole_blitDecoded _ x y w h).withScratch _).bind fun _ => addsWhole_forgetCursor

/-! ## The control sequences (R310 to R319) -/

theorem addsWhole_hardResetSeq : AddsWhole outside hardResetSeq :=
  after_withState fun _ => after_ite
    ((addsWhole_setRst _).bind fun _ => (addsWhole_delayFor _).bind fun _ =>
      (addsWhole_setRst _).bind fun _ => addsWhole_delayFor _)
    (addsWhole_pure ())

theorem addsWhole_softResetSeq : AddsWhole outside softResetSeq :=
  (addsWhole_sendCmd _ _).bind fun _ => addsWhole_delayFor _

theorem addsWhole_initResetSeq : AddsWhole outside initResetSeq := by
  refine after_withState fun s => ?_
  cases s.cfg.initReset with
  | hardThenSoft => exact addsWhole_hardResetSeq.bind fun _ => addsWhole_softResetSeq
  | hard => exact addsWhole_hardResetSeq
  | soft => exact addsWhole_softResetSeq

theorem addsWhole_rotationSeq (n : Nat) : AddsWhole outside (rotationSeq n) :=
  after_withState fun _ => (addsWhole_setRotation _).bind fun _ => addsWhole_sendCmd _ _

theorem addsWhole_initSeq : AddsWhole outside initSeq :=
  addsWhole_initResetSeq.bind fun _ => (addsWhole_sendCmd _ _).bind fun _ =>
    AddsWhole.bind (after_withState fun _ => addsWhole_sendCmd _ _) fun _ =>
    AddsWhole.bind (after_withState fun _ => addsWhole_rotationSeq _) fun _ =>
    (addsWhole_sendCmd _ _).bind fun _ => (addsWhole_sendCmd _ _).bind fun _ =>
    (addsWhole_fillScreen 0).bind fun _ => (addsWhole_setBl _).bind fun _ =>
    (addsWhole_sendCmd _ _).bind fun _ => addsWhole_delayFor _

/-! ## Every command (R150) -/

/-- A command adds what its body adds: the checks before it and the status write behind it emit
nothing. -/
theorem runCommand_growsWhole {body : Cmd Unit} (h : AddsWhole outside body) (len : Nat)
    (fieldsOk : Bool) (s : State) : GrowsWhole outside s (runCommand len fieldsOk body s) := by
  have hbusy : GrowsWhole outside s { s with busy := true } := growsWhole_silent rfl rfl
  unfold runCommand
  split
  · exact growsWhole_silent rfl rfl
  split
  · exact growsWhole_silent rfl rfl
  split
  case h_1 e => exact (hbusy.trans (h.ok e)).trans (growsWhole_silent rfl rfl)
  case h_2 e => exact (hbusy.trans (h.error e).1).trans (growsWhole_silent rfl rfl)

/-- Every command runs a body that adds whole brackets. -/
theorem exec_runs_addsWhole (i : Instr) (s : State) :
    ∃ len fieldsOk body, exec i s = .next (runCommand len fieldsOk body s) ∧
      AddsWhole outside body := by
  cases i with
  | send => exact ⟨_, _, _, rfl, (addsWhole_memRead _ _).bind fun _ => addsWhole_send _ _⟩
  | setWindow =>
    exact ⟨_, _, _, rfl, (addsWhole_openWindow _ _ _ _).bind fun _ => addsWhole_pure ()⟩
  | rotation => exact ⟨_, _, _, rfl, addsWhole_rotationSeq _⟩
  | fill c => exact ⟨_, _, _, rfl, addsWhole_fillScreen c⟩
  | fillRect _ _ _ _ c => exact ⟨_, _, _, rfl, (addsWhole_fillStream c _).pixelStream _ _ _ _⟩
  | pixel _ _ c => exact ⟨_, _, _, rfl, addsWhole_pixelOp _ _ c⟩
  | hline _ _ _ c => exact ⟨_, _, _, rfl, addsWhole_hlineOp _ _ _ c⟩
  | vline _ _ _ c => exact ⟨_, _, _, rfl, addsWhole_vlineOp _ _ _ c⟩
  | rect _ _ _ _ c =>
    exact ⟨_, _, _, rfl, (addsWhole_hlineOp _ _ _ c).bind fun _ =>
      (addsWhole_vlineOp _ _ _ c).bind fun _ => (addsWhole_hlineOp _ _ _ c).bind fun _ =>
      addsWhole_vlineOp _ _ _ c⟩
  | line _ _ _ _ c => exact ⟨_, _, _, rfl, addsWhole_lineOp _ _ _ _ c⟩
  | blit => exact ⟨_, _, _, rfl, (addsWhole_memStream _ _ (by decide)).pixelStream _ _ _ _⟩
  | text => exact ⟨_, _, _, rfl, addsWhole_textLoop _ _ _ _⟩
  | write =>
    exact ⟨_, _, _, rfl, (addsWhole_writeLoop _ _ _ _ _).bind fun _ =>
      (addsWhole_setResult _).bind fun _ => addsWhole_forgetCursor⟩
  | writeLen =>
    exact ⟨_, _, _, rfl, (addsWhole_measureLoop _ _ _ _ _ _ _).bind fun _ => addsWhole_setResult _⟩
  | bitmap => exact ⟨_, _, _, rfl, addsWhole_bitmapOp _ _ _ _ _ _ _ _ _ _⟩
  | hardReset => exact ⟨_, _, _, rfl, addsWhole_hardResetSeq⟩
  | softReset => exact ⟨_, _, _, rfl, addsWhole_softResetSeq⟩
  | sleep => exact ⟨_, _, _, rfl, after_ite (addsWhole_sendCmd _ _) (addsWhole_sendCmd _ _)⟩
  | invert => exact ⟨_, _, _, rfl, after_ite (addsWhole_sendCmd _ _) (addsWhole_sendCmd _ _)⟩
  | init => exact ⟨_, _, _, rfl, addsWhole_initSeq⟩
  | vscrollDefine => exact ⟨_, _, _, rfl, addsWhole_sendCmd _ _⟩
  | vscrollSet => exact ⟨_, _, _, rfl, addsWhole_sendCmd _ _⟩
  | width => exact ⟨_, _, _, rfl, after_withState fun _ => addsWhole_setResult _⟩
  | height => exact ⟨_, _, _, rfl, after_withState fun _ => addsWhole_setResult _⟩

/-- Settles O21: the body of every command adds whole brackets, and nothing besides it emits. -/
theorem bracketsClose : Obligations.BracketsClose := by
  unfold Obligations.BracketsClose
  intro i s t h
  obtain ⟨len, fieldsOk, body, hexec, hbody⟩ := exec_runs_addsWhole i s
  rw [hexec, Host.Outcome.next.injEq] at h
  subst h
  obtain ⟨-, es, htrace, hscan, hok⟩ := runCommand_growsWhole hbody len fieldsOk s
  exact ⟨es, htrace, hscan, hok⟩

end Sys2Proof.Machine
end

section
/-! PROOF. ROTATION as a function of n mod N: what it leaves in ROT, WIDTH and HEIGHT whatever its
transfers do, and from this its idempotence (spec/40_protocol_window.md R170, R171, R173). -/

namespace Sys2Proof.Machine

/-! ## What no transfer touches -/

/-- The configuration, ROT, WIDTH and HEIGHT stand. -/
def SameGeometry (s t : State) : Prop :=
  t.cfg = s.cfg ∧ t.rot = s.rot ∧ t.width = s.width ∧ t.height = s.height

theorem sameGeometry_respects : Respects SameGeometry where
  refl _ := ⟨rfl, rfl, rfl, rfl⟩
  trans := fun _ _ _ ⟨hcfg, hrot, hwidth, hheight⟩ ⟨hcfg', hrot', hwidth', hheight'⟩ =>
    ⟨hcfg'.trans hcfg, hrot'.trans hrot, hwidth'.trans hwidth, hheight'.trans hheight⟩
  emit s e := ⟨State_emit_cfg s e, State_emit_rot s e, State_emit_width s e, State_emit_height s e⟩
  xferDraw _ := ⟨rfl, rfl, rfl, rfl⟩
  line _ _ := ⟨rfl, rfl, rfl, rfl⟩

/-! ## The rotation sequence (R170) -/

/-- The state holds the registers of rotation r under the configuration c. -/
def HoldsRotation (c : Config) (r : Nat) (t : State) : Prop :=
  t.cfg = c ∧ t.rot = BitVec.ofNat 3 r ∧ t.width = rotatedWidth c r ∧ t.height = rotatedHeight c r

theorem HoldsRotation.of_sameGeometry {c : Config} {r : Nat} {t u : State}
    (h : HoldsRotation c r t) (hu : SameGeometry t u) : HoldsRotation c r u := by
  obtain ⟨hcfg, hrot, hwidth, hheight⟩ := hu
  unfold HoldsRotation
  rwa [hcfg, hrot, hwidth, hheight]

theorem rotationSeq_congr {n n' : Nat} {s : State}
    (h : n % s.cfg.variant.count = n' % s.cfg.variant.count) :
    rotationSeq n s = rotationSeq n' s := by
  simp only [rotationSeq, withState_apply, h]

theorem setRotation_holds (r : Nat) (s : State) :
    ∃ t, setRotation r s = .ok () t ∧ HoldsRotation s.cfg r t :=
  ⟨_, rfl, rfl, rfl, rfl, rfl⟩

/-- The registers are written before the orientation byte is sent, so a failed transfer leaves
them. -/
theorem rotationSeq_after (n : Nat) :
    After (fun s t => HoldsRotation s.cfg (n % s.cfg.variant.count) t) (fun _ => True)
      (rotationSeq n) := by
  intro s
  obtain ⟨u, hset, hholds⟩ := setRotation_holds (n % s.cfg.variant.count) s
  have hsend := after_sendCmd (Q := fun _ => True) sameGeometry_respects (fun _ => trivial)
    Config.cmdMadctl [s.cfg.madctlBase ||| rotationBits s.cfg (n % s.cfg.variant.count)]
  rw [rotationSeq, withState_apply, cmd_bind_ok hset]
  split
  case h_1 hok => exact hholds.of_sameGeometry (hsend.ok hok)
  case h_2 herr => exact ⟨hholds.of_sameGeometry (hsend.error herr).1, trivial⟩

/-! ## The command (R170, R173) -/

theorem exec_rotation (n : Byte) (s : State) :
    exec (.rotation n) s = .next (runCommand 1 true (rotationSeq n.toNat) s) := rfl

theorem exec_rotation_congr {n n' : Byte} {s : State}
    (h : n.toNat % s.cfg.variant.count = n'.toNat % s.cfg.variant.count) :
    exec (.rotation n) s = exec (.rotation n') s := by
  have hseq := rotationSeq_congr (s := { s with busy := true }) h
  simp only [exec_rotation, runCommand, hseq]

theorem exec_rotation_holds {n : Byte} {s t : State} (hc : configLegal s.cfg = true)
    (h : exec (.rotation n) s = .next t) :
    HoldsRotation s.cfg (n.toNat % s.cfg.variant.count) t := by
  rw [exec_rotation, Host.Outcome.next.injEq] at h
  subst h
  cases e : rotationSeq n.toNat { s with busy := true } with
  | ok a t =>
    rw [runCommand_ok hc e]
    exact ((rotationSeq_after n.toNat).ok e).of_sameGeometry ⟨rfl, rfl, rfl, rfl⟩
  | error f t =>
    rw [runCommand_raised hc e]
    exact ((rotationSeq_after n.toNat).error e).1.of_sameGeometry ⟨rfl, rfl, rfl, rfl⟩

/-- Settles O30: every clause reads the registers off `exec_rotation_holds`. -/
theorem rotationIdempotent : Obligations.RotationIdempotent := by
  unfold Obligations.RotationIdempotent
  constructor
  · intro n n' s hmod
    refine ⟨exec_rotation_congr hmod, fun t u hc ht hu => ?_⟩
    obtain ⟨hcfg, hrot, hwidth, hheight⟩ := exec_rotation_holds hc ht
    have hu' := exec_rotation_holds (hcfg ▸ hc) hu
    rw [hcfg, ← hmod] at hu'
    obtain ⟨-, hrot', hwidth', hheight'⟩ := hu'
    exact ⟨hrot'.trans hrot.symm, hwidth'.trans hwidth.symm, hheight'.trans hheight.symm⟩
  · intro n m s t u hc _ hm ht hu
    obtain ⟨hcfg, -⟩ := exec_rotation_holds hc ht
    have hu' := exec_rotation_holds (hcfg ▸ hc) hu
    rw [hcfg] at hu'
    obtain ⟨-, -, hwidth, hheight⟩ := hu'
    simp only [rotatedWidth, rotatedHeight, hm] at hwidth hheight
    exact ⟨hwidth, hheight⟩

end Sys2Proof.Machine
end

section
/-! PROOF. The transfers of `FillStream`: the shape of the list of chunks, full ones and then the last
one, and what the stream leaves in the fill scratch (spec/41_fill_raster.md R190, R191). -/

namespace Sys2Proof.Machine

/-! ## The list of chunks -/

theorem pixels_add (c : Half) (m n : Nat) : pixels c (m + n) = pixels c m ++ pixels c n := by
  simp only [pixels, List.replicate_add, List.flatten_append]

theorem flatten_replicate_pixels (c : Half) (k m : Nat) :
    (List.replicate k (pixels c m)).flatten = pixels c (k * m) := by
  induction k with
  | zero => simp [pixels]
  | succ k ih =>
    rw [List.replicate_succ, List.flatten_cons, ih, ← pixels_add, Nat.succ_mul, Nat.add_comm]

theorem fillTransfers_zero (c : Half) : fillTransfers c 0 = [] := by
  simp [fillTransfers_eq]

/-- A stream of at least one pixel has a last transfer, which is full when 128 divides the number of
pixels and partial otherwise; every transfer before it is full. -/
theorem fillTransfers_eq_full_concat_last (c : Half) {n : Nat} (hn : 0 < n) :
    fillTransfers c n = List.replicate (ceilDiv n 128 - 1) (pixels c 128)
      ++ [pixels c (n - 128 * (ceilDiv n 128 - 1))] := by
  rw [fillTransfers_eq]
  have hdm := Nat.div_add_mod n 128
  have hceil := ceilDiv_eq n 128 (by decide)
  by_cases hr : n % 128 = 0
  · rw [if_pos hr] at hceil ⊢
    have hdiv : n / 128 = ceilDiv n 128 - 1 + 1 := by omega
    have hlast : n - 128 * (ceilDiv n 128 - 1) = 128 := by omega
    rw [hdiv, hlast, List.replicate_succ', List.append_nil]
  · rw [if_neg hr] at hceil ⊢
    have hdiv : ceilDiv n 128 - 1 = n / 128 := by omega
    have hlast : n - 128 * (n / 128) = n % 128 := by omega
    rw [hdiv, hlast]

theorem fillTransfers_length (c : Half) (n : Nat) :
    (fillTransfers c n).length = ceilDiv n 128 := by
  rw [fillTransfers, chunksOf, List.length_map, List.length_range, pixels_length]
  unfold ceilDiv
  omega

theorem length_of_mem_dropLast_fillTransfers {c : Half} {n : Nat} {b : List Byte}
    (hb : b ∈ (fillTransfers c n).dropLast) : b.length = 256 := by
  rcases Nat.eq_zero_or_pos n with rfl | hn
  · simp [fillTransfers_zero] at hb
  · rw [fillTransfers_eq_full_concat_last c hn, List.dropLast_concat] at hb
    rw [List.eq_of_mem_replicate hb, pixels_length]

theorem length_of_getLast?_fillTransfers {c : Half} {n : Nat} {b : List Byte}
    (hb : (fillTransfers c n).getLast? = some b) :
    b.length = 2 * (n - 128 * (ceilDiv n 128 - 1)) := by
  rcases Nat.eq_zero_or_pos n with rfl | hn
  · simp [fillTransfers_zero] at hb
  · rw [fillTransfers_eq_full_concat_last c hn, List.getLast?_concat, Option.some.injEq] at hb
    rw [← hb, pixels_length]

theorem fillTransfers_flatten (c : Half) (n : Nat) :
    (fillTransfers c n).flatten = pixels c n := by
  have hdm := Nat.div_add_mod' n 128
  rw [fillTransfers_eq, List.flatten_append, flatten_replicate_pixels]
  split
  case isTrue hr =>
    rw [List.flatten_nil, List.append_nil, show n / 128 * 128 = n by omega]
  case isFalse =>
    rw [List.flatten_singleton, ← pixels_add, hdm]

/-! ## The stream -/

/-- The stream loads the whole fill scratch before it sends anything, so a scratch that holds the colour
already changes nothing. -/
theorem fillStream_of_loaded (c : Half) (n : Nat) (s : State) :
    fillStream c n s = fillStream c n (s.working (pixels c 128) s.line) := rfl

/-- `does_fillStream` leaves open whether the scratch holds the colour or what it held. Run from the
loaded scratch, the two are one. -/
theorem fillStream_ok {s : State} (h : TransportUp s) (c : Half) (n : Nat) :
    ∃ l, fillStream c n s =
      .ok () ((s.performs ((fillTransfers c n).map Event.xfer)).working (pixels c 128) l) := by
  obtain ⟨f, l, hleft, hrun⟩ := does_fillStream (transportUp_working h (pixels c 128) s.line) c n
  have hf : f = pixels c 128 := (fillLeft_singleton hleft).elim id id
  rw [← fillStream_of_loaded, performs_working, working_working, hf] at hrun
  exact ⟨l, hrun⟩

/-- Settles O32: the transfers are `fillTransfers`, whose shape the lemmas above give. -/
theorem fillStreamTransfers : Obligations.FillStreamTransfers := by
  unfold Obligations.FillStreamTransfers
  intro c n s h
  obtain ⟨l, hrun⟩ := fillStream_ok h c n
  refine ⟨_, fillTransfers c n, hrun, rfl, rfl, fillTransfers_length c n,
    fun _ => length_of_mem_dropLast_fillTransfers, fun _ => length_of_getLast?_fillTransfers,
    fillTransfers_flatten c n, ?_⟩
  rw [fillTransfers_flatten, pixels_length]

end Sys2Proof.Machine
end

section
/-! PROOF. The control commands that make no transfer: the reset pulse and the two geometry queries need
only a legal configuration, so the draws play no part in them (spec/44_control.md R310, R330, R331). -/

namespace Sys2Proof.Machine

/-! ## The reset pulse (R310) -/

theorem exec_hardReset (s : State) :
    exec .hardReset s = .next (runCommand 1 true hardResetSeq s) := rfl

/-- Settles O52: `makes_hardResetSeq` asks nothing of the transport, and the flag that stands while the
command executes does not reach the pins' configuration. -/
theorem hardResetPulses : Obligations.HardResetPulses := by
  unfold Obligations.HardResetPulses
  intro s hc
  have hmakes : Makes hardResetSeq { s with busy := true } (hardResetEvents s.cfg) :=
    makes_hardResetSeq { s with busy := true }
  rw [exec_hardReset, runCommand_unfilled hc hmakes.does]

/-! ## The geometry queries (R330, R331) -/

theorem exec_width (s : State) :
    exec .width s = .next (runCommand 1 true (withState fun t => setResult t.width.toNat) s) := rfl

theorem exec_height (s : State) :
    exec .height s = .next (runCommand 1 true (withState fun t => setResult t.height.toNat) s) := rfl

/-- The value of a half word as RESULT is that half word zero-extended. -/
theorem setResult_half (v : Half) (s : State) :
    setResult v.toNat s = .ok () { s with result := v.setWidth 32 } := by
  rw [setResult, update_apply, BitVec.ofNat_toNat]

/-- A command that only leaves a half word of the state in RESULT, one that the start of a command does
not touch, completes without an event. -/
theorem runCommand_setResult {len : Nat} {q : State → Half} {s : State}
    (hc : configLegal s.cfg = true) (hq : q { s with busy := true } = q s) :
    runCommand len true (withState fun t => setResult (q t).toNat) s =
      State.completed { s with result := (q s).setWidth 32 } len [] := by
  have hbody : (withState fun t => setResult (q t).toNat) { s with busy := true } =
      .ok () { s with busy := true, result := (q s).setWidth 32 } := by
    rw [withState_apply, hq, setResult_half]
  rw [runCommand_ok hc hbody, State.completed, performs_nil]
  rfl

/-- Settles O59: both queries are one `setResult` of a register that stands through the command. -/
theorem geometryQueries : Obligations.GeometryQueries := by
  unfold Obligations.GeometryQueries
  intro s hc
  constructor
  · rw [exec_width, runCommand_setResult (q := State.width) hc rfl]
  · rw [exec_height, runCommand_setResult (q := State.height) hc rfl]

end Sys2Proof.Machine
end

section
/-! PROOF. Every command while CFG_BAD is 1: the check of the configuration stands before the fields and
the body of a command, so none of them plays a part; the decoder counts the words as ever
(spec/60_exceptions.md R357). -/

namespace Sys2Proof

/-- An illegal command of a known opcode takes its whole length, header and operands (R121). -/
theorem illegal_length_of_opcodeRow {h : Word} {ops : List Word} {row : OpcodeRow}
    {why : IllegalReason} {len : Nat} (hr : opcodeRow (headerOpc h) = some row)
    (hdecode : decodeWords (h :: ops) = .illegal why len) : len = 1 + row.formats.length := by
  rw [decodeWords_known hr] at hdecode
  split at hdecode
  case isTrue => cases hdecode
  case isFalse =>
    obtain ⟨i, hread⟩ := readFields_of_opcodeRow hr (ops.take row.formats.length)
    rcases checkCommand_cases (row := row) hread with ⟨-, -, -, -, -, hlegal⟩ | ⟨why', -, hillegal⟩
    · cases hlegal.symm.trans hdecode
    · cases hillegal.symm.trans hdecode
      rfl

/-- An illegal command of an opcode outside the map takes its header alone (R124). -/
theorem illegal_length_of_unknown {h : Word} {ops : List Word} {why : IllegalReason} {len : Nat}
    (hr : opcodeRow (headerOpc h) = none)
    (hdecode : decodeWords (h :: ops) = .illegal why len) : len = 1 := by
  cases (decodeWords_unknown ops hr).symm.trans hdecode
  rfl

end Sys2Proof

namespace Sys2Proof.Machine

/-! ## The check of the configuration (R357) -/

theorem cfgBad_iff (s : State) : cfgBad s = true ↔ configLegal s.cfg = false :=
  iff_of_eq (Bool.not_eq_true' _)

theorem runCommand_of_cfgBad {s : State} (hbad : cfgBad s = true) (len : Nat) (fieldsOk : Bool)
    (body : Cmd Unit) : runCommand len fieldsOk body s = s.ended len .configurationError :=
  if_pos ((cfgBad_iff s).mp hbad)

/-- Every command is one `runCommand` over its header and its L operand words (R33, R118). -/
theorem exec_eq_runCommand (i : Instr) (s : State) :
    ∃ fieldsOk body, exec i s = .next (runCommand (1 + i.operandCount) fieldsOk body s) := by
  cases i <;> exact ⟨_, _, rfl⟩

theorem exec_of_cfgBad {s : State} (hbad : cfgBad s = true) (i : Instr) :
    exec i s = .next (s.ended (1 + i.operandCount) .configurationError) := by
  obtain ⟨fieldsOk, body, hexec⟩ := exec_eq_runCommand i s
  rw [hexec, runCommand_of_cfgBad hbad]

theorem illegalCommand_of_cfgBad {s : State} (hbad : cfgBad s = true) (len : Nat) :
    illegalCommand len s = s.ended len .configurationError :=
  runCommand_of_cfgBad hbad len false (pure ())

/-! ## A word that completes no command (R42) -/

theorem step_incomplete {s : State} {w : Word} {rest : List HostOp} {n : Nat}
    (hbusy : s.busy = false) (hheld : s.resetHeld = false)
    (hinbox : s.inbox = .writeReg .word 0 w :: rest)
    (hdecode : decodeWords (s.pending ++ [w]) = .incomplete n) :
    step s = .next { s with inbox := rest, pending := s.pending ++ [w], cp := s.cp + 1 } := by
  simp [step, portNext_writeCmd hbusy hheld hinbox, acceptWord, hdecode]

/-- Settles O10: legal and illegal commands both end at the check of the configuration, which the
acceptance of a word does not consult. -/
theorem configurationError : Obligations.ConfigurationError := by
  unfold Obligations.ConfigurationError
  refine ⟨fun i s hbad => exec_of_cfgBad hbad i, ?_, ?_⟩
  · intro s h w rest why len hbad hbusy hheld hinbox hhead hdecode
    constructor
    · rw [List.eq_cons_of_mem_head? hhead] at hdecode
      cases hrow : opcodeRow (headerOpc h) with
      | none => exact illegal_length_of_unknown hrow hdecode
      | some row => exact illegal_length_of_opcodeRow hrow hdecode
    · rw [step_illegal hbusy hheld hinbox hdecode, illegalCommand_of_cfgBad (by exact hbad)]
  · intro s w rest n _ hbusy hheld hinbox hdecode
    exact step_incomplete hbusy hheld hinbox hdecode

end Sys2Proof.Machine
end

section
/-! PROOF. Encoding and decoding are inverse to each other, and the opcode alone decides how many words a
command takes (spec/30_encoding.md R110 to R124). -/

namespace Sys2Proof

/-! ## From the command to its words and back (R111 to R118) -/

@[simp] theorem flagByte_getElem_zero (b : Bool) : (flagByte b)[0] = b := flagByte_bit b

@[simp] theorem flagByte_and_mask (b : Bool) : flagByte b &&& 0xFE#8 = 0#8 := flagByte_mask b

/-- The words of a command whose header leaves RSV and the must-be-0 bits of A and B at 0, whose operand
words do the same, and whose fields read as a command that meets R120. -/
theorem decodeWords_packed {opc a b : Byte} {ops : List Word} {row : OpcodeRow} {i : Instr}
    (hrow : opcodeRow opc = some row) (hlen : ops.length = row.formats.length)
    (ha : a &&& row.aZero = 0) (hb : b &&& row.bZero = 0)
    (hops : operandBitsOk row.formats ops = true)
    (hread : readFields (packHeader opc a b) ops = some i) (hwf : i.wf = true) :
    decodeWords (packHeader opc a b :: ops) = .command i := by
  rw [decodeWords_known (row := row) (by rwa [headerOpc_pack]), if_neg (by omega), ← hlen,
    List.take_length]
  simp [checkCommand, ha, hb, hops, hread, hwf]

/-- Settles O1: the row of each opcode masks nothing that its encoding sets, and its fields are read
back from where the encoding packs them. -/
theorem decodeOfEncode : Obligations.DecodeOfEncode := by
  unfold Obligations.DecodeOfEncode
  intro i hwf
  cases i <;>
    exact decodeWords_packed rfl rfl (by simp) (by simp)
      (by simp [operandBitsOk, Format.mustBeZero]) (by simp [readFields, opWord]) hwf

/-! ## How many words a command takes (R118, R124) -/

/-- The opcodes of the map, with the number of operand words of each (R118). -/
theorem opcodeRow_eq_some {opc : Byte} (hlow : 1 ≤ opc.toNat) (hhigh : opc.toNat ≤ 0x18) :
    ∃ row, opcodeRow opc = some row ∧
      row.formats.length = Machine.operandCounts.getD (opc.toNat - 1) 0 := by
  generalize hn : opc.toNat = n at hlow hhigh
  obtain rfl : opc = BitVec.ofNat 8 n := by rw [← hn, BitVec.ofNat_toNat, BitVec.setWidth_eq]
  interval_cases n <;> exact ⟨_, rfl, rfl⟩

/-- The command that the fields of a known opcode read as has the operand count of its row. -/
theorem operandCount_of_readFields {h : Word} {ops : List Word} {row : OpcodeRow} {i : Instr}
    (hrow : opcodeRow (headerOpc h) = some row) (hread : readFields h ops = some i) :
    i.operandCount = row.formats.length := by
  unfold readFields at hread
  unfold opcodeRow at hrow
  split at hread
  case h_25 => cases hread
  all_goals
    rename_i hopc
    rw [hopc] at hrow
    cases hread
    cases hrow
    rfl

/-- A known opcode with all its operand words is the check of R121 on these. -/
theorem decodeWords_complete {h : Word} {ops : List Word} {row : OpcodeRow}
    (hrow : opcodeRow (headerOpc h) = some row) (hlen : row.formats.length ≤ ops.length) :
    decodeWords (h :: ops) = checkCommand row h (ops.take row.formats.length) := by
  rw [decodeWords_known hrow, if_neg (by omega)]

/-- Settles O3: the row of the opcode, or that it has none, decides. -/
theorem opcodeDecidesLength : Obligations.OpcodeDecidesLength := by
  unfold Obligations.OpcodeDecidesLength
  intro h ops opc
  constructor
  · intro hopc
    exact decodeWords_unknown ops (opcodeRow_eq_none hopc)
  · intro hlow hhigh n
    obtain ⟨row, hrow, hcount⟩ := opcodeRow_eq_some hlow hhigh
    have hn : row.formats.length = n := hcount
    constructor
    · intro hshort
      rw [decodeWords_known hrow, if_pos (by omega), hn]
    · intro hlen
      rw [decodeWords_complete hrow (by omega), ← hn]
      obtain ⟨i, hread⟩ := readFields_of_opcodeRow hrow (ops.take row.formats.length)
      rcases checkCommand_cases (row := row) hread with ⟨-, -, -, -, -, hlegal⟩ | ⟨why, hwhy, hbad⟩
      · exact .inl ⟨i, hlegal, operandCount_of_readFields hrow hread⟩
      · exact .inr ⟨why, hwhy, hbad⟩

/-! ## From the words back to their encoding (R111, R112, R117, R121) -/

@[simp] theorem operandBitsOk_nil (ws : List Word) : operandBitsOk [] ws = true := by
  cases ws <;> rfl

@[simp] theorem operandBitsOk_cons (f : Format) (fs : List Format) (w : Word) (ws : List Word) :
    operandBitsOk (f :: fs) (w :: ws) = true ↔
      w &&& f.mustBeZero = 0 ∧ operandBitsOk fs ws = true := by
  rw [operandBitsOk, Bool.and_eq_true, decide_eq_true_eq]

@[simp] theorem packHalves_lowHalf_highHalf (w : Word) :
    packHalves (lowHalf w) (highHalf w) = w := packHalves_unpack w

@[simp] theorem packBytes_wordBytes (w : Word) :
    packBytes (wordByte w 0) (wordByte w 1) (wordByte w 2) (wordByte w 3) = w := packBytes_unpack w

@[simp] theorem packLow_lowHalf {w : Word} (h : w &&& 0xFFFF0000#32 = 0#32) :
    packLow (lowHalf w) = w := packLow_unpack w h

@[simp] theorem packBytes_wordByte_zero {w : Word} (h : w &&& 0xFFFFFF00#32 = 0#32) :
    packBytes (wordByte w 0) 0#8 0#8 0#8 = w := packByte_unpack w h

/-- A header byte all of whose bits must be 0. -/
theorem byte_eq_zero_of_mask {b : Byte} (h : b &&& 0xFF = 0) : b = 0 := by
  have hall : (0xFF : Byte) = BitVec.allOnes 8 := rfl
  rwa [hall, BitVec.and_allOnes] at h

/-- A header byte with one field, in bit 0. -/
theorem flagByte_of_mask {b : Byte} (h : b &&& 0xFE = 0) : flagByte (b.getLsbD 0) = b := by
  revert b
  decide

/-- A header is packed from its opcode and its bytes A and B (R111). -/
theorem packHeader_eq {h : Word} {opc a b : Byte} (hrsv : headerRsv h = 0)
    (hopc : (headerOpc h).toNat = opc.toNat) (ha : headerA h = a) (hb : headerB h = b) :
    packHeader opc a b = h := by
  rw [← BitVec.eq_of_toNat_eq hopc, ← ha, ← hb, packHeader_unpack h hrsv]

theorem headerB_bit_zero (h : Word) : (headerB h).getLsbD 0 = h.getLsbD 16 :=
  field_bit h 16 8 0 (by decide)

theorem headerA_bit_zero (h : Word) : (headerA h).getLsbD 0 = h.getLsbD 8 :=
  field_bit h 8 8 0 (by decide)

/-- The words whose must-be-0 bits are 0 are the encoding of the command that their fields read as. -/
theorem encode_of_readFields {h : Word} {ops : List Word} {row : OpcodeRow} {i : Instr}
    (hrow : opcodeRow (headerOpc h) = some row) (hlen : ops.length = row.formats.length)
    (hrsv : headerRsv h = 0) (ha : headerA h &&& row.aZero = 0) (hb : headerB h &&& row.bZero = 0)
    (hops : operandBitsOk row.formats ops = true) (hread : readFields h ops = some i) :
    encode i = h :: ops := by
  have hzeroA : row.aZero = 0xFF → headerA h = 0 := fun e => byte_eq_zero_of_mask (e ▸ ha)
  have hzeroB : row.bZero = 0xFF → headerB h = 0 := fun e => byte_eq_zero_of_mask (e ▸ hb)
  have hen : row.aZero = 0xFE → headerA h = flagByte (h.getLsbD 8) := fun e => by
    rw [← headerA_bit_zero, flagByte_of_mask (e ▸ ha)]
  have hhasCmd : row.bZero = 0xFE → headerB h = flagByte (h.getLsbD 16) := fun e => by
    rw [← headerB_bit_zero, flagByte_of_mask (e ▸ hb)]
  unfold readFields at hread
  unfold opcodeRow at hrow
  split at hread
  case h_25 => cases hread
  all_goals
    rename_i hopc
    rw [hopc] at hrow
    cases hread
    cases hrow
  case h_1 =>
    refine congrArg₂ List.cons (packHeader_eq hrsv hopc rfl (hhasCmd rfl)) ?_
    match ops, hlen with
    | [addr, len], _ => simp_all [Format.mustBeZero, opWord]
  case h_2 =>
    refine congrArg₂ List.cons (packHeader_eq hrsv hopc (hzeroA rfl) (hzeroB rfl)) ?_
    match ops, hlen with
    | [xx, yy], _ => simp_all [Format.mustBeZero, opWord]
  case h_3 =>
    refine congrArg₂ List.cons (packHeader_eq hrsv hopc rfl (hzeroB rfl)) ?_
    exact (List.length_eq_zero_iff.mp hlen).symm
  case h_4 =>
    refine congrArg₂ List.cons (packHeader_eq hrsv hopc (hzeroA rfl) (hzeroB rfl)) ?_
    match ops, hlen with
    | [c], _ => simp_all [Format.mustBeZero, opWord]
  case h_5 =>
    refine congrArg₂ List.cons (packHeader_eq hrsv hopc (hzeroA rfl) (hzeroB rfl)) ?_
    match ops, hlen with
    | [xy, wh, c], _ => simp_all [Format.mustBeZero, opWord]
  case h_6 =>
    refine congrArg₂ List.cons (packHeader_eq hrsv hopc (hzeroA rfl) (hzeroB rfl)) ?_
    match ops, hlen with
    | [xy, c], _ => simp_all [Format.mustBeZero, opWord]
  case h_7 =>
    refine congrArg₂ List.cons (packHeader_eq hrsv hopc (hzeroA rfl) (hzeroB rfl)) ?_
    match ops, hlen with
    | [xy, len, c], _ => simp_all [Format.mustBeZero, opWord]
  case h_8 =>
    refine congrArg₂ List.cons (packHeader_eq hrsv hopc (hzeroA rfl) (hzeroB rfl)) ?_
    match ops, hlen with
    | [xy, len, c], _ => simp_all [Format.mustBeZero, opWord]
  case h_9 =>
    refine congrArg₂ List.cons (packHeader_eq hrsv hopc (hzeroA rfl) (hzeroB rfl)) ?_
    match ops, hlen with
    | [xy, wh, c], _ => simp_all [Format.mustBeZero, opWord]
  case h_10 =>
    refine congrArg₂ List.cons (packHeader_eq hrsv hopc (hzeroA rfl) (hzeroB rfl)) ?_
    match ops, hlen with
    | [start, stop, c], _ => simp_all [Format.mustBeZero, opWord]
  case h_11 =>
    refine congrArg₂ List.cons (packHeader_eq hrsv hopc (hzeroA rfl) (hzeroB rfl)) ?_
    match ops, hlen with
    | [addr, len, xy, wh], _ => simp_all [Format.mustBeZero, opWord]
  case h_12 =>
    refine congrArg₂ List.cons (packHeader_eq hrsv hopc (hzeroA rfl) (hzeroB rfl)) ?_
    match ops, hlen with
    | [font, geom, str, n, xy, colours], _ => simp_all [Format.mustBeZero, opWord]
  case h_13 =>
    refine congrArg₂ List.cons (packHeader_eq hrsv hopc rfl rfl) ?_
    match ops, hlen with
    | [map, mlen, widths, offsets, bits, hgt, str, n, xy, colours], _ => simp_all [Format.mustBeZero, opWord]
  case h_14 =>
    refine congrArg₂ List.cons (packHeader_eq hrsv hopc (hzeroA rfl) (hzeroB rfl)) ?_
    match ops, hlen with
    | [map, mlen, widths, str, n], _ => simp_all [Format.mustBeZero, opWord]
  case h_15 =>
    refine congrArg₂ List.cons (packHeader_eq hrsv hopc rfl (hzeroB rfl)) ?_
    match ops, hlen with
    | [bits, pal, plen, wh, frames, xy], _ => simp_all [Format.mustBeZero, opWord]
  case h_16 =>
    refine congrArg₂ List.cons (packHeader_eq hrsv hopc (hzeroA rfl) (hzeroB rfl)) ?_
    exact (List.length_eq_zero_iff.mp hlen).symm
  case h_17 =>
    refine congrArg₂ List.cons (packHeader_eq hrsv hopc (hzeroA rfl) (hzeroB rfl)) ?_
    exact (List.length_eq_zero_iff.mp hlen).symm
  case h_18 =>
    refine congrArg₂ List.cons (packHeader_eq hrsv hopc (hen rfl) (hzeroB rfl)) ?_
    exact (List.length_eq_zero_iff.mp hlen).symm
  case h_19 =>
    refine congrArg₂ List.cons (packHeader_eq hrsv hopc (hen rfl) (hzeroB rfl)) ?_
    exact (List.length_eq_zero_iff.mp hlen).symm
  case h_20 =>
    refine congrArg₂ List.cons (packHeader_eq hrsv hopc (hzeroA rfl) (hzeroB rfl)) ?_
    exact (List.length_eq_zero_iff.mp hlen).symm
  case h_21 =>
    refine congrArg₂ List.cons (packHeader_eq hrsv hopc (hzeroA rfl) (hzeroB rfl)) ?_
    match ops, hlen with
    | [tv, bfa], _ => simp_all [Format.mustBeZero, opWord]
  case h_22 =>
    refine congrArg₂ List.cons (packHeader_eq hrsv hopc (hzeroA rfl) (hzeroB rfl)) ?_
    match ops, hlen with
    | [vsp], _ => simp_all [Format.mustBeZero, opWord]
  case h_23 =>
    refine congrArg₂ List.cons (packHeader_eq hrsv hopc (hzeroA rfl) (hzeroB rfl)) ?_
    exact (List.length_eq_zero_iff.mp hlen).symm
  case h_24 =>
    refine congrArg₂ List.cons (packHeader_eq hrsv hopc (hzeroA rfl) (hzeroB rfl)) ?_
    exact (List.length_eq_zero_iff.mp hlen).symm

/-- What a list of words that decodes to a command is: the header of a known opcode, at least as many
operand words as its row has, and every field as R121 asks. -/
theorem decodeWords_eq_command {ws : List Word} {i : Instr} (hdecode : decodeWords ws = .command i) :
    ∃ h ops row, ws = h :: ops ∧ opcodeRow (headerOpc h) = some row ∧
      row.formats.length ≤ ops.length ∧ i.wf = true ∧ i.operandCount = row.formats.length ∧
      encode i = h :: ops.take row.formats.length := by
  cases ws with
  | nil => cases hdecode
  | cons h ops =>
    cases hrow : opcodeRow (headerOpc h) with
    | none => cases (decodeWords_unknown ops hrow).symm.trans hdecode
    | some row =>
      by_cases hlen : row.formats.length ≤ ops.length
      case neg =>
        rw [decodeWords_known hrow, if_pos (by omega)] at hdecode
        cases hdecode
      rw [decodeWords_complete hrow hlen] at hdecode
      obtain ⟨j, hread⟩ := readFields_of_opcodeRow hrow (ops.take row.formats.length)
      rcases checkCommand_cases (row := row) hread with
        ⟨hrsv, ha, hb, hops, hwf, hlegal⟩ | ⟨why, -, hbad⟩
      case inr => cases hbad.symm.trans hdecode
      obtain rfl : j = i := Decoded.command.inj (hlegal.symm.trans hdecode)
      have htake : (ops.take row.formats.length).length = row.formats.length := by
        rw [List.length_take]
        omega
      exact ⟨h, ops, row, rfl, hrow, hlen, hwf, operandCount_of_readFields hrow hread,
        encode_of_readFields hrow htake hrsv ha hb hops hread⟩

/-- Settles O2: the fields read are packed back into the words they were read from. -/
theorem encodeOfDecode : Obligations.EncodeOfDecode := by
  unfold Obligations.EncodeOfDecode
  intro ws i hdecode
  obtain ⟨h, ops, row, rfl, -, hlen, hwf, hcount, hencode⟩ := decodeWords_eq_command hdecode
  rw [hencode, hcount, Nat.add_comm 1, List.take_succ_cons, List.length_cons]
  exact ⟨hwf, by omega, rfl⟩

end Sys2Proof

namespace Sys2Proof.Machine

/-! ## The word that completes a command (R33, R42) -/

/-- Settles O5: the word is accepted, and with it the buffer decodes to the command. -/
theorem stepRunsDecoded : Obligations.StepRunsDecoded := by
  unfold Obligations.StepRunsDecoded
  intro s w rest i hbusy hheld hinbox hdecode
  simp [step, portNext_writeCmd hbusy hheld hinbox, acceptWord, hdecode]

/-- Settles O6: a word that leaves operands outstanding is stored and counted. -/
theorem stepTakesOperand : Obligations.StepTakesOperand := by
  unfold Obligations.StepTakesOperand
  intro s w rest n hbusy hheld hinbox hdecode
  exact ⟨_, step_incomplete hbusy hheld hinbox hdecode, rfl, by simp [partialBit]⟩

/-- The moves of a host that has written all but the last of at least one word. -/
theorem withCommandWords_concat (s : State) (ws : List Word) (w : Word) :
    s.withCommandWords (ws ++ [w]) =
      { s with busy := false, resetHeld := false, pending := ws, cp := s.cp + ws.length,
               inbox := .writeReg .word 0 w :: s.inbox } := by
  simp [State.withCommandWords]

theorem encode_ne_nil (i : Instr) : encode i ≠ [] := by
  cases i <;> exact List.cons_ne_nil _ _

/-- Settles O7: the buffer holds the encoding but its last word, which completes the command (O1, O5). -/
theorem encodedCommandRuns : Obligations.EncodedCommandRuns := by
  unfold Obligations.EncodedCommandRuns
  intro s i hbusy hheld hpending hwf
  have hwords := List.dropLast_append_getLast (encode_ne_nil i)
  have hdecode := decodeOfEncode i hwf
  rw [← hwords] at hdecode ⊢
  rw [withCommandWords_concat, stepRunsDecoded _ _ s.inbox i rfl rfl rfl hdecode]
  have hs : { s with busy := false, resetHeld := false, pending := [] } = s := by
    cases s
    simp_all
  simp only [Nat.add_sub_cancel, hs]

end Sys2Proof.Machine
end

section
/-! PROOF. The host's side of the block: STATUS, the rest of the register map, host writes of resource
memory and the block reset, each one settled move of the host (spec/10_state.md R38 to R41, R51,
spec/20_memory.md R70, R87, spec/70_reset_and_hazards.md R390). -/

namespace Sys2Proof.Machine

/-! ## Register accesses (R40, R41) -/

theorem step_readReg {s : State} {offset : BitVec 5} {rest : List HostOp} (hbusy : s.busy = false)
    (halign : offset.toNat % 4 = 0) (hinbox : s.inbox = .readReg .word offset :: rest) :
    step s = .next { s with
      inbox := rest, readData := registerValue offset { s with inbox := rest } } :=
  step_of_hostMove_settled hbusy hinbox (hostMove_readReg_aligned halign _)

theorem step_writeReg_settled {s : State} {offset : BitVec 5} {v : Word} {rest : List HostOp}
    {o : Host.Outcome State Fault Refusal} (hbusy : s.busy = false)
    (halign : offset.toNat % 4 = 0) (hinbox : s.inbox = .writeReg .word offset v :: rest)
    (hwrite : writeRegister offset v { s with inbox := rest } = .settled o) : step s = o :=
  step_of_hostMove_settled hbusy hinbox ((hostMove_writeReg_aligned halign _ _).trans hwrite)

/-- An access of another width or alignment is refused, read or write (R41). -/
theorem accessOk_eq_false {width : AccessWidth} {offset : BitVec 5}
    (h : width ≠ .word ∨ offset.toNat % 4 ≠ 0) : accessOk width offset = false := by
  rw [← Bool.not_eq_true, accessOk_iff]
  tauto

/-- Settles O13: the offset decides, after the shape of the access. -/
theorem registerMap : Obligations.RegisterMap := by
  unfold Obligations.RegisterMap
  intro s rest hbusy
  refine ⟨fun hinbox => step_readReg hbusy (by decide) hinbox, ?_, ?_, ?_⟩
  · rintro o (rfl | rfl | rfl | rfl | rfl) hinbox <;>
      exact step_readReg hbusy (by decide) hinbox
  · rintro o v (rfl | rfl | rfl | rfl | rfl | rfl) hinbox <;>
      exact step_writeReg_settled hbusy (by decide) hinbox rfl
  · intro width o v hshape
    have hbad := accessOk_eq_false hshape
    exact ⟨fun hinbox => step_of_hostMove_settled hbusy hinbox (by simp [hostMove, hbad]),
      fun hinbox => step_of_hostMove_settled hbusy hinbox (by simp [hostMove, hbad])⟩

/-! ## STATUS (R38, R50) -/

/-- The bits of STATUS, field by field. -/
theorem statusWord_bit (s : State) (k : Nat) :
    (statusWord s).getLsbD k =
      if k = 0 then s.busy
      else if k = 1 then s.err
      else if k = 2 then partialBit s
      else if k = 3 then false
      else if k < 8 then (codeBits s.last).getLsbD (k - 4)
      else if k < 11 then s.rot.getLsbD (k - 8)
      else if k = 11 then cfgBad s
      else false := by
  unfold statusWord
  simp only [BitVec.getLsbD_append, BitVec.getLsbD_ofBool]
  rcases Nat.lt_or_ge k 12 with hk | hk
  · interval_cases k <;> simp
  · repeat rw [if_neg (by omega)]
    exact BitVec.getLsbD_zero

/-- CFG_BAD is 0 exactly when the three conditions of R50 hold. -/
theorem cfgBad_eq_false_iff (s : State) :
    cfgBad s = false ↔
      ((s.cfg.physW = 240 ∧ s.cfg.physH = 320) ∨ (s.cfg.physW = 320 ∧ s.cfg.physH = 240)) ∧
        s.cfg.hasDc = true ∧ ∀ cap, s.cfg.scratch = .resident cap → 0 ≤ cap := by
  have hscratch : scratchLegal s.cfg.scratch = true ↔
      ∀ cap, s.cfg.scratch = .resident cap → 0 ≤ cap := by
    cases s.cfg.scratch <;> simp [scratchLegal]
  rw [← hscratch]
  simp only [cfgBad, configLegal, Bool.not_eq_eq_eq_not, Bool.not_false, Bool.and_eq_true,
    decide_eq_true_eq, and_assoc]

/-- Settles O12: STATUS read back bit by bit. -/
theorem statusRead : Obligations.StatusRead := by
  unfold Obligations.StatusRead
  refine ⟨by decide, fun s rest hbusy hinbox =>
    ⟨statusWord s, step_readReg hbusy (by decide) hinbox, ?_⟩⟩
  have hbit := statusWord_bit s
  refine ⟨(hbit 0).trans hbusy, hbit 1, hbit 2, hbit 3, ?_, ?_, ?_, ?_⟩
  · refine field_eq _ _ _ fun i hi => ?_
    interval_cases i <;> exact hbit _
  · refine field_eq _ _ _ fun i hi => ?_
    interval_cases i <;> exact hbit _
  · rw [← cfgBad_eq_false_iff, show (statusWord s).getLsbD 11 = cfgBad s from hbit 11]
  · intro k hk
    rw [hbit]
    repeat rw [if_neg (by omega)]

/-! ## Resource memory (R70, R87) -/

/-- Settles O14: the write is that of the canonical memory, or none. -/
theorem hostWritesMemory : Obligations.HostWritesMemory := by
  unfold Obligations.HostWritesMemory
  intro s a b rest hbusy hmem hinbox
  constructor
  · intro ha
    refine ⟨{ s with inbox := rest, mem := s.mem.write a b },
      step_of_hostMove_settled hbusy hinbox (if_pos ha), Memory_read_write_same s.mem a b hmem,
      fun a' ha' => Memory_read_write_other s.mem a a' b ha', rfl⟩
  · intro ha
    exact step_of_hostMove_settled hbusy hinbox (if_neg (Nat.not_lt.mpr ha))

/-! ## The block reset (R51, R390, R391) -/

theorem step_assertReset {s : State} {rest : List HostOp} (hbusy : s.busy = false)
    (hinbox : s.inbox = .assertReset :: rest) :
    step s = .next (assertReset { s with inbox := rest }) :=
  step_of_hostMove_settled hbusy hinbox rfl

theorem step_releaseReset {s : State} {rest : List HostOp} (hbusy : s.busy = false)
    (hinbox : s.inbox = .releaseReset :: rest) :
    step s = .next (releaseReset { s with inbox := rest }) :=
  step_of_hostMove_settled hbusy hinbox rfl

/-- The size of the glyph scratch right after the release (R48, R51). -/
theorem blockReset_scratchSize (s : State) :
    (blockReset s).scratchSize = match s.cfg.scratch with
      | .resident cap => cap.toNat
      | .transient => 0 := rfl

end Sys2Proof.Machine

namespace Sys2Proof

open Machine in
/-- Settles O15: assertion and release are moves that settle, and no word is accepted between them. -/
theorem blockReset : Obligations.BlockReset := by
  unfold Obligations.BlockReset
  intro s rest hbusy
  refine ⟨fun hinbox => step_assertReset hbusy hinbox, ?_, ?_, ?_⟩
  · intro w hheld hinbox
    exact step_writeReg_settled hbusy (by decide) hinbox (if_pos hheld)
  · intro hheld hinbox
    rw [step_releaseReset hbusy hinbox, releaseReset_free _ (by exact hheld)]
  · intro hheld hinbox
    refine ⟨Machine.blockReset { s with inbox := rest }, ?_, rfl, rfl, rfl, rfl, rfl, rfl, rfl, rfl,
      rfl, rfl, rfl, rfl, rfl, rfl, rfl, rfl, List.length_replicate, ?_, ?_, rfl, rfl, rfl, rfl, rfl⟩
    · rw [step_releaseReset hbusy hinbox, releaseReset_held _ (by exact hheld)]
    · intro cap hcap
      rw [blockReset_scratchSize, hcap]
    · intro htransient
      rw [blockReset_scratchSize, htransient]

end Sys2Proof
end

section
/-! PROOF. Every command as one body between the same beginning and the same end, the frame rule of that
body, and what follows from it for all commands at once: how they end and which faults they raise
(spec/10_state.md R33, R37, spec/60_exceptions.md R350 to R361). -/

namespace Sys2Proof.Machine

/-! ## The body of a command -/

/-- The pseudocode of a command, between the checks before it and the status write behind it. -/
def commandBody : Instr → Cmd Unit
  | .send hasCmd cmd addr len => do
    let p ← memRead addr.toNat len.toNat
    send (if hasCmd then some cmd else none) p
  | .setWindow x0 x1 y0 y1 => do
    let _ ← openWindow (s16 x0) (s16 y0) (s16 x1) (s16 y1)
    pure ()
  | .rotation n => rotationSeq n.toNat
  | .fill c => fillScreen c
  | .fillRect x y w h c =>
    pixelStream (s16 x) (s16 y) (s16 x + s16 w - 1) (s16 y + s16 h - 1)
      (fillStream c (extent (s16 w) * extent (s16 h)))
  | .pixel x y c => pixelOp (s16 x) (s16 y) c
  | .hline x y len c => hlineOp (s16 x) (s16 y) (s16 len) c
  | .vline x y len c => vlineOp (s16 x) (s16 y) (s16 len) c
  | .rect x y w h c => do
    hlineOp (s16 x) (s16 y) (s16 w) c
    vlineOp (s16 x) (s16 y) (s16 h) c
    hlineOp (s16 x) (s16 y + s16 h - 1) (s16 w) c
    vlineOp (s16 x + s16 w - 1) (s16 y) (s16 h) c
  | .line x0 y0 x1 y1 c => lineOp (s16 x0) (s16 y0) (s16 x1) (s16 y1) c
  | .blit addr len x y w h =>
    pixelStream (s16 x) (s16 y) (s16 x + s16 w - 1) (s16 y + s16 h - 1)
      (memStream addr.toNat (min len.toNat (extent (s16 w) * extent (s16 h) * 2)) Config.blitChunk)
  | .text font w h first last str n x y fg bg =>
    textLoop ⟨font.toNat, w.toNat, h.toNat, first.toNat, last.toNat, str.toNat, s16 y, fg, bg⟩
      n.toNat 0 (s16 x)
  | .write k ow map mlen widths offsets bits hgt str n x y fg bg => do
    let total ← writeLoop
      ⟨k.toNat, ow.toNat, map.toNat, mlen.toNat, widths.toNat, offsets.toNat, bits, hgt.toNat,
        str.toNat, s16 y, fg, bg⟩ n.toNat 0 (s16 x) 0
    setResult total
    forgetCursor
  | .writeLen map mlen widths str n => do
    let total ← measureLoop map.toNat mlen.toNat widths.toNat str.toNat n.toNat 0 0
    setResult total
  | .bitmap k bits pal plen w h fcount fidx x y =>
    bitmapOp k.toNat bits pal.toNat plen.toNat (s16 w) (s16 h) fcount.toNat fidx.toNat (s16 x)
      (s16 y)
  | .hardReset => hardResetSeq
  | .softReset => softResetSeq
  | .sleep en => if en then sendCmd Config.cmdSlpin [] else sendCmd Config.cmdSlpout []
  | .invert en => if en then sendCmd Config.cmdInvon [] else sendCmd Config.cmdInvoff []
  | .init => initSeq
  | .vscrollDefine tfa vsa bfa => sendCmd Config.cmdVscrdef (be16 tfa ++ be16 vsa ++ be16 bfa)
  | .vscrollSet vsp => sendCmd Config.cmdVscrsadd (be16 vsp)
  | .width => withState fun t => setResult t.width.toNat
  | .height => withState fun t => setResult t.height.toNat

/-- Every command is its body, run over its 1 + L words under the constraints of R120. -/
theorem exec_eq_commandBody (i : Instr) (s : State) :
    exec i s = .next (runCommand (1 + i.operandCount) i.wf (commandBody i) s) := by
  cases i <;> rfl

/-- How a command came to its end: at one of the two checks before the body, or with the body, by
success or by a fault. -/
theorem exec_cases {i : Instr} {s t : State} (h : exec i s = .next t) :
    ∃ (u : State) (code : Code), t = u.ended (1 + i.operandCount) code ∧
      ((u = s ∧ code = .configurationError ∧ configLegal s.cfg = false) ∨
        (u = s ∧ code = .illegalCommand ∧ i.wf = false) ∨
        (commandBody i { s with busy := true } = .ok () u ∧ code = .ok) ∨
        ∃ f, commandBody i { s with busy := true } = .error f u ∧ code = raisedCode f) := by
  rw [exec_eq_commandBody, Host.Outcome.next.injEq] at h
  subst h
  unfold runCommand
  simp only [endCommand_eq]
  split
  case isTrue hc => exact ⟨s, _, rfl, .inl ⟨rfl, rfl, hc⟩⟩
  split
  case isTrue hwf => exact ⟨s, _, rfl, .inr (.inl ⟨rfl, rfl, hwf⟩)⟩
  split
  case h_1 u e => exact ⟨u, _, rfl, .inr (.inr (.inl ⟨e, rfl⟩))⟩
  case h_2 f u e => exact ⟨u, _, rfl, .inr (.inr (.inr ⟨f, e, rfl⟩))⟩

/-- A well-formed command under a legal configuration whose body completes. -/
theorem exec_of_ok {i : Instr} {s t : State} (hc : configLegal s.cfg = true) (hwf : i.wf = true)
    (h : commandBody i { s with busy := true } = .ok () t) :
    exec i s = .next (t.ended (1 + i.operandCount) .ok) := by
  rw [exec_eq_commandBody, hwf, runCommand_ok hc h]

/-- A well-formed command under a legal configuration whose body raises a fault. -/
theorem exec_of_raised {i : Instr} {s t : State} {f : Raised} (hc : configLegal s.cfg = true)
    (hwf : i.wf = true) (h : commandBody i { s with busy := true } = .error f t) :
    exec i s = .next (t.ended (1 + i.operandCount) (raisedCode f)) := by
  rw [exec_eq_commandBody, hwf, runCommand_raised hc h]

/-! ## The frame rule of a command -/

/-- The commands that write ROT, WIDTH and HEIGHT (R34, R35). -/
def setsGeometry : Instr → Bool
  | .rotation _ => true
  | .init => true
  | _ => false

/-- What a relation must respect for the frame rule of a command: the updates that every command may
make, and those that this one makes. -/
structure RespectsCommand (R : State → State → Prop) (i : Instr) : Prop where
  base : Respects R
  fill : usesFillScratch i = true → RespectsFill R
  glyph : usesGlyphScratch i = true → RespectsScratch R
  cursor : usesCursor i = true → RespectsCursor R
  forget : usesCursor i = true → ∀ (s : State) b p n,
    R s { s with bitBase := b, bitPos := p, bitOver := none, freeCount := n }
  result : writesResult i = true → ∀ (s : State) v, R s { s with result := v }
  geometry : setsGeometry i = true → ∀ (s : State) r w h,
    R s { s with rot := r, width := w, height := h }

section
variable {R : State → State → Prop} {Q : Raised → Prop}

theorem after_setResult (hres : ∀ (s : State) v, R s { s with result := v }) (v : Nat) :
    After R Q (setResult v) := after_update fun s => hres s _

theorem after_forgetCursor
    (hfor : ∀ (s : State) b p n,
      R s { s with bitBase := b, bitPos := p, bitOver := none, freeCount := n }) :
    After R Q forgetCursor := after_update fun s => hfor s _ _ _

/-- The body of a command keeps every relation that respects its updates, and raises only faults of its
row in the table of R361. -/
theorem after_commandBody {i : Instr} (h : RespectsCommand R i) :
    After R (fun f => raisedCode f ∈ mayRaise i) (commandBody i) := by
  obtain ⟨hR, hF, hS, hc, hfor, hres, hg⟩ := h
  cases i with
  | send =>
    exact after_bind hR (after_memRead hR (by simp [raisedCode, mayRaise]) _ _) fun _ =>
      after_send hR (by simp [raisedCode, mayRaise]) _ _
  | setWindow =>
    exact after_bind hR (after_openWindow hR (by simp [raisedCode, mayRaise]) _ _ _ _) fun _ =>
      after_pure hR ()
  | rotation => exact after_rotationSeq hR (by simp [raisedCode, mayRaise]) (hg rfl) _
  | fill => exact after_fillScreen hR (hF rfl) (by simp [raisedCode, mayRaise]) _
  | fillRect =>
    exact after_pixelStream hR (by simp [raisedCode, mayRaise])
      (after_fillStream hR (hF rfl) (by simp [raisedCode, mayRaise]) _ _) _ _ _ _
  | pixel => exact after_pixelOp hR (by simp [raisedCode, mayRaise]) _ _ _
  | hline => exact after_hlineOp hR (hF rfl) (by simp [raisedCode, mayRaise]) _ _ _ _
  | vline => exact after_vlineOp hR (hF rfl) (by simp [raisedCode, mayRaise]) _ _ _ _
  | rect =>
    have ht : ∀ n, raisedCode (.transportError n) ∈ mayRaise (.rect 0 0 0 0 0) := by
      simp [raisedCode, mayRaise]
    exact after_bind hR (after_hlineOp hR (hF rfl) ht _ _ _ _) fun _ =>
      after_bind hR (after_vlineOp hR (hF rfl) ht _ _ _ _) fun _ =>
      after_bind hR (after_hlineOp hR (hF rfl) ht _ _ _ _) fun _ =>
      after_vlineOp hR (hF rfl) ht _ _ _ _
  | line => exact after_lineOp hR (hF rfl) (by simp [raisedCode, mayRaise]) _ _ _ _ _
  | blit =>
    exact after_pixelStream hR (by simp [raisedCode, mayRaise])
      (after_memStream hR (by simp [raisedCode, mayRaise]) (by simp [raisedCode, mayRaise]) _ _ _)
      _ _ _ _
  | text =>
    exact after_textLoop hR (hS rfl) (by simp [raisedCode, mayRaise])
      (by simp [raisedCode, mayRaise]) (by simp [raisedCode, mayRaise]) _ _ _ _
  | write =>
    exact after_bind hR (after_writeLoop hR (hS rfl) (by simp [raisedCode, mayRaise])
      (by simp [raisedCode, mayRaise]) (by simp [raisedCode, mayRaise]) (hc rfl) _ _ _ _ _) fun _ =>
      after_bind hR (after_setResult (hres rfl) _) fun _ => after_forgetCursor (hfor rfl)
  | writeLen =>
    exact after_bind hR (after_measureLoop hR (by simp [raisedCode, mayRaise]) _ _ _ _ _ _ _)
      fun _ => after_setResult (hres rfl) _
  | bitmap =>
    exact after_bitmapOp hR (hS rfl) (by simp [raisedCode, mayRaise])
      (by simp [raisedCode, mayRaise]) (by simp [raisedCode, mayRaise])
      (by simp [raisedCode, mayRaise]) (hc rfl) (after_forgetCursor (hfor rfl)) _ _ _ _ _ _ _ _ _ _
  | hardReset => exact after_hardResetSeq hR
  | softReset => exact after_softResetSeq hR (by simp [raisedCode, mayRaise])
  | sleep | invert =>
    exact after_ite (after_sendCmd hR (by simp [raisedCode, mayRaise]) _ _)
      (after_sendCmd hR (by simp [raisedCode, mayRaise]) _ _)
  | init => exact after_initSeq hR (hF rfl) (by simp [raisedCode, mayRaise]) (hg rfl)
  | vscrollDefine | vscrollSet => exact after_sendCmd hR (by simp [raisedCode, mayRaise]) _ _
  | width =>
    exact after_withState (g := fun t => setResult t.width.toNat) fun _ =>
      after_setResult (hres rfl) _
  | height =>
    exact after_withState (g := fun t => setResult t.height.toNat) fun _ =>
      after_setResult (hres rfl) _

end

/-- A command that ends is R-related to where it began, but for the marks of its beginning and its end. -/
theorem exec_after {R : State → State → Prop} {i : Instr} (hR : RespectsCommand R i) {s t : State}
    (h : exec i s = .next t) :
    ∃ u code, t = u.ended (1 + i.operandCount) code ∧ (u = s ∨ R { s with busy := true } u) := by
  have hbody := after_commandBody hR
  obtain ⟨u, code, rfl, ⟨rfl, -⟩ | ⟨rfl, -⟩ | ⟨e, -⟩ | ⟨f, e, -⟩⟩ := exec_cases h
  · exact ⟨_, code, rfl, .inl rfl⟩
  · exact ⟨_, code, rfl, .inl rfl⟩
  · exact ⟨u, code, rfl, .inr (hbody.ok e)⟩
  · exact ⟨u, code, rfl, .inr (hbody.error e).1⟩

/-! ## How a command ends (R33, R350, R351) -/

/-- CP, ERR and LAST wait for the end of the command. -/
def SameStatus (s t : State) : Prop := t.cp = s.cp ∧ t.err = s.err

theorem sameStatus_respects (i : Instr) : RespectsCommand SameStatus i where
  base :=
    { refl := fun _ => ⟨rfl, rfl⟩
      trans := fun _ _ _ ⟨hcp, herr⟩ ⟨hcp', herr'⟩ => ⟨hcp'.trans hcp, herr'.trans herr⟩
      emit := fun s e => ⟨State_emit_cp s e, State_emit_err s e⟩
      xferDraw := fun _ => ⟨rfl, rfl⟩
      line := fun _ _ => ⟨rfl, rfl⟩ }
  fill _ _ _ := ⟨rfl, rfl⟩
  glyph _ := ⟨fun _ => ⟨rfl, rfl⟩, fun _ _ _ _ => ⟨rfl, rfl⟩, fun _ _ _ => ⟨rfl, rfl⟩,
    fun _ _ => ⟨rfl, rfl⟩, fun _ => ⟨rfl, rfl⟩⟩
  cursor _ _ _ _ := ⟨rfl, rfl⟩
  forget _ _ _ _ _ := ⟨rfl, rfl⟩
  result _ _ _ := ⟨rfl, rfl⟩
  geometry _ _ _ _ _ := ⟨rfl, rfl⟩

theorem raisedCode_ne_decodeError (f : Raised) : raisedCode f ≠ .decodeError := by
  cases f <;> exact Code.noConfusion

theorem raisedCode_ne_ok (f : Raised) : raisedCode f ≠ .ok := by
  cases f <;> exact Code.noConfusion

theorem last_ne_decodeError {i : Instr} {s t : State} (h : exec i s = .next t) :
    t.last ≠ .decodeError := by
  obtain ⟨u, code, rfl, ⟨-, rfl, -⟩ | ⟨-, rfl, -⟩ | ⟨-, rfl⟩ | ⟨f, -, rfl⟩⟩ := exec_cases h
  · exact Code.noConfusion
  · exact Code.noConfusion
  · exact Code.noConfusion
  · exact raisedCode_ne_decodeError f

/-- Settles O18: the status write comes last, and nothing before it touches CP or ERR. -/
theorem everyCommandEnds : Obligations.EveryCommandEnds := by
  unfold Obligations.EveryCommandEnds
  intro i s
  refine ⟨_, exec_eq_commandBody i s, ?_⟩
  have hlast := last_ne_decodeError (exec_eq_commandBody i s)
  obtain ⟨u, code, ht, hu⟩ := exec_after (sameStatus_respects i) (exec_eq_commandBody i s)
  obtain ⟨hcp, herr⟩ : u.cp = s.cp ∧ u.err = s.err := hu.elim (fun h => h ▸ ⟨rfl, rfl⟩) id
  rw [ht] at hlast ⊢
  exact ⟨congrArg (· + _) hcp, congrArg (· || _) herr, hlast, rfl⟩

/-! ## Which faults a command raises (R353, R361) -/

theorem true_respects (i : Instr) : RespectsCommand (fun _ _ => True) i where
  base := ⟨fun _ => trivial, fun _ _ _ _ _ => trivial, fun _ _ => trivial, fun _ => trivial,
    fun _ _ => trivial⟩
  fill _ _ _ := trivial
  glyph _ := ⟨fun _ => trivial, fun _ _ _ _ => trivial, fun _ _ _ => trivial,
    fun _ _ => trivial, fun _ => trivial⟩
  cursor _ _ _ _ := trivial
  forget _ _ _ _ _ := trivial
  result _ _ _ := trivial
  geometry _ _ _ _ _ := trivial

theorem raisedCode_mem_mayRaise {i : Instr} {s t : State} {f : Raised}
    (h : commandBody i s = .error f t) : raisedCode f ∈ mayRaise i :=
  ((after_commandBody (true_respects i)).error h).2

/-- Settles O20: past the two checks, the code is OK or that of a fault the body raised. -/
theorem faultTable : Obligations.FaultTable := by
  unfold Obligations.FaultTable
  intro i s t hwf hc h
  obtain ⟨u, code, rfl, ⟨-, -, hbad⟩ | ⟨-, -, hbad⟩ | ⟨-, rfl⟩ | ⟨f, e, rfl⟩⟩ := exec_cases h
  · rw [hc] at hbad
    cases hbad
  · rw [hwf] at hbad
    cases hbad
  · exact .inl rfl
  · exact .inr (raisedCode_mem_mayRaise e)

/-! ### RANGE_ERROR (R301, R353) -/

theorem frameCheck_range {fcount fidx : Nat} (h0 : fcount ≠ 0) (h : fcount ≤ fidx) (s : State) :
    frameCheck fcount fidx s = .error (.rangeError fidx) s := by
  rw [frameCheck, if_pos ⟨h0, h⟩]
  rfl

theorem frameCheck_ok {fcount fidx : Nat} (h : fcount = 0 ∨ fidx < fcount) (s : State) :
    frameCheck fcount fidx s = .ok () s := by
  rw [frameCheck, if_neg (by omega)]
  rfl

/-- How pseudocode that raised a fault came to it through a bind. -/
theorem cmd_bind_eq_error {α β : Type} {c : Cmd α} {k : α → Cmd β} {s t : State} {f : Raised}
    (h : (c >>= k) s = .error f t) :
    c s = .error f t ∨ ∃ a u, c s = .ok a u ∧ k a u = .error f t := by
  cases e : c s with
  | ok a u => exact .inr ⟨a, u, rfl, (cmd_bind_ok e).symm.trans h⟩
  | error g u =>
    rw [cmd_bind_error e] at h
    cases h
    exact .inl rfl

/-- Behind the frame check BITMAP raises no RANGE_ERROR. -/
theorem bitmapOp_range {k : Nat} {bits : Word} {pal plen : Nat} {w h : Int} {fcount fidx : Nat}
    {x y : Int} {s t : State} {f : Raised} (hf : raisedCode f = .rangeError)
    (e : bitmapOp k bits pal plen w h fcount fidx x y s = .error f t) :
    fcount ≠ 0 ∧ fcount ≤ fidx := by
  by_contra hframe
  have hcheck := frameCheck_ok (show fcount = 0 ∨ fidx < fcount by omega) s
  have hR := (true_respects (.bitmap 0 0 0 0 0 0 0 0 0 0))
  rcases cmd_bind_eq_error e with e | ⟨a, u, e, e'⟩
  · cases hcheck.symm.trans e
  · have hQ := (after_bind (Q := fun f => raisedCode f ≠ .rangeError) hR.base
      (after_withScratch hR.base (hR.glyph rfl) (fun _ => Code.noConfusion) _
        (after_bind hR.base (after_seedCursor (hR.cursor rfl) _ _) fun _ =>
          after_bind hR.base (after_collectBytes hR.base (fun _ =>
            after_palettePixel hR.base (fun _ => Code.noConfusion) (hR.cursor rfl) _ _ _) _ _)
            fun _ => after_blitDecoded hR.base (hR.glyph rfl) (fun _ => Code.noConfusion) _ _ _ _ _))
      fun _ => after_forgetCursor (hR.forget rfl)).error e'
    exact hQ.2 hf

/-- BITMAP alone has RANGE_ERROR in its row of the table of R361. -/
theorem eq_bitmap_of_rangeError {i : Instr} (h : .rangeError ∈ mayRaise i) :
    ∃ k bits pal plen w h fcount fidx x y, i = .bitmap k bits pal plen w h fcount fidx x y := by
  cases i
  case bitmap => exact ⟨_, _, _, _, _, _, _, _, _, _, rfl⟩
  all_goals simp [mayRaise] at h

theorem half_ne_zero_iff (h : Half) : h ≠ 0 ↔ h.toNat ≠ 0 :=
  not_congr (BitVec.toNat_inj (y := 0#16)).symm

/-- Settles O50: the check comes before the acquisition, and no other fault has its code. -/
theorem rangeErrorIsFrameCheck : Obligations.RangeErrorIsFrameCheck := by
  unfold Obligations.RangeErrorIsFrameCheck
  constructor
  · intro k bits pal plen w h fcount fidx x y s hc hk h0 hle
    have hcheck := frameCheck_range ((half_ne_zero_iff fcount).mp h0) hle { s with busy := true }
    have hwf : (Instr.bitmap k bits pal plen w h fcount fidx x y).wf = true := hk
    exact exec_of_raised hc hwf (cmd_bind_error hcheck)
  · intro i s t h hlast
    obtain ⟨u, code, rfl, ⟨-, rfl, -⟩ | ⟨-, rfl, -⟩ | ⟨-, rfl⟩ | ⟨f, e, rfl⟩⟩ := exec_cases h
    · cases hlast
    · cases hlast
    · cases hlast
    · have hf : raisedCode f = .rangeError := hlast
      obtain ⟨k, bits, pal, plen, w, hgt, fcount, fidx, x, y, rfl⟩ :=
        eq_bitmap_of_rangeError (hf ▸ raisedCode_mem_mayRaise e)
      obtain ⟨h0, hle⟩ := bitmapOp_range hf e
      exact ⟨k, bits, pal, plen, w, hgt, fcount, fidx, x, y, rfl, (half_ne_zero_iff fcount).mpr h0,
        hle⟩

end Sys2Proof.Machine
end

section
/-! PROOF. How the body of a command is built: `Built m c` says that c is composed of the primitives of
R15 alone and which of them it uses. It is shown once for every operation; what holds of all pseudocode,
or of two runs of it, is then one induction over how it is built. -/

namespace Sys2Proof.Machine

/-! ## Changes of the state -/

/-- The changes that a piece of pseudocode makes to the state. -/
inductive Change where
  | emit (e : Event)
  | line (r : LineRegs)
  | fill (c : Half)
  | rotation (r : Nat)
  | store (bytes : List Byte)
  | result (v : Nat)
  | forget
  | seed (base : Word) (pos : Nat)
  | advance
  | xferDraw
  | allocDraw
  | hold (n : Nat)
  | clear
  | release

/-- The state after a change. -/
def Change.apply : Change → State → State
  | .emit e, s => s.emit e
  | .line r, s => { s with line := some r }
  | .fill c, s => { s with fillScratch := pixels c Config.fillChunkPx }
  | .rotation r, s =>
    { s with rot := BitVec.ofNat 3 r, width := rotatedWidth s.cfg r, height := rotatedHeight s.cfg r }
  | .store bytes, s =>
    { s with scratch := (bytes ++ s.scratch.drop bytes.length).take s.scratchSize }
  | .result v, s => { s with result := BitVec.ofNat 32 v }
  | .forget, s =>
    { s with
      bitBase := Config.freeBitBase s.freeCount, bitPos := Config.freeBitPos s.freeCount
      bitOver := none, freeCount := s.freeCount + 1 }
  | .seed base pos, s => State.atBit { s with bitBase := base } pos
  | .advance, s => s.atBit (s.bitIndex + 1)
  | .xferDraw, s => { s with xferDraws := s.xferDraws.tail }
  | .allocDraw, s => { s with allocDraws := s.allocDraws.tail }
  | .hold n, s => { s with scratchHeld := some n }
  | .clear, s => { s with scratch := [] }
  | .release, s => s.releaseScratch

/-- What a piece of pseudocode uses, and where it stands. -/
structure Uses where
  /-- It reads resource memory. -/
  memory : Bool
  /-- It drives RST or BL. -/
  pins : Bool
  /-- It stands inside a bracket. -/
  bracket : Bool
  /-- It stands behind a seed of the cursor. -/
  cursor : Bool

/-- The changes a piece of pseudocode makes by itself. Transfers, CS and the acquisition of the scratch
are made by primitives of their own. -/
def Change.plain (m : Uses) : Change → Bool
  | .emit (.dc _) => true
  | .emit (.delay _) => true
  | .emit (.rst _) => m.pins
  | .emit (.bl _) => m.pins
  | .emit _ => false
  | .line _ => true
  | .fill _ => true
  | .rotation _ => true
  | .store _ => true
  | .result _ => true
  | .forget => true
  | .seed _ _ => false
  | .advance => m.cursor
  | .xferDraw => false
  | .allocDraw => false
  | .hold _ => false
  | .clear => false
  | .release => false

/-! ## Pseudocode built from the primitives -/

/-- What pseudocode reads of the state without asking memory or the draws: the configuration, the
geometry, the two scratches and, behind a seed, the cursor. -/
structure SameView (cursor : Bool) (s t : State) : Prop where
  cfg : t.cfg = s.cfg
  rot : t.rot = s.rot
  width : t.width = s.width
  height : t.height = s.height
  fillScratch : t.fillScratch = s.fillScratch
  scratch : t.scratch = s.scratch
  base : cursor = true → t.bitBase = s.bitBase
  index : cursor = true → t.bitIndex = s.bitIndex

/-- c is composed of the primitives, as `m` says. -/
inductive Built : Uses → {α : Type} → Cmd α → Prop
  | pure {m : Uses} {α : Type} (a : α) : Built m (Pure.pure a : Cmd α)
  | bind {m : Uses} {α β : Type} {c : Cmd α} {k : α → Cmd β} :
    Built m c → (∀ a, Built m (k a)) → Built m (c >>= k)
  | raise {m : Uses} {α : Type} (f : Raised) : raisedCode f ≠ .transportError →
    Built m (Machine.raise f : Cmd α)
  | look {m : Uses} {α : Type} {g : State → Cmd α} :
    (∀ s t, SameView m.cursor s t → g t = g s) → (∀ s, Built m (g s)) → Built m (withState g)
  | memRead {m : Uses} (addr n : Nat) : m.memory = true → Built m (Machine.memRead addr n)
  | change {m : Uses} (u : Change) : u.plain m = true → Built m (update u.apply)
  | seeded {m : Uses} {α : Type} {c : Cmd α} (base : Word) (pos : Nat) :
    Built { m with cursor := true } c → Built m (seedCursor base pos >>= fun _ => c)
  | xferOut {m : Uses} (bytes : List Byte) : m.bracket = true → Built m (Machine.xferOut bytes)
  | bracketed {m : Uses} {body : Cmd Unit} : m.bracket = false →
    Built { m with bracket := true } body → Built m (Machine.bracketed body)
  | withScratch {m : Uses} {α : Type} {body : Cmd α} (n : Nat) : Built m body →
    Built m (Machine.withScratch n body)

section
variable {m : Uses} {α : Type}

theorem Built.ite {p : Prop} [Decidable p] {c d : Cmd α} (hc : Built m c) (hd : Built m d) :
    Built m (if p then c else d) := by
  split <;> assumption

theorem Built.forUp {body : Nat → Cmd Unit} (h : ∀ i, Built m (body i)) (n a : Nat) :
    Built m (forUp n a body) := by
  induction n generalizing a with
  | zero => exact .pure ()
  | succ n ih => exact .bind (h a) fun _ => ih (a + 1)

theorem Built.collectBytes {body : Nat → Cmd (List Byte)} (h : ∀ i, Built m (body i)) (n a : Nat) :
    Built m (collectBytes n a body) := by
  induction n generalizing a with
  | zero => exact .pure []
  | succ n ih => exact .bind (h a) fun _ => .bind (ih (a + 1)) fun _ => .pure _

/-! ### Registers, delays and levels -/

theorem built_setDc (l : DcMode) : Built m (setDc l) := .change (.emit (.dc l)) rfl

theorem built_delayFor (d : Config → Nat) : Built m (delayFor d) :=
  .look (fun s t h => by rw [h.cfg]) fun s => .change (.emit (.delay (d s.cfg))) rfl

theorem built_putLine (r : LineRegs) : Built m (putLine r) := .change (.line r) rfl

theorem built_loadFillScratch (c : Half) : Built m (loadFillScratch c) := .change (.fill c) rfl

theorem built_storeScratch (bytes : List Byte) : Built m (storeScratch bytes) :=
  .change (.store bytes) rfl

theorem built_setResult (v : Nat) : Built m (setResult v) := .change (.result v) rfl

theorem built_forgetCursor : Built m forgetCursor := .change .forget rfl

/-- A level of a pin that may not be configured (R45). -/
theorem built_configuredPin (has : Config → Bool) {e : Event}
    (he : Change.plain m (.emit e) = true) :
    Built m (update fun s => if has s.cfg then s.emit e else s) := by
  have heq : (update fun s => if has s.cfg then s.emit e else s)
      = withState fun s => if has s.cfg then update (Change.apply (.emit e)) else Pure.pure () := by
    funext s
    rw [update_apply, withState_apply]
    split <;> rfl
  rw [heq]
  exact .look (fun s t h => by rw [h.cfg]) fun s => (Built.change _ he).ite (.pure ())

theorem built_setRst (hp : m.pins = true) (l : Act) : Built m (setRst l) :=
  built_configuredPin Config.hasRst hp

theorem built_setBl (hp : m.pins = true) (l : Light) : Built m (setBl l) :=
  built_configuredPin Config.hasBl hp

/-! ### The sequencer, the window and the pixel stream -/

theorem built_send (ho : m.bracket = false) (c : Option Byte) (p : List Byte) :
    Built m (send c p) := by
  refine .bracketed ho (.bind ?_ fun _ => ?_)
  · cases c with
    | none => exact .pure ()
    | some b => exact .bind (built_setDc _) fun _ => .xferOut _ rfl
  · exact .ite (.pure ()) (.bind (built_setDc _) fun _ => .xferOut _ rfl)

theorem built_sendCmd (ho : m.bracket = false) (b : Config → Byte) (p : List Byte) :
    Built m (sendCmd b p) :=
  .look (fun s t h => by rw [h.cfg]) fun _ => built_send ho _ _

theorem built_openWindow (ho : m.bracket = false) (x0 y0 x1 y1 : Int) :
    Built m (openWindow x0 y0 x1 y1) :=
  .look (fun s t h => by rw [validWindow_congr h.width h.height]) fun _ => .ite
    (.bind (.bind (built_sendCmd ho _ _) fun _ => .bind (built_sendCmd ho _ _) fun _ =>
      built_sendCmd ho _ _) fun _ => .pure true)
    (.pure false)

theorem built_pixelStream (ho : m.bracket = false) {body : Cmd Unit}
    (h : Built { m with bracket := true } body) (x0 y0 x1 y1 : Int) :
    Built m (pixelStream x0 y0 x1 y1 body) :=
  .bind (built_openWindow ho x0 y0 x1 y1) fun _ =>
    .look (fun s t h => by rw [h.cfg]) fun _ => .ite
      (.bracketed ho (.bind (built_setDc _) fun _ => h)) (.pure ())

/-! ### The filler and the rasterizer -/

theorem built_xferFill (ho : m.bracket = true) (n : Nat) : Built m (xferFill n) :=
  .look (fun s t h => by rw [h.fillScratch]) fun _ => .xferOut _ ho

theorem built_fillStream (ho : m.bracket = true) (c : Half) (n : Nat) : Built m (fillStream c n) :=
  .bind (built_loadFillScratch c) fun _ =>
    .bind (.forUp (fun _ => built_xferFill ho _) _ _) fun _ =>
    .ite (.pure ()) (built_xferFill ho _)

theorem built_fillScreen (ho : m.bracket = false) (c : Half) : Built m (fillScreen c) :=
  .look (fun s t h => by rw [h.width, h.height]) fun _ =>
    built_pixelStream ho (built_fillStream rfl c _) _ _ _ _

theorem built_pixelOp (ho : m.bracket = false) (x y : Int) (c : Half) : Built m (pixelOp x y c) :=
  built_pixelStream ho (.xferOut _ rfl) _ _ _ _

theorem runPixels_congr {s t : State} (hc : t.cfg = s.cfg) (hw : t.width = s.width)
    (hh : t.height = s.height) (x y len len' : Int) :
    runPixels t x y len len' = runPixels s x y len len' := by
  unfold runPixels
  rw [hc, validWindow_congr hw hh]

theorem built_hlineOp (ho : m.bracket = false) (x y w : Int) (c : Half) :
    Built m (hlineOp x y w c) :=
  .look (fun s t h => by simp only [h.width, runPixels_congr h.cfg h.width h.height]) fun _ =>
    built_pixelStream ho (built_fillStream rfl c _) _ _ _ _

theorem built_vlineOp (ho : m.bracket = false) (x y h : Int) (c : Half) :
    Built m (vlineOp x y h c) :=
  .look (fun s t h => by simp only [h.height, runPixels_congr h.cfg h.width h.height]) fun _ =>
    built_pixelStream ho (built_fillStream rfl c _) _ _ _ _

theorem built_flushRun (ho : m.bracket = false) (steep : Bool) (c : Half) (run : LineRun) :
    Built m (flushRun steep c run) :=
  .ite (.ite (built_pixelOp ho _ _ c) (built_pixelOp ho _ _ c))
    (.ite (built_vlineOp ho _ _ _ c) (built_hlineOp ho _ _ _ c))

theorem built_lineWalk (ho : m.bracket = false) (c : Half) (n : Nat) (x : Int) (r : LineRegs) :
    Built m (lineWalk c n x r) := by
  induction n generalizing x r with
  | zero => exact .pure r
  | succ n ih =>
    refine .bind (built_putLine _) fun _ => .bind ?_ fun _ => ih _ _
    cases (lineAdvance r x).2 with
    | none => exact .pure ()
    | some run => exact built_flushRun ho _ c run

theorem built_lineOp (ho : m.bracket = false) (x0 y0 x1 y1 : Int) (c : Half) :
    Built m (lineOp x0 y0 x1 y1 c) :=
  .bind (built_putLine _) fun _ => .bind (built_lineWalk ho c _ _ _) fun _ =>
    .ite (built_flushRun ho _ c _) (.pure ())

/-! ### The blitter and the decoder -/

theorem built_memRead8 (hr : m.memory = true) (addr : Nat) : Built m (memRead8 addr) :=
  .bind (.memRead _ _ hr) fun _ => .pure _

theorem built_memStream (ho : m.bracket = true) (hr : m.memory = true) (addr n k : Nat) :
    Built m (memStream addr n k) :=
  .bind (.forUp (fun _ => .bind (.memRead _ _ hr) fun _ => .xferOut _ ho) _ _) fun _ =>
    .ite (.pure ()) (.bind (.memRead _ _ hr) fun _ => .xferOut _ ho)

theorem built_chunkStream (ho : m.bracket = true) (n c : Nat) : Built m (chunkStream n c) :=
  .look (fun s t h => by rw [h.scratch]) fun _ =>
    .bind (.forUp (fun _ => .xferOut _ ho) _ _) fun _ => .ite (.pure ()) (.xferOut _ ho)

theorem built_blitDecoded (ho : m.bracket = false) (bytes : List Byte) (x y w h : Int) :
    Built m (blitDecoded bytes x y w h) := by
  have hfits : Built m (fits x w) := .look (fun s t h => by rw [h.width]) fun _ => .pure _
  have hblit : Built m (blitScratch x y w h) :=
    .look (fun s t h => by rw [h.cfg]) fun _ =>
      built_pixelStream ho (built_chunkStream rfl _ _) _ _ _ _
  exact .bind (built_storeScratch bytes) fun _ => .bind hfits fun _ =>
    .bind (.ite hblit (.pure ())) fun _ => .pure _

theorem built_textLoop (ho : m.bracket = false) (hr : m.memory = true) (a : TextArgs) (n i : Nat)
    (x : Int) : Built m (textLoop a n i x) := by
  have hglyph : ∀ ch x, Built m (textGlyph a ch x) := fun ch x =>
    .withScratch _ (.bind (.collectBytes (fun _ => .collectBytes (fun _ =>
      .bind (built_memRead8 hr _) fun _ => .pure _) _ _) _ _) fun _ =>
        built_blitDecoded ho _ _ _ _ _)
  induction n generalizing i x with
  | zero => exact .pure ()
  | succ n ih =>
    exact .bind (built_memRead8 hr _) fun _ =>
      .ite (.bind (hglyph _ _) fun _ => ih _ _) (ih _ _)

theorem built_lookupFrom (hr : m.memory = true) (map : Nat) (ch : Byte) (mlen j : Nat) :
    Built m (lookupFrom map ch mlen j) := by
  induction mlen generalizing j with
  | zero => exact .pure none
  | succ mlen ih => exact .bind (built_memRead8 hr _) fun _ => .ite (.pure _) (ih _)

theorem built_readOffset (hr : m.memory = true) (a ow : Nat) : Built m (readOffset a ow) :=
  .bind (.collectBytes (fun _ => .bind (built_memRead8 hr _) fun _ => .pure _) _ _) fun _ =>
    .look (fun s t h => by rw [h.cfg]) fun _ => .pure _

theorem built_bitReadFrom (hr : m.memory = true) (hc : m.cursor = true) (v k : Nat) :
    Built m (bitReadFrom v k) := by
  induction k generalizing v with
  | zero => exact .pure v
  | succ k ih =>
    exact .look (fun s t h => by rw [h.base hc, h.index hc]) fun _ =>
      .bind (built_memRead8 hr _) fun _ => .bind (.change .advance hc) fun _ => ih _

theorem built_decodeGlyph (hr : m.memory = true) (hc : m.cursor = true) (a : WriteArgs)
    (count : Nat) : Built m (decodeGlyph a count) :=
  .collectBytes (fun _ => .bind (built_bitReadFrom hr hc _ _) fun _ =>
    .look (fun s t h => by rw [h.cfg]) fun _ => .pure _) _ _

theorem built_writeGlyph (ho : m.bracket = false) (hr : m.memory = true) (a : WriteArgs) (j : Nat)
    (x : Int) : Built m (writeGlyph a j x) :=
  .bind (built_memRead8 hr _) fun _ => .bind (built_readOffset hr _ _) fun _ =>
    .withScratch _ (.seeded _ _ (.bind (built_decodeGlyph (by exact hr) rfl a _) fun _ =>
      .bind (built_blitDecoded (by exact ho) _ _ _ _ _) fun _ => .pure _))

theorem built_writeLoop (ho : m.bracket = false) (hr : m.memory = true) (a : WriteArgs) (n i : Nat)
    (x : Int) (total : Nat) : Built m (writeLoop a n i x total) := by
  induction n generalizing i x total with
  | zero => exact .pure total
  | succ n ih =>
    refine .bind (built_memRead8 hr _) fun _ => .bind (built_lookupFrom hr _ _ _ _) fun j => ?_
    cases j with
    | none => exact ih _ _ _
    | some j =>
      exact .bind (built_writeGlyph ho hr a j x) fun ⟨_, _⟩ => .ite (ih _ _ _) (.pure total)

theorem built_measureLoop (hr : m.memory = true) (map mlen widths str n i total : Nat) :
    Built m (measureLoop map mlen widths str n i total) := by
  induction n generalizing i total with
  | zero => exact .pure total
  | succ n ih =>
    refine .bind (built_memRead8 hr _) fun _ => .bind (built_lookupFrom hr _ _ _ _) fun j => ?_
    cases j with
    | none => exact ih _ _
    | some j => exact .bind (built_memRead8 hr _) fun _ => ih _ _

theorem built_palettePixel (hr : m.memory = true) (hc : m.cursor = true) (k pal plen : Nat) :
    Built m (palettePixel k pal plen) :=
  .bind (built_bitReadFrom hr hc _ _) fun _ => .ite (.raise _ Code.noConfusion)
    (.bind (built_memRead8 hr _) fun _ => .bind (built_memRead8 hr _) fun _ => .pure _)

theorem built_bitmapOp (ho : m.bracket = false) (hr : m.memory = true) (k : Nat) (bits : Word)
    (pal plen : Nat) (w h : Int) (fcount fidx : Nat) (x y : Int) :
    Built m (bitmapOp k bits pal plen w h fcount fidx x y) :=
  .bind (.ite (.raise _ Code.noConfusion) (.pure ())) fun _ =>
    .bind (.withScratch _ (.seeded _ _ (.bind (.collectBytes (fun _ =>
      built_palettePixel (by exact hr) rfl _ _ _) _ _) fun _ =>
        built_blitDecoded (by exact ho) _ _ _ _ _))) fun _ =>
    built_forgetCursor

/-! ### The control sequences -/

theorem built_rotationSeq (ho : m.bracket = false) (n : Nat) : Built m (rotationSeq n) :=
  .look (fun s t h => by rw [h.cfg]) fun s =>
    .bind (.change (.rotation (n % s.cfg.variant.count)) rfl) fun _ => built_sendCmd ho _ _

theorem built_hardResetSeq (hp : m.pins = true) : Built m hardResetSeq :=
  .look (fun s t h => by rw [h.cfg]) fun _ => .ite
    (.bind (built_setRst hp _) fun _ => .bind (built_delayFor _) fun _ =>
      .bind (built_setRst hp _) fun _ => built_delayFor _)
    (.pure ())

theorem built_softResetSeq (ho : m.bracket = false) : Built m softResetSeq :=
  .bind (built_sendCmd ho _ _) fun _ => built_delayFor _

theorem built_initSeq (ho : m.bracket = false) (hp : m.pins = true) : Built m initSeq := by
  have hreset : Built m initResetSeq := by
    refine .look (fun s t h => by rw [h.cfg]) fun s => ?_
    cases s.cfg.initReset with
    | hardThenSoft => exact .bind (built_hardResetSeq hp) fun _ => built_softResetSeq ho
    | hard => exact built_hardResetSeq hp
    | soft => exact built_softResetSeq ho
  exact .bind hreset fun _ => .bind (built_sendCmd ho _ _) fun _ =>
    .bind (.look (fun s t h => by rw [h.cfg]) fun _ => built_sendCmd ho _ _) fun _ =>
    .bind (.look (fun s t h => by rw [h.rot]) fun _ => built_rotationSeq ho _) fun _ =>
    .bind (built_sendCmd ho _ _) fun _ => .bind (built_sendCmd ho _ _) fun _ =>
    .bind (built_fillScreen ho _) fun _ => .bind (built_setBl hp _) fun _ =>
    .bind (built_sendCmd ho _ _) fun _ => built_delayFor _

end

/-! ### Every command -/

/-- The commands that drive RST or BL (R310, R318). -/
def drivesPins : Instr → Bool
  | .hardReset => true
  | .init => true
  | _ => false

/-- What the body of a command uses; it starts outside any bracket and behind no seed. -/
def commandUses (i : Instr) : Uses := ⟨readsMemory i, drivesPins i, false, false⟩

theorem built_commandBody (i : Instr) : Built (commandUses i) (commandBody i) := by
  cases i with
  | send => exact .bind (.memRead _ _ rfl) fun _ => built_send rfl _ _
  | setWindow => exact .bind (built_openWindow rfl _ _ _ _) fun _ => .pure ()
  | rotation => exact built_rotationSeq rfl _
  | fill => exact built_fillScreen rfl _
  | fillRect => exact built_pixelStream rfl (built_fillStream rfl _ _) _ _ _ _
  | pixel => exact built_pixelOp rfl _ _ _
  | hline => exact built_hlineOp rfl _ _ _ _
  | vline => exact built_vlineOp rfl _ _ _ _
  | rect =>
    exact .bind (built_hlineOp rfl _ _ _ _) fun _ => .bind (built_vlineOp rfl _ _ _ _) fun _ =>
      .bind (built_hlineOp rfl _ _ _ _) fun _ => built_vlineOp rfl _ _ _ _
  | line => exact built_lineOp rfl _ _ _ _ _
  | blit => exact built_pixelStream rfl (built_memStream rfl rfl _ _ _) _ _ _ _
  | text => exact built_textLoop rfl rfl _ _ _ _
  | write =>
    exact .bind (built_writeLoop rfl rfl _ _ _ _ _) fun _ => .bind (built_setResult _) fun _ =>
      built_forgetCursor
  | writeLen => exact .bind (built_measureLoop rfl _ _ _ _ _ _ _) fun _ => built_setResult _
  | bitmap => exact built_bitmapOp rfl rfl _ _ _ _ _ _ _ _ _ _
  | hardReset => exact built_hardResetSeq rfl
  | softReset => exact built_softResetSeq rfl
  | sleep | invert => exact .ite (built_sendCmd rfl _ _) (built_sendCmd rfl _ _)
  | init => exact built_initSeq rfl rfl
  | vscrollDefine | vscrollSet => exact built_sendCmd rfl _ _
  | width =>
    exact .look (g := fun t => setResult t.width.toNat) (fun s t h => by rw [h.width]) fun _ =>
      built_setResult _
  | height =>
    exact .look (g := fun t => setResult t.height.toNat) (fun s t h => by rw [h.height]) fun _ =>
      built_setResult _

end Sys2Proof.Machine
end

section
/-! PROOF. Two runs of the same pseudocode from states that differ in what it does not read: they go the
same way and the difference stays what it was. From it, what no command depends on (spec/20_memory.md
R70, spec/10_state.md R37, R43, R49), and which commands alone drive RST and BL (R310, R318). -/

namespace Sys2Proof.Machine

/-! ## Exit paths -/

/-- What is done on every exit path, a fault included. -/
def mapState {α : Type} (g : State → State) :
    EStateM.Result Raised State α → EStateM.Result Raised State α
  | .ok a t => .ok a (g t)
  | .error f t => .error f (g t)

theorem bracketed_eq (body : Cmd Unit) (s : State) :
    bracketed body s = mapState State.csRelease (body s.csAssert) := by
  unfold bracketed
  cases body s.csAssert <;> rfl

theorem releasing_eq {α : Type} (body : Cmd α) (s : State) :
    releasing body s = mapState State.releaseScratch (body s) := by
  unfold releasing
  cases body s <;> rfl

/-- An acquisition, as the changes it makes. -/
theorem acquireScratch_eq (n : Nat) (s : State) :
    acquireScratch n s = match s.cfg.scratch with
      | .resident cap =>
        if (n : Int) > cap then .error (.resourceError n) s else .ok () ((Change.hold n).apply s)
      | .transient =>
        if s.nextAllocOk then
          .ok () (Change.clear.apply ((Change.hold n).apply (Change.allocDraw.apply s)))
        else .error (.resourceError n) (Change.allocDraw.apply s) := by
  unfold acquireScratch
  cases s.cfg.scratch <;> rfl

/-! ## Coupled runs -/

/-- A relation between the states of two runs that no permitted change breaks and no permitted look or
read can tell apart. The flag says that the cursor has been seeded. -/
structure Couples (memory pins : Bool) (J : Bool → State → State → Prop) : Prop where
  view : ∀ {b s s'}, J b s s' → SameView b s s'
  unseed : ∀ {b s s'}, J true s s' → J b s s'
  seed : ∀ {b s s'} base pos, J b s s' →
    J true ((Change.seed base pos).apply s) ((Change.seed base pos).apply s')
  mem : ∀ {b s s'}, memory = true → J b s s' → s'.mem = s.mem
  draws : ∀ {b s s'}, J b s s' → s'.xferDraws = s.xferDraws ∧ s'.allocDraws = s.allocDraws
  change : ∀ {b s s'} (u : Change), (∀ e, u = .emit e → (∀ l, e ≠ .rst l) ∧ (∀ l, e ≠ .bl l)) →
    (u = .advance → b = true) → J b s s' → J b (u.apply s) (u.apply s')
  pin : ∀ {b s s'} e, pins = true → J b s s' → J b ((Change.emit e).apply s) ((Change.emit e).apply s')

/-- The two runs answer the same value or raise the same fault, in related states. -/
def SameOutcome {α : Type} (J : State → State → Prop) :
    EStateM.Result Raised State α → EStateM.Result Raised State α → Prop
  | .ok a t, .ok a' t' => a' = a ∧ J t t'
  | .error f t, .error f' t' => f' = f ∧ J t t'
  | _, _ => False

theorem SameOutcome.mono {α : Type} {J K : State → State → Prop} (h : ∀ t t', J t t' → K t t') :
    ∀ {r r' : EStateM.Result Raised State α}, SameOutcome J r r' → SameOutcome K r r'
  | .ok _ _, .ok _ _, hr => ⟨hr.1, h _ _ hr.2⟩
  | .error _ _, .error _ _, hr => ⟨hr.1, h _ _ hr.2⟩
  | .ok _ _, .error _ _, hr => hr
  | .error _ _, .ok _ _, hr => hr

theorem SameOutcome.of_ok {α : Type} {J : State → State → Prop}
    {r r' : EStateM.Result Raised State α} {a : α} {t : State} (h : SameOutcome J r r')
    (e : r = .ok a t) : ∃ t', r' = .ok a t' ∧ J t t' := by
  subst e
  cases r' with
  | ok a' t' => exact ⟨t', by rw [h.1], h.2⟩
  | error => exact h.elim

theorem SameOutcome.of_error {α : Type} {J : State → State → Prop}
    {r r' : EStateM.Result Raised State α} {f : Raised} {t : State} (h : SameOutcome J r r')
    (e : r = .error f t) : ∃ t', r' = .error f t' ∧ J t t' := by
  subst e
  cases r' with
  | ok => exact h.elim
  | error f' t' => exact ⟨t', by rw [h.1], h.2⟩

section
variable {memory pins : Bool} {J : Bool → State → State → Prop} {b : Bool} {s s' : State}

theorem Couples.csAssert (hJ : Couples memory pins J) (h : J b s s') :
    J b s.csAssert s'.csAssert := by
  unfold State.csAssert
  rw [(hJ.view h).cfg]
  split
  · exact hJ.change (.emit (.cs .active)) (by rintro _ ⟨⟩; simp) (by simp) h
  · exact h

theorem Couples.csRelease (hJ : Couples memory pins J) (h : J b s s') :
    J b s.csRelease s'.csRelease := by
  unfold State.csRelease
  rw [(hJ.view h).cfg]
  split
  · exact hJ.change (.emit (.cs .inactive)) (by rintro _ ⟨⟩; simp) (by simp) h
  · exact h

theorem Couples.memRead (hJ : Couples memory pins J) (hm : memory = true) (h : J b s s')
    (addr n : Nat) : SameOutcome (J b) (memRead addr n s) (memRead addr n s') := by
  unfold Machine.memRead
  rw [(hJ.view h).cfg, hJ.mem hm h]
  split
  · exact ⟨rfl, h⟩
  split
  · exact ⟨rfl, h⟩
  · exact ⟨rfl, h⟩

theorem Couples.xferOut (hJ : Couples memory pins J) (h : J b s s') (bytes : List Byte) :
    SameOutcome (J b) (xferOut bytes s) (xferOut bytes s') := by
  have hdraw := hJ.change .xferDraw (by simp) (by simp) h
  have hok : s'.nextXferOk = s.nextXferOk := by
    unfold State.nextXferOk
    rw [(hJ.draws h).1]
  unfold Machine.xferOut
  rw [hok]
  split
  · exact ⟨rfl, hJ.change (.emit (.xfer bytes)) (by rintro _ ⟨⟩; simp) (by simp) hdraw⟩
  · exact ⟨rfl, hJ.change (.emit (.xferFail bytes)) (by rintro _ ⟨⟩; simp) (by simp) hdraw⟩

theorem Couples.acquireScratch (hJ : Couples memory pins J) (h : J b s s') (n : Nat) :
    SameOutcome (J b) (acquireScratch n s) (acquireScratch n s') := by
  have hdraw := hJ.change .allocDraw (by simp) (by simp) h
  have hok : s'.nextAllocOk = s.nextAllocOk := by
    unfold State.nextAllocOk
    rw [(hJ.draws h).2]
  rw [acquireScratch_eq, acquireScratch_eq, (hJ.view h).cfg, hok]
  cases s.cfg.scratch with
  | resident cap =>
    simp only
    split
    · exact ⟨rfl, h⟩
    · exact ⟨rfl, hJ.change (.hold n) (by simp) (by simp) h⟩
  | transient =>
    simp only
    split
    · exact ⟨rfl, hJ.change .clear (by simp) (by simp)
        (hJ.change (.hold n) (by simp) (by simp) hdraw)⟩
    · exact ⟨rfl, hdraw⟩

end

/-- Two runs in sequence. -/
theorem SameOutcome.bind {α β : Type} {J : State → State → Prop} {c : Cmd α} {k : α → Cmd β}
    {s s' : State} (hc : SameOutcome J (c s) (c s'))
    (hk : ∀ a t t', J t t' → SameOutcome J (k a t) (k a t')) :
    SameOutcome J ((c >>= k) s) ((c >>= k) s') := by
  cases e : c s with
  | ok a t =>
    obtain ⟨t', e', ht⟩ := hc.of_ok e
    rw [cmd_bind_ok e, cmd_bind_ok e']
    exact hk a t t' ht
  | error f t =>
    obtain ⟨t', e', ht⟩ := hc.of_error e
    rw [cmd_bind_error e, cmd_bind_error e']
    exact ⟨rfl, ht⟩

theorem SameOutcome.mapState {α : Type} {J : State → State → Prop} {g : State → State}
    (hg : ∀ t t', J t t' → J (g t) (g t')) :
    ∀ {r r' : EStateM.Result Raised State α}, SameOutcome J r r' →
      SameOutcome J (mapState g r) (mapState g r')
  | .ok _ _, .ok _ _, h => ⟨h.1, hg _ _ h.2⟩
  | .error _ _, .error _ _, h => ⟨h.1, hg _ _ h.2⟩
  | .ok _ _, .error _ _, h => h
  | .error _ _, .ok _ _, h => h

/-- Pseudocode keeps every relation that couples two runs of what it uses. -/
theorem Built.sameOutcome {m : Uses} {α : Type} {c : Cmd α} {J : Bool → State → State → Prop}
    (hJ : Couples m.memory m.pins J) (h : Built m c) :
    ∀ s s', J m.cursor s s' → SameOutcome (J m.cursor) (c s) (c s') := by
  induction h with
  | pure a => exact fun s s' h => ⟨rfl, h⟩
  | bind _ _ ihc ihk =>
    exact fun s s' h => (ihc hJ s s' h).bind fun a t t' ht => ihk a hJ t t' ht
  | raise f _ => exact fun s s' h => ⟨rfl, h⟩
  | look hg _ ih =>
    intro s s' h
    rw [withState_apply, withState_apply, hg s s' (hJ.view h)]
    exact ih s hJ s s' h
  | memRead addr n hm => exact fun s s' h => hJ.memRead hm h addr n
  | @change m u hu =>
    intro s s' h
    refine ⟨rfl, ?_⟩
    cases u with
    | emit e =>
      cases e with
      | rst l => exact hJ.pin _ hu h
      | bl l => exact hJ.pin _ hu h
      | _ => exact hJ.change _ (by rintro _ ⟨⟩; simp) (by simp) h
    | advance => exact hJ.change _ (by simp) (fun _ => hu) h
    | _ => exact hJ.change _ (by simp) (by simp) h
  | seeded base pos _ ih =>
    exact fun s s' h => (ih hJ _ _ (hJ.seed base pos h)).mono fun _ _ => hJ.unseed
  | xferOut bytes _ => exact fun s s' h => hJ.xferOut h bytes
  | bracketed _ _ ih =>
    intro s s' h
    rw [bracketed_eq, bracketed_eq]
    exact (ih hJ _ _ (hJ.csAssert h)).mapState fun _ _ => hJ.csRelease
  | withScratch n _ ih =>
    refine fun s s' h => (hJ.acquireScratch h n).bind fun _ t t' ht => ?_
    rw [releasing_eq, releasing_eq]
    exact (ih hJ t t' ht).mapState fun _ _ => hJ.change .release (by simp) (by simp)

/-! ## Resource memory (R70) -/

/-- The second state is the first with other contents of resource memory. -/
def OtherMemory (m : Memory) (_ : Bool) (s s' : State) : Prop := s' = { s with mem := m }

theorem otherMemory_couples (m : Memory) (pins : Bool) : Couples false pins (OtherMemory m) where
  view := by rintro b s _ rfl; exact ⟨rfl, rfl, rfl, rfl, rfl, rfl, fun _ => rfl, fun _ => rfl⟩
  unseed h := h
  seed _ _ := by rintro rfl; rfl
  mem := nofun
  draws := by rintro b s _ rfl; exact ⟨rfl, rfl⟩
  change u _ _ := by
    rintro rfl
    cases u with
    | emit e => cases e <;> rfl
    | _ => rfl
  pin e _ := by rintro rfl; cases e <;> rfl

/-- A command that reads no memory does the same whatever memory holds. -/
theorem runCommand_otherMemory {m : Uses} (hm : m.memory = false) {body : Cmd Unit}
    (h : Built m body) (len : Nat) (fieldsOk : Bool) (s : State) (x : Memory) :
    runCommand len fieldsOk body { s with mem := x } =
      { runCommand len fieldsOk body s with mem := x } := by
  have hrun := h.sameOutcome (J := OtherMemory x) (hm ▸ otherMemory_couples x m.pins)
    { s with busy := true } _ rfl
  unfold runCommand
  simp only
  split
  · rfl
  split
  · rfl
  cases e : body { s with busy := true } with
  | ok a t =>
    obtain ⟨t', e', rfl⟩ := hrun.of_ok e
    rw [e']
    rfl
  | error f t =>
    obtain ⟨t', e', rfl⟩ := hrun.of_error e
    rw [e']
    rfl

/-- Settles O23: the other commands are built without a read. -/
theorem onlyReadersReadMemory : Obligations.OnlyReadersReadMemory := by
  unfold Obligations.OnlyReadersReadMemory
  intro i s t m hi h
  rw [exec_eq_commandBody, Host.Outcome.next.injEq] at h
  rw [exec_eq_commandBody, runCommand_otherMemory (m := commandUses i) hi (built_commandBody i), h]

/-! ## RST and BL (R310, R318) -/

/-- The second state is the first with these levels of RST and BL. -/
def OtherPins (r : Act) (l : Light) (_ : Bool) (s s' : State) : Prop :=
  s' = { s with rst := r, bl := l }

theorem otherPins_couples (r : Act) (l : Light) (memory : Bool) :
    Couples memory false (OtherPins r l) where
  view := by rintro b s _ rfl; exact ⟨rfl, rfl, rfl, rfl, rfl, rfl, fun _ => rfl, fun _ => rfl⟩
  unseed h := h
  seed _ _ := by rintro rfl; rfl
  mem _ := by rintro rfl; rfl
  draws := by rintro b s _ rfl; exact ⟨rfl, rfl⟩
  change u hu _ := by
    rintro rfl
    cases u with
    | emit e =>
      obtain ⟨hrst, hbl⟩ := hu e rfl
      cases e with
      | rst a => exact absurd rfl (hrst a)
      | bl b => exact absurd rfl (hbl b)
      | _ => rfl
    | _ => rfl
  pin := nofun

theorem OtherPins.levels {r : Act} {l : Light} {b : Bool} {s s' : State} (h : OtherPins r l b s s') :
    s'.rst = r ∧ s'.bl = l := by
  subst h
  exact ⟨rfl, rfl⟩

/-- A run from a state with the levels it has already is the same run, so the levels it ends with are
those it began with. -/
theorem Built.keepsPins {m : Uses} (hp : m.pins = false) {α : Type} {c : Cmd α} (h : Built m c)
    (s : State) : match c s with
      | .ok _ t => t.rst = s.rst ∧ t.bl = s.bl
      | .error _ t => t.rst = s.rst ∧ t.bl = s.bl := by
  have hrun : SameOutcome (OtherPins s.rst s.bl m.cursor) (c s) (c s) :=
    h.sameOutcome (J := OtherPins s.rst s.bl) (hp ▸ otherPins_couples s.rst s.bl m.memory) s s rfl
  cases e : c s with
  | ok a t =>
    obtain ⟨t', e', ht⟩ := hrun.of_ok e
    cases e.symm.trans e'
    exact ht.levels
  | error f t =>
    obtain ⟨t', e', ht⟩ := hrun.of_error e
    cases e.symm.trans e'
    exact ht.levels

/-! ## LAST, ERR, RESULT and an earlier cursor (R37, R43, R49) -/

/-- The second state differs in ERR, LAST and RESULT and, before a seed, in the cursor. -/
def OtherFlags (seeded : Bool) (s s' : State) : Prop :=
  ∃ e l r base pos,
    s' = { s with err := e, last := l, result := r, bitBase := base, bitPos := pos } ∧
      (seeded = true → base = s.bitBase ∧ pos = s.bitPos)

theorem otherFlags_couples (memory pins : Bool) : Couples memory pins OtherFlags where
  view := by
    rintro b s _ ⟨e, l, r, base, pos, rfl, hcursor⟩
    refine ⟨rfl, rfl, rfl, rfl, rfl, rfl, fun h => (hcursor h).1, fun h => ?_⟩
    obtain ⟨rfl, rfl⟩ := hcursor h
    rfl
  unseed := by
    rintro b s _ ⟨e, l, r, base, pos, rfl, hcursor⟩
    exact ⟨e, l, r, base, pos, rfl, fun _ => hcursor rfl⟩
  seed := by
    rintro b s _ base pos ⟨e, l, r, base', pos', rfl, -⟩
    exact ⟨e, l, r, _, _, rfl, fun _ => ⟨rfl, rfl⟩⟩
  mem := by
    rintro b s _ - ⟨e, l, r, base, pos, rfl, -⟩
    rfl
  draws := by
    rintro b s _ ⟨e, l, r, base, pos, rfl, -⟩
    exact ⟨rfl, rfl⟩
  change := by
    rintro b s _ u - hadvance ⟨e, l, r, base, pos, rfl, hcursor⟩
    cases u with
    | emit ev => cases ev <;> exact ⟨e, l, r, base, pos, rfl, hcursor⟩
    | result v => exact ⟨e, l, _, base, pos, rfl, hcursor⟩
    | forget => exact ⟨e, l, r, _, _, rfl, fun _ => ⟨rfl, rfl⟩⟩
    | seed base' pos' => exact ⟨e, l, r, _, _, rfl, fun _ => ⟨rfl, rfl⟩⟩
    | advance =>
      obtain ⟨rfl, rfl⟩ := hcursor (hadvance rfl)
      exact ⟨e, l, r, _, _, rfl, fun _ => ⟨rfl, rfl⟩⟩
    | _ => exact ⟨e, l, r, base, pos, rfl, hcursor⟩
  pin := by
    rintro b s _ ev - ⟨e, l, r, base, pos, rfl, hcursor⟩
    cases ev <;> exact ⟨e, l, r, base, pos, rfl, hcursor⟩

/-- The value a command leaves in RESULT is one its pseudocode answered, so both runs leave the same. -/
theorem OtherFlags.result_bind {m : Uses} (hm : m.cursor = false) {c : Cmd Nat} (h : Built m c)
    {k : Nat → Cmd Unit} (hk : ∀ v s u, k v s = .ok () u → u.result = BitVec.ofNat 32 v)
    {s s' u u' : State} (hs : OtherFlags false s s') (e : (c >>= k) s = .ok () u)
    (e' : (c >>= k) s' = .ok () u') : u'.result = u.result := by
  have hrun := h.sameOutcome (otherFlags_couples m.memory m.pins) s s' (hm ▸ hs)
  obtain ⟨v, t, hc, hkt⟩ := cmd_bind_eq_ok e
  obtain ⟨v', t', hc', hkt'⟩ := cmd_bind_eq_ok e'
  obtain ⟨t'', hc'', -⟩ := hrun.of_ok hc
  cases hc'.symm.trans hc''
  rw [hk v t u hkt, hk v t' u' hkt']

theorem setResult_forgetCursor_result (v : Nat) (s u : State)
    (h : (setResult v >>= fun _ => forgetCursor) s = .ok () u) : u.result = BitVec.ofNat 32 v := by
  cases h
  rfl

theorem setResult_result (v : Nat) (s u : State) (h : setResult v s = .ok () u) :
    u.result = BitVec.ofNat 32 v := by
  cases h
  rfl

theorem commandBody_result {i : Instr} (hi : writesResult i = true) {s s' u u' : State}
    (hs : OtherFlags false s s') (e : commandBody i s = .ok () u)
    (e' : commandBody i s' = .ok () u') : u'.result = u.result := by
  cases i with
  | write =>
    exact OtherFlags.result_bind (m := commandUses (.write 0 0 0 0 0 0 0 0 0 0 0 0 0 0)) rfl
      (built_writeLoop rfl rfl _ _ _ _ _) setResult_forgetCursor_result hs e e'
  | writeLen =>
    exact OtherFlags.result_bind (m := commandUses (.writeLen 0 0 0 0 0)) rfl
      (built_measureLoop rfl _ _ _ _ _ _ _) setResult_result hs e e'
  | width | height =>
    obtain ⟨_, _, _, _, _, rfl, -⟩ := hs
    cases e
    cases e'
    rfl
  | _ => cases hi

/-- The body of a command, run from two states that differ in ERR, LAST, RESULT and the cursor. -/
theorem commandBody_otherFlags (i : Instr) {s s' : State} (hs : OtherFlags false s s') :
    SameOutcome (OtherFlags false) (commandBody i s) (commandBody i s') :=
  (built_commandBody i).sameOutcome (otherFlags_couples _ _) s s' hs

/-- Two such commands end with the same code, in two such states. -/
theorem exec_otherFlags {i : Instr} {s s' t t' : State} (hs : OtherFlags false s s')
    (h : exec i s = .next t) (h' : exec i s' = .next t') :
    ∃ u u' code, t = u.ended (1 + i.operandCount) code ∧ t' = u'.ended (1 + i.operandCount) code ∧
      OtherFlags false u u' ∧ (writesResult i = true → code = .ok → u'.result = u.result) := by
  obtain ⟨err, last, result, base, pos, rfl, hcursor⟩ := hs
  have hs : OtherFlags false s _ := ⟨err, last, result, base, pos, rfl, hcursor⟩
  have hbusy : OtherFlags false { s with busy := true } _ :=
    ⟨err, last, result, base, pos, rfl, hcursor⟩
  have hrun := commandBody_otherFlags i hbusy
  rw [exec_eq_commandBody, Host.Outcome.next.injEq] at h h'
  subst h h'
  unfold runCommand
  simp only
  split
  · exact ⟨s, _, _, rfl, rfl, hs, fun _ => nofun⟩
  split
  · exact ⟨s, _, _, rfl, rfl, hs, fun _ => nofun⟩
  cases e : commandBody i { s with busy := true } with
  | ok a u =>
    obtain ⟨u', e', hu⟩ := hrun.of_ok e
    rw [e']
    exact ⟨u, u', _, rfl, rfl, hu, fun hi _ => commandBody_result hi hbusy e e'⟩
  | error f u =>
    obtain ⟨u', e', hu⟩ := hrun.of_error e
    rw [e']
    exact ⟨u, u', _, rfl, rfl, hu, fun _ hok => absurd hok (raisedCode_ne_ok f)⟩

/-- Settles O24: nothing looks at the flags, and every decode seeds the cursor before it looks. -/
theorem noCommandReadsFlagsOrCursor : Obligations.NoCommandReadsFlagsOrCursor := by
  unfold Obligations.NoCommandReadsFlagsOrCursor
  intro i s t u e l r base pos ht hu
  have herr : u.err = (e || decide (u.last ≠ .ok)) := by
    obtain ⟨u', hu', -, herr, -⟩ := everyCommandEnds i { s with
      err := e, last := l, result := r, bitBase := base, bitPos := pos }
    cases hu.symm.trans hu'
    exact herr
  obtain ⟨v, v', code, rfl, rfl, ⟨e', l', r', base', pos', rfl, -⟩, hres⟩ :=
    exec_otherFlags ⟨e, l, r, base, pos, rfl, nofun⟩ ht hu
  exact ⟨rfl, rfl, rfl, rfl, rfl, rfl, rfl, herr, rfl, rfl, hres⟩

end Sys2Proof.Machine
end

section
/-! PROOF. The frame of every command: what none writes, and which commands alone write a register, a
scratch or a pin, faulting or not (spec/10_state.md R34 to R48, spec/60_exceptions.md R352). -/

namespace Sys2Proof.Machine

/-! ## One part of the state -/

/-- A part of the state that stands. -/
def Keeps {β : Type} (q : State → β) (s t : State) : Prop := q t = q s

/-- A part of the state that no event, no draw of a transfer and no line register is in. -/
theorem keeps_respects {β : Type} {q : State → β} (hemit : ∀ s e, q (s.emit e) = q s)
    (hdraw : ∀ s : State, q { s with xferDraws := s.xferDraws.tail } = q s)
    (hline : ∀ (s : State) r, q { s with line := r } = q s) : Respects (Keeps q) where
  refl _ := rfl
  trans _ _ _ h h' := h'.trans h
  emit := hemit
  xferDraw := hdraw
  line := hline

/-- A part that a command keeps, if neither the marks of its beginning nor those of its end are in it. -/
theorem exec_keeps {β : Type} {q : State → β} {i : Instr} (hR : RespectsCommand (Keeps q) i)
    (hbusy : ∀ s : State, q { s with busy := true } = q s)
    (hended : ∀ (s : State) len code, q (s.ended len code) = q s) {s t : State}
    (h : exec i s = .next t) : q t = q s := by
  obtain ⟨u, code, rfl, hu⟩ := exec_after hR h
  rw [hended]
  rcases hu with rfl | hu
  · rfl
  · exact hu.trans (hbusy s)

/-- The configuration, resource memory, the buffer, the host's moves, the value of the last read and the
reset input. -/
def State.owned (s : State) : Config × Memory × List Word × List HostOp × Word × Bool :=
  (s.cfg, s.mem, s.pending, s.inbox, s.readData, s.resetHeld)

theorem exec_keeps_owned {i : Instr} {s t : State} (h : exec i s = .next t) :
    t.owned = s.owned := by
  refine exec_keeps (q := State.owned) ?_ (fun _ => rfl) (fun _ _ _ => rfl) h
  exact
    { base := keeps_respects (fun s e => by simp [State.owned]) (fun _ => rfl) fun _ _ => rfl
      fill := fun _ _ _ => rfl
      glyph := fun _ => ⟨fun _ => rfl, fun _ _ _ _ => rfl, fun _ _ _ => rfl, fun _ _ => rfl,
        fun _ => rfl⟩
      cursor := fun _ _ _ _ => rfl
      forget := fun _ _ _ _ _ => rfl
      result := fun _ _ _ => rfl
      geometry := fun _ _ _ _ _ => rfl }

theorem exec_keeps_geometry {i : Instr} (hi : setsGeometry i = false) {s t : State}
    (h : exec i s = .next t) : (t.rot, t.width, t.height) = (s.rot, s.width, s.height) := by
  refine exec_keeps (q := fun s => (s.rot, s.width, s.height)) ?_ (fun _ => rfl)
    (fun _ _ _ => rfl) h
  exact
    { base := keeps_respects (fun s e => by simp) (fun _ => rfl) fun _ _ => rfl
      fill := fun _ _ _ => rfl
      glyph := fun _ => ⟨fun _ => rfl, fun _ _ _ _ => rfl, fun _ _ _ => rfl, fun _ _ => rfl,
        fun _ => rfl⟩
      cursor := fun _ _ _ _ => rfl
      forget := fun _ _ _ _ _ => rfl
      result := fun _ _ _ => rfl
      geometry := fun h => absurd (hi.symm.trans h) Bool.false_ne_true }

theorem result_respects : Respects (Keeps State.result) :=
  keeps_respects State_emit_result (fun _ => rfl) fun _ _ => rfl

theorem result_respectsScratch : RespectsScratch (Keeps State.result) :=
  ⟨fun _ => rfl, fun _ _ _ _ => rfl, fun _ _ _ => rfl, fun _ _ => rfl, fun _ => rfl⟩

theorem result_respectsCommand {i : Instr} (hi : writesResult i = false) :
    RespectsCommand (Keeps State.result) i where
  base := result_respects
  fill _ _ _ := rfl
  glyph _ := result_respectsScratch
  cursor _ _ _ _ := rfl
  forget _ _ _ _ _ := rfl
  result h := absurd (hi.symm.trans h) Bool.false_ne_true
  geometry _ _ _ _ _ := rfl

theorem exec_keeps_cursor {i : Instr} (hi : usesCursor i = false) {s t : State}
    (h : exec i s = .next t) :
    (t.bitBase, t.bitPos, t.freeCount) = (s.bitBase, s.bitPos, s.freeCount) := by
  refine exec_keeps (q := fun s => (s.bitBase, s.bitPos, s.freeCount)) ?_ (fun _ => rfl)
    (fun _ _ _ => rfl) h
  exact
    { base := keeps_respects (fun s e => by simp) (fun _ => rfl) fun _ _ => rfl
      fill := fun _ _ _ => rfl
      glyph := fun _ => ⟨fun _ => rfl, fun _ _ _ _ => rfl, fun _ _ _ => rfl, fun _ _ => rfl,
        fun _ => rfl⟩
      cursor := fun h => absurd (hi.symm.trans h) Bool.false_ne_true
      forget := fun h => absurd (hi.symm.trans h) Bool.false_ne_true
      result := fun _ _ _ => rfl
      geometry := fun _ _ _ _ _ => rfl }

theorem exec_keeps_fillScratch {i : Instr} (hi : usesFillScratch i = false) {s t : State}
    (h : exec i s = .next t) : t.fillScratch = s.fillScratch := by
  refine exec_keeps (q := State.fillScratch) ?_ (fun _ => rfl) (fun _ _ _ => rfl) h
  exact
    { base := keeps_respects State_emit_fillScratch (fun _ => rfl) fun _ _ => rfl
      fill := fun h => absurd (hi.symm.trans h) Bool.false_ne_true
      glyph := fun _ => ⟨fun _ => rfl, fun _ _ _ _ => rfl, fun _ _ _ => rfl, fun _ _ => rfl,
        fun _ => rfl⟩
      cursor := fun _ _ _ _ => rfl
      forget := fun _ _ _ _ _ => rfl
      result := fun _ _ _ => rfl
      geometry := fun _ _ _ _ _ => rfl }

theorem exec_keeps_glyphScratch {i : Instr} (hi : usesGlyphScratch i = false) {s t : State}
    (h : exec i s = .next t) : (t.scratch, t.allocDraws) = (s.scratch, s.allocDraws) := by
  refine exec_keeps (q := fun s => (s.scratch, s.allocDraws)) ?_ (fun _ => rfl)
    (fun _ _ _ => rfl) h
  exact
    { base := keeps_respects (fun s e => by simp) (fun _ => rfl) fun _ _ => rfl
      fill := fun _ _ _ => rfl
      glyph := fun h => absurd (hi.symm.trans h) Bool.false_ne_true
      cursor := fun _ _ _ _ => rfl
      forget := fun _ _ _ _ _ => rfl
      result := fun _ _ _ => rfl
      geometry := fun _ _ _ _ _ => rfl }

/-! ## RESULT of a command that faults (R37, R352) -/

/-- The commands that write RESULT do so behind everything in them that can raise a fault. -/
theorem commandBody_error_result {i : Instr} {s t : State} {f : Raised}
    (h : commandBody i s = .error f t) : t.result = s.result := by
  cases hi : writesResult i with
  | false => exact ((after_commandBody (result_respectsCommand hi)).error h).1
  | true =>
    cases i with
    | write =>
      rcases cmd_bind_eq_error h with e | ⟨total, u, -, e⟩
      · exact ((after_writeLoop (Q := fun _ => True) result_respects result_respectsScratch
          (fun _ => trivial) (fun _ => trivial) (fun _ => trivial) (fun _ _ _ => rfl)
          _ _ _ _ _).error e).1
      · cases e
    | writeLen =>
      rcases cmd_bind_eq_error h with e | ⟨total, u, -, e⟩
      · exact ((after_measureLoop (Q := fun _ => True) result_respects (fun _ => trivial)
          _ _ _ _ _ _ _).error e).1
      · cases e
    | width | height => cases h
    | _ => cases hi

theorem exec_keeps_result {i : Instr} {s t : State} (h : exec i s = .next t)
    (hi : writesResult i = false ∨ t.last ≠ .ok) : t.result = s.result := by
  rcases hi with hi | hlast
  · exact exec_keeps (result_respectsCommand hi) (fun _ => rfl) (fun _ _ _ => rfl) h
  · obtain ⟨u, code, rfl, ⟨rfl, -⟩ | ⟨rfl, -⟩ | ⟨-, rfl⟩ | ⟨f, e, -⟩⟩ := exec_cases h
    · rfl
    · rfl
    · exact absurd rfl hlast
    · have hu : u.result = _ := commandBody_error_result e
      exact hu

/-! ## RST and BL -/

theorem exec_keeps_pins {i : Instr} (hi : drivesPins i = false) {s t : State}
    (h : exec i s = .next t) : t.rst = s.rst ∧ t.bl = s.bl := by
  have hbody := (built_commandBody i).keepsPins hi { s with busy := true }
  obtain ⟨u, code, rfl, ⟨rfl, -⟩ | ⟨rfl, -⟩ | ⟨e, -⟩ | ⟨f, e, -⟩⟩ := exec_cases h
  · exact ⟨rfl, rfl⟩
  · exact ⟨rfl, rfl⟩
  · rw [e] at hbody
    exact hbody
  · rw [e] at hbody
    exact hbody

theorem hardResetEvents_light (c : Config) (l : Levels) :
    ((hardResetEvents c).foldl levelAfter l).2.2.2 = l.2.2.2 := by
  unfold hardResetEvents
  split <;> rfl

/-- HARD_RESET drives RST alone (R310). -/
theorem exec_hardReset_bl {s t : State} (h : exec .hardReset s = .next t) : t.bl = s.bl := by
  have hrun : commandBody .hardReset { s with busy := true } = .ok () _ :=
    makes_hardResetSeq { s with busy := true }
  obtain ⟨u, code, rfl, ⟨rfl, -⟩ | ⟨rfl, -⟩ | ⟨e, -⟩ | ⟨f, e, -⟩⟩ := exec_cases h
  · rfl
  · rfl
  · cases hrun.symm.trans e
    exact hardResetEvents_light s.cfg s.levels
  · cases hrun.symm.trans e

theorem drivesPins_eq_false {i : Instr} (hreset : i ≠ .hardReset) (hinit : i ≠ .init) :
    drivesPins i = false := by
  cases i with
  | hardReset => exact absurd rfl hreset
  | init => exact absurd rfl hinit
  | _ => rfl

theorem setsGeometry_eq_false {i : Instr} (hrotation : ∀ n, i ≠ .rotation n) (hinit : i ≠ .init) :
    setsGeometry i = false := by
  cases i with
  | rotation n => exact absurd rfl (hrotation n)
  | init => exact absurd rfl hinit
  | _ => rfl

/-- What exists only inside a command is gone at its end. -/
theorem exec_leaves_nothing {i : Instr} {s t : State} (h : exec i s = .next t) :
    t.line = none ∧ t.scratchHeld = none ∧ t.bitOver = none := by
  obtain ⟨u, code, rfl, -⟩ := exec_cases h
  exact ⟨rfl, rfl, rfl⟩

/-- Settles O19: part by part, each from the frame rule of the command's body. -/
theorem commandFrame : Obligations.CommandFrame := by
  unfold Obligations.CommandFrame
  intro i s t h
  have howned := exec_keeps_owned h
  simp only [State.owned, Prod.mk.injEq] at howned
  obtain ⟨hcfg, hmem, hpending, hinbox, hread, hheld⟩ := howned
  obtain ⟨hline, hscratch, hover⟩ := exec_leaves_nothing h
  obtain ⟨es, htrace, -⟩ := bracketsClose i s t h
  refine ⟨hcfg, fun a => by rw [hmem], hmem, hpending, hinbox, hread, hheld, hline, hscratch, hover,
    ⟨es, htrace⟩, fun hrotation hinit => ?_, exec_keeps_result h, fun hi => ?_,
    fun hi => exec_keeps_fillScratch hi h, fun hi => ?_, fun hreset hinit => ?_, fun hinit => ?_⟩
  · simpa using exec_keeps_geometry (setsGeometry_eq_false hrotation hinit) h
  · simpa using exec_keeps_cursor hi h
  · simpa using exec_keeps_glyphScratch hi h
  · exact (exec_keeps_pins (drivesPins_eq_false hreset hinit) h).1
  · by_cases hreset : i = .hardReset
    · exact exec_hardReset_bl (hreset ▸ h)
    · exact (exec_keeps_pins (drivesPins_eq_false hreset hinit) h).2

end Sys2Proof.Machine
end

section
/-! PROOF. The protocol and the control commands when nothing fails, and SEND past the end of memory
(spec/40_protocol_window.md R153 to R171, spec/44_control.md R312 to R321). -/

namespace Sys2Proof.Machine

/-! ## From the body of a command to the command -/

/-- A command whose body makes these events and fills nothing. -/
theorem exec_unfilled {i : Instr} {s : State} {es : List Event} (hc : configLegal s.cfg = true)
    (hwf : i.wf = true) (h : Does [] (commandBody i) { s with busy := true } es) :
    exec i s = .next (s.completed (1 + i.operandCount) es) := by
  rw [exec_eq_commandBody, hwf, runCommand_unfilled hc h]

/-- A command whose body makes these events and fills with one colour. -/
theorem exec_fills {i : Instr} {c : Half} {s : State} {es : List Event}
    (hc : configLegal s.cfg = true) (hwf : i.wf = true)
    (h : Does [c] (commandBody i) { s with busy := true } es) :
    ∃ f, FillScratchAfter s c f ∧ exec i s = .next (State.completed
      { s with fillScratch := f } (1 + i.operandCount) es) := by
  obtain ⟨f, hf, hrun⟩ := runCommand_fills (len := 1 + i.operandCount) hc h
  exact ⟨f, hf, by rw [exec_eq_commandBody, hwf, hrun]⟩

/-! ## Sequences -/

/-- A state behind some pieces of a sequence that began at s. -/
structure Staged (s t : State) : Prop where
  up : TransportUp t
  cfg : t.cfg = s.cfg
  width : t.width = s.width
  height : t.height = s.height

theorem does_bind_staged {K : List Half} {c d : Cmd Unit} {s t : State} {a b : List Event}
    (ht : Staged s t) (hc : Does K c t a) (hd : ∀ u, Staged s u → Does K d u b) :
    Does K (c >>= fun _ => d) t (a ++ b) :=
  does_bind_const ht.up hc fun u hup hcfg hwidth hheight _ =>
    hd u ⟨hup, hcfg.trans ht.cfg, hwidth.trans ht.width, hheight.trans ht.height⟩

section
variable {K : List Half} {s t : State}

theorem Staged.sendCmd (h : Staged s t) (b : Config → Byte) (p : List Byte) :
    Does K (sendCmd b p) t (sendEvents s.cfg (some (b s.cfg)) p) := by
  rw [← h.cfg]
  exact (makes_sendCmd h.up b p).does

theorem Staged.hlineOp (h : Staged s t) (x y w : Int) (c : Half) :
    Does [c] (hlineOp x y w c) t (hlineEvents s x y w c) := by
  rw [← hlineEvents_congr h.cfg h.width h.height]
  exact does_hlineOp h.up x y w c

theorem Staged.vlineOp (h : Staged s t) (x y hgt : Int) (c : Half) :
    Does [c] (vlineOp x y hgt c) t (vlineEvents s x y hgt c) := by
  rw [← vlineEvents_congr h.cfg h.width h.height]
  exact does_vlineOp h.up x y hgt c

theorem Staged.fillScreen (h : Staged s t) (c : Half) :
    Does [c] (fillScreen c) t (screenEvents s c) := by
  have hevents : screenEvents t c = screenEvents s c := by
    simp only [screenEvents, streamEvents_congr h.cfg h.width h.height, h.width, h.height]
  rw [← hevents]
  exact does_fillScreen h.up c

theorem Staged.setBl (h : Staged s t) (l : Light) :
    Does K (setBl l) t (if s.cfg.hasBl then [.bl l] else []) := by
  rw [← h.cfg]
  exact (makes_setBl t l).does

theorem Staged.delayFor (h : Staged s t) (d : Config → Nat) :
    Does K (delayFor d) t [.delay (d s.cfg)] := by
  rw [← h.cfg]
  exact (makes_delayFor t d).does

end

/-! ## SEND (R160) -/

/-- Settles O25: the payload is read, then sent. -/
theorem sendSends : Obligations.SendSends := by
  unfold Obligations.SendSends
  intro hasCmd cmd addr len s hready hread
  obtain ⟨hc, hup⟩ := hready
  have hpayload := memRead_ok (s := { s with busy := true }) hread
  have hmakes : Makes (commandBody (.send hasCmd cmd addr len)) { s with busy := true } _ :=
    (cmd_bind_ok hpayload).trans (makes_send (s := { s with busy := true }) hup _ _)
  exact exec_unfilled hc rfl hmakes.does

theorem memRead_fault {s : State} {addr n : Nat} (hn : n ≠ 0) (h : s.cfg.resMemSize < addr + n) :
    memRead addr n s = .error (.resourceBounds addr) s := by
  rw [memRead, if_neg hn, if_neg (by omega)]

theorem word_ne_zero_iff (v : Word) : v ≠ 0 ↔ v.toNat ≠ 0 :=
  not_congr (BitVec.toNat_inj (y := 0#32)).symm

/-- Settles O26: the read comes before anything is sent. -/
theorem sendOutOfBounds : Obligations.SendOutOfBounds := by
  unfold Obligations.SendOutOfBounds
  intro hasCmd cmd addr len s hc hlen hbounds
  have hfault := memRead_fault (s := { s with busy := true }) ((word_ne_zero_iff len).mp hlen) hbounds
  exact exec_of_raised hc rfl (i := .send hasCmd cmd addr len) (cmd_bind_error hfault)

/-! ## SET_WINDOW (R157, R158, R165) -/

theorem makes_openWindow {s : State} (h : TransportUp s) (x0 y0 x1 y1 : Int) :
    Makes (openWindow x0 y0 x1 y1 >>= fun _ => pure ()) s
      (if 0 ≤ x0 ∧ x0 ≤ x1 ∧ x1 < s.width.toNat ∧ 0 ≤ y0 ∧ y0 ≤ y1 ∧ y1 < s.height.toNat then
        windowEvents s.cfg x0 y0 x1 y1 else []) := by
  have hopen := openWindow_eq h x0 y0 x1 y1
  simp only [validWindow, decide_eq_true_eq] at hopen
  unfold Makes
  split at hopen
  case isTrue hv => rw [cmd_bind_ok hopen, if_pos hv, cmd_pure_apply]
  case isFalse hv => rw [cmd_bind_ok hopen, if_neg hv, cmd_pure_apply, performs_nil]

/-- Settles O27: the window opens exactly when it is valid. -/
theorem setWindowPrograms : Obligations.SetWindowPrograms := by
  unfold Obligations.SetWindowPrograms
  intro x0 x1 y0 y1 s hready
  obtain ⟨hc, hup⟩ := hready
  have hmakes := makes_openWindow (s := { s with busy := true }) hup (s16 x0) (s16 y0) (s16 x1) (s16 y1)
  exact exec_unfilled hc rfl (i := .setWindow x0 x1 y0 y1) hmakes.does

/-! ## ROTATION (R170, R171) -/

/-- Settles O28: the registers, then the orientation byte. -/
theorem rotationSends : Obligations.RotationSends := by
  unfold Obligations.RotationSends
  intro n s hready
  obtain ⟨hc, hup⟩ := hready
  have hrun : commandBody (.rotation n) { s with busy := true } = .ok () _ :=
    rotationSeq_eq (s := { s with busy := true }) hup n.toNat
  rw [exec_of_ok hc rfl hrun]
  rfl

/-- Settles O29: the registers are those of the rotation, whatever became of the transfers. -/
theorem rotationRegistersStand : Obligations.RotationRegistersStand := by
  unfold Obligations.RotationRegistersStand
  intro n s t hc h
  obtain ⟨-, hrot, hwidth, hheight⟩ := exec_rotation_holds hc h
  have hlt := rotation_lt s n.toNat
  refine ⟨?_, hwidth.trans (rotatedWidth_eq s.cfg hlt), hheight.trans (rotatedHeight_eq s.cfg hlt)⟩
  rw [hrot, BitVec.toNat_ofNat, Nat.mod_eq_of_lt hlt]

/-- Settles O31: the eight rows of the table. -/
theorem rotationTable : Obligations.RotationTable := by
  unfold Obligations.RotationTable
  decide

/-! ## Single sends (R312 to R321) -/

/-- Settles O53: the software reset, then its delay. -/
theorem softResetSends : Obligations.SoftResetSends := by
  unfold Obligations.SoftResetSends
  intro s hready
  obtain ⟨hc, hup⟩ := hready
  have hmakes := makes_softResetSeq (s := { s with busy := true }) hup
  exact exec_unfilled (i := .softReset) hc rfl hmakes.does

/-- Settles O54: EN picks the byte. -/
theorem sleepSends : Obligations.SleepSends := by
  unfold Obligations.SleepSends
  intro en s hready
  obtain ⟨hc, hup⟩ := hready
  have hmakes := makes_sendCmd (s := { s with busy := true }) hup
  cases en with
  | false => exact exec_unfilled (i := .sleep false) hc rfl (hmakes Config.cmdSlpout []).does
  | true => exact exec_unfilled (i := .sleep true) hc rfl (hmakes Config.cmdSlpin []).does

/-- Settles O55: EN picks the byte. -/
theorem invertSends : Obligations.InvertSends := by
  unfold Obligations.InvertSends
  intro en s hready
  obtain ⟨hc, hup⟩ := hready
  have hmakes := makes_sendCmd (s := { s with busy := true }) hup
  cases en with
  | false => exact exec_unfilled (i := .invert false) hc rfl (hmakes Config.cmdInvoff []).does
  | true => exact exec_unfilled (i := .invert true) hc rfl (hmakes Config.cmdInvon []).does

/-- Settles O57: one `Send` of the three values. -/
theorem vscrollDefineSends : Obligations.VscrollDefineSends := by
  unfold Obligations.VscrollDefineSends
  intro tfa vsa bfa s hready
  obtain ⟨hc, hup⟩ := hready
  have hmakes := makes_sendCmd (s := { s with busy := true }) hup Config.cmdVscrdef
    (be16 tfa ++ be16 vsa ++ be16 bfa)
  exact exec_unfilled (i := .vscrollDefine tfa vsa bfa) hc rfl hmakes.does

/-- Settles O58: one `Send` of the value. -/
theorem vscrollSetSends : Obligations.VscrollSetSends := by
  unfold Obligations.VscrollSetSends
  intro vsp s hready
  obtain ⟨hc, hup⟩ := hready
  have hmakes := makes_sendCmd (s := { s with busy := true }) hup Config.cmdVscrsadd (be16 vsp)
  exact exec_unfilled (i := .vscrollSet vsp) hc rfl hmakes.does

end Sys2Proof.Machine
end

section
/-! PROOF. The fill, raster and blit commands when nothing fails (spec/41_fill_raster.md,
spec/42_blit.md). -/

namespace Sys2Proof.Machine

/-! ## The fill commands and PIXEL (R195 to R201) -/

/-- Settles O33: the body of FILL in the closed form of its events. -/
theorem fillFillsScreen : Obligations.FillFillsScreen := by
  unfold Obligations.FillFillsScreen
  intro c s hready
  obtain ⟨hc, hup⟩ := hready
  exact exec_fills (i := .fill c) hc rfl (does_fillScreen (s := { s with busy := true }) hup c)

/-- Settles O35: one pixel stream, whose body fills. -/
theorem fillRectFills : Obligations.FillRectFills := by
  unfold Obligations.FillRectFills
  intro x y w h c s hready
  obtain ⟨hc, hup⟩ := hready
  have hdoes := does_pixelStream (K := [c]) (s := { s with busy := true }) hup (s16 x) (s16 y)
    (s16 x + s16 w - 1) (s16 y + s16 h - 1) fun _ t ht _ _ _ _ _ =>
      does_fillStream ht c (extent (s16 w) * extent (s16 h))
  rw [← extent_eq_toNat, ← extent_eq_toNat]
  exact exec_fills (i := .fillRect x y w h c) hc rfl hdoes

/-- Settles O36: the body of PIXEL fills nothing. -/
theorem pixelDraws : Obligations.PixelDraws := by
  unfold Obligations.PixelDraws
  intro x y c s hready
  obtain ⟨hc, hup⟩ := hready
  exact exec_unfilled (i := .pixel x y c) hc rfl
    (does_pixelOp (s := { s with busy := true }) hup (s16 x) (s16 y) c)

/-! ## The runs (R204 to R218) -/

/-- Settles O37: one clamped run. -/
theorem hlineDraws : Obligations.HlineDraws := by
  unfold Obligations.HlineDraws
  intro x y len c s hready
  obtain ⟨hc, hup⟩ := hready
  exact exec_fills (i := .hline x y len c) hc rfl
    (does_hlineOp (s := { s with busy := true }) hup (s16 x) (s16 y) (s16 len) c)

/-- Settles O38: one clamped run. -/
theorem vlineDraws : Obligations.VlineDraws := by
  unfold Obligations.VlineDraws
  intro x y len c s hready
  obtain ⟨hc, hup⟩ := hready
  exact exec_fills (i := .vline x y len c) hc rfl
    (does_vlineOp (s := { s with busy := true }) hup (s16 x) (s16 y) (s16 len) c)

/-- Settles O39: four runs, one behind the other. -/
theorem rectDraws : Obligations.RectDraws := by
  unfold Obligations.RectDraws
  intro x y w h c s hready
  obtain ⟨hc, hup⟩ := hready
  refine exec_fills (i := .rect x y w h c) hc rfl ?_
  simp only [List.append_assoc]
  have hs : Staged s { s with busy := true } := ⟨hup, rfl, rfl, rfl⟩
  exact does_bind_staged hs (hs.hlineOp _ _ _ c) fun t ht =>
    does_bind_staged ht (ht.vlineOp _ _ _ c) fun u hu =>
    does_bind_staged hu (hu.hlineOp _ _ _ c) fun v hv => hv.vlineOp _ _ _ c

/-- Settles O40: the walk of the line. -/
theorem lineDraws : Obligations.LineDraws := by
  unfold Obligations.LineDraws
  intro x0 y0 x1 y1 c s hready
  obtain ⟨hc, hup⟩ := hready
  exact exec_fills (i := .line x0 y0 x1 y1 c) hc rfl
    (does_lineOp (s := { s with busy := true }) hup (s16 x0) (s16 y0) (s16 x1) (s16 y1) c)

/-! ## BLIT (R240 to R243) -/

/-- Settles O43: one pixel stream, whose body reads only where something is sent. -/
theorem blitStreams : Obligations.BlitStreams := by
  unfold Obligations.BlitStreams
  intro addr len x y w h s hready n hread
  obtain ⟨hc, hup⟩ := hready
  have hdoes := does_pixelStream (K := []) (s := { s with busy := true })
    (body := memStream addr.toNat n Config.blitChunk)
    (ts := chunksOf 256 (s.mem.readBytes addr.toNat n)) hup (s16 x) (s16 y)
    (s16 x + s16 w - 1) (s16 y + s16 h - 1) fun hsends t ht hcfg _ _ hmem _ => by
      have hread' : Readable t addr.toNat n := by
        unfold Readable
        rw [hcfg]
        exact hread hsends
      have hstream := does_memStream ht addr.toNat n Config.blitChunk (by decide) hread'
      rw [hmem] at hstream
      exact hstream.does
  simp only [n, ← extent_eq_toNat] at hdoes ⊢
  exact exec_unfilled (i := .blit addr len x y w h) hc rfl hdoes

end Sys2Proof.Machine
end

section
/-! PROOF. INIT: the sequence of its events, and the geometry it leaves in a state whose WIDTH and HEIGHT
follow ROT (spec/44_control.md R318, R319). -/

namespace Sys2Proof.Machine

/-! ## The events of INIT (R318) -/

/-- INIT before its rotation. -/
def initHead : Cmd Unit := do
  initResetSeq
  sendCmd Config.cmdSlpout []
  withState fun s => sendCmd Config.cmdColmod [s.cfg.colmod16bpp]

/-- INIT behind its rotation. -/
def initTail : Cmd Unit := do
  sendCmd Config.cmdInvon []
  sendCmd Config.cmdNoron []
  fillScreen 0
  setBl .on
  sendCmd Config.cmdDispon []
  delayFor Config.tInitSettle

theorem initSeq_eq :
    initSeq = initHead >>= fun _ => withState (fun s => rotationSeq s.rot.toNat) >>= fun _ =>
      initTail := by
  simp only [initHead, bind_assoc]
  rfl

/-- The events of INIT before its rotation. -/
def initHeadEvents (c : Config) : List Event :=
  initResetEvents c c.initReset
    ++ (sendEvents c (some c.cmdSlpout) [] ++ sendEvents c (some c.cmdColmod) [c.colmod16bpp])

/-- The events of INIT behind its rotation. -/
def initTailEvents (s : State) : List Event :=
  sendEvents s.cfg (some s.cfg.cmdInvon) []
    ++ (sendEvents s.cfg (some s.cfg.cmdNoron) []
    ++ (screenEvents s 0
    ++ ((if s.cfg.hasBl then [.bl .on] else [])
    ++ (sendEvents s.cfg (some s.cfg.cmdDispon) [] ++ [.delay s.cfg.tInitSettle]))))

theorem initEvents_eq (s : State) :
    initEvents s = initHeadEvents s.cfg
      ++ (sendEvents s.cfg (some s.cfg.cmdMadctl) [orientation s.cfg s.rot.toNat]
      ++ initTailEvents s) := by
  simp only [initEvents, initHeadEvents, initTailEvents, List.append_assoc]

theorem makes_initHead {s : State} (h : TransportUp s) :
    Makes initHead s (initHeadEvents s.cfg) := by
  have hreset := makes_initResetSeq h
  have h₁ := transportUp_performs h (initResetEvents s.cfg s.cfg.initReset)
  have hslpout := makes_sendCmd h₁ Config.cmdSlpout []
  have h₂ := transportUp_performs h₁ (sendEvents s.cfg (some s.cfg.cmdSlpout) [])
  exact makes_bind hreset (makes_bind hslpout (makes_sendCmd h₂ Config.cmdColmod _))

theorem does_initTail {s t : State} (h : Staged s t) : Does [0] initTail t (initTailEvents s) :=
  does_bind_staged h (h.sendCmd _ _) fun _ h₁ => does_bind_staged h₁ (h₁.sendCmd _ _) fun _ h₂ =>
    does_bind_staged h₂ (h₂.fillScreen 0) fun _ h₃ => does_bind_staged h₃ (h₃.setBl _) fun _ h₄ =>
    does_bind_staged h₄ (h₄.sendCmd _ _) fun _ h₅ => h₅.delayFor _

/-- INIT applies the rotation it holds between its head and its tail. -/
theorem initSeq_ok {s : State} (h : TransportUp s) :
    ∃ f l, FillLeft [0] s f ∧ initSeq s = .ok ()
      (((s.rotated s.rot.toNat).performs (initEvents (s.rotated s.rot.toNat))).working f l) := by
  have hhead := makes_initHead h
  have h₁ := transportUp_performs h (initHeadEvents s.cfg)
  have hrotation : withState (fun t => rotationSeq t.rot.toNat)
      (s.performs (initHeadEvents s.cfg)) = .ok () _ := rotationSeq_eq h₁ s.rot.toNat
  have hlt := rotation_lt s s.rot.toNat
  have hrot : (s.rotated s.rot.toNat).rot.toNat = s.rot.toNat % s.cfg.variant.count := by
    rw [State.rotated, BitVec.toNat_ofNat, Nat.mod_eq_of_lt hlt]
  obtain ⟨f, l, hf, htail⟩ := does_initTail (s := s.rotated s.rot.toNat)
    ⟨transportUp_performs (transportUp_rotated h₁ s.rot.toNat)
      (sendEvents s.cfg (some s.cfg.cmdMadctl)
        [orientation s.cfg (s.rot.toNat % s.cfg.variant.count)]), rfl, rfl, rfl⟩
  refine ⟨f, l, hf, ?_⟩
  rw [initSeq_eq, cmd_bind_ok hhead, cmd_bind_ok hrotation]
  refine htail.trans ?_
  rw [performs_append, ← performs_rotated, performs_append, initEvents_eq, hrot]
  rfl

/-! ## The geometry INIT leaves (R319) -/

/-- WIDTH and HEIGHT follow ROT, which is a rotation there is (R34 to R36). -/
def FollowsRotation (s : State) : Prop :=
  s.rot.toNat < s.cfg.variant.count ∧ s.width = rotatedWidth s.cfg s.rot.toNat ∧
    s.height = rotatedHeight s.cfg s.rot.toNat

/-- Where WIDTH and HEIGHT follow ROT, all three stand. -/
def KeepsRotation (s t : State) : Prop := FollowsRotation s → SameGeometry s t

theorem SameGeometry.follows {s t : State} (h : SameGeometry s t) (hs : FollowsRotation s) :
    FollowsRotation t := by
  obtain ⟨hcfg, hrot, hwidth, hheight⟩ := h
  unfold FollowsRotation
  rwa [hcfg, hrot, hwidth, hheight]

theorem keepsRotation_respects : Respects KeepsRotation where
  refl s _ := sameGeometry_respects.refl s
  trans _ _ _ h h' hs := sameGeometry_respects.trans _ _ _ (h hs) (h' ((h hs).follows hs))
  emit s e _ := sameGeometry_respects.emit s e
  xferDraw s _ := sameGeometry_respects.xferDraw s
  line s r _ := sameGeometry_respects.line s r

/-- The rotation that stands, applied again. -/
theorem after_rotationSeq_standing :
    After KeepsRotation (fun _ => True) (withState fun s => rotationSeq s.rot.toNat) := by
  have hstands : ∀ {s t : State}, HoldsRotation s.cfg (s.rot.toNat % s.cfg.variant.count) t →
      KeepsRotation s t := by
    intro s t ht hs
    obtain ⟨hlt, hwidth, hheight⟩ := hs
    obtain ⟨hcfg, hrot, hwidth', hheight'⟩ := ht
    rw [Nat.mod_eq_of_lt hlt] at hrot hwidth' hheight'
    exact ⟨hcfg, by rw [hrot, BitVec.ofNat_toNat, BitVec.setWidth_eq], hwidth'.trans hwidth.symm,
      hheight'.trans hheight.symm⟩
  intro s
  have hrun := rotationSeq_after s.rot.toNat s
  rw [withState_apply]
  revert hrun
  cases rotationSeq s.rot.toNat s with
  | ok a t => exact hstands
  | error f t => exact fun h => ⟨hstands h.1, trivial⟩

theorem after_initSeq_standing : After KeepsRotation (fun _ => True) initSeq := by
  have hR := keepsRotation_respects
  have hF : RespectsFill KeepsRotation := fun _ _ _ => ⟨rfl, rfl, rfl, rfl⟩
  have ht : ∀ n, (fun _ : Raised => True) (.transportError n) := fun _ => trivial
  exact after_bind hR (after_initResetSeq hR ht) fun _ =>
    after_bind hR (after_sendCmd hR ht _ _) fun _ =>
    after_bind hR (after_withState fun _ => after_sendCmd hR ht _ _) fun _ =>
    after_bind hR after_rotationSeq_standing fun _ =>
    after_bind hR (after_sendCmd hR ht _ _) fun _ =>
    after_bind hR (after_sendCmd hR ht _ _) fun _ =>
    after_bind hR (after_fillScreen hR hF ht _) fun _ =>
    after_bind hR (after_setBl hR _) fun _ => after_bind hR (after_sendCmd hR ht _ _) fun _ =>
    after_delayFor hR _

theorem exec_init_keeps_geometry {s t : State} (hs : FollowsRotation s)
    (h : exec .init s = .next t) : t.rot = s.rot ∧ t.width = s.width ∧ t.height = s.height := by
  have hbusy : FollowsRotation { s with busy := true } := hs
  obtain ⟨u, code, rfl, ⟨rfl, -⟩ | ⟨rfl, -⟩ | ⟨e, -⟩ | ⟨f, e, -⟩⟩ := exec_cases h
  · exact ⟨rfl, rfl, rfl⟩
  · exact ⟨rfl, rfl, rfl⟩
  · exact (after_initSeq_standing.ok e hbusy).2
  · exact ((after_initSeq_standing.error e).1 hbusy).2

theorem variant_count_le (v : Variant) : v.count ≤ 8 := by
  cases v <;> decide

theorem State.Inv.followsRotation {s : State} (h : s.Inv) : FollowsRotation s := by
  have hlt := Nat.lt_of_lt_of_le h.rotation (variant_count_le _)
  exact ⟨h.rotation, by rw [h.widthFollows, rotatedWidth_eq _ hlt],
    by rw [h.heightFollows, rotatedHeight_eq _ hlt]⟩

/-- Settles O56: the sequence in the closed form of its events, and the rotation it applies again. -/
theorem initPowersOn : Obligations.InitPowersOn := by
  unfold Obligations.InitPowersOn
  constructor
  · intro s hready
    obtain ⟨hc, hup⟩ := hready
    obtain ⟨f, l, hf, hrun⟩ := initSeq_ok (s := { s with busy := true }) hup
    have hbody : commandBody .init { s with busy := true } = .ok () _ := hrun
    exact ⟨f, fillLeft_singleton hf, by rw [exec_of_ok hc rfl hbody]; rfl⟩
  · intro s t hinv h
    exact exec_init_keeps_geometry hinv.followsRotation h

end Sys2Proof.Machine
end

section
/-! PROOF. The bit reader, and the glyph and bitmap commands when nothing fails
(spec/43_glyph_bitmap.md R260 to R304). -/

namespace Sys2Proof.Machine

/-! ## The bit reader (R260, R264) -/

/-- The top j of a value's k bits, one more bit read. -/
theorem div_two_pow_pred (v n : Nat) :
    v / 2 ^ n = 2 * (v / 2 ^ (n + 1)) + (v.testBit n).toNat := by
  rw [Nat.testBit_eq_decide_div_mod_eq, Nat.pow_succ, ← Nat.div_div_eq_div_mul]
  by_cases hbit : v / 2 ^ n % 2 = 1 <;> simp only [hbit, decide_true, decide_false,
    Bool.toNat_true, Bool.toNat_false] <;> omega

/-- Bits that stand most significant first make the value they are the bits of. -/
theorem foldl_bits_eq {b : Nat → Bool} {v k : Nat} (hv : v < 2 ^ k)
    (hb : ∀ j < k, b j = v.testBit (k - 1 - j)) {n : Nat} (hn : n ≤ k) :
    (List.range n).foldl (fun acc i => 2 * acc + (b i).toNat) 0 = v / 2 ^ (k - n) := by
  induction n with
  | zero => rw [Nat.sub_zero, Nat.div_eq_of_lt hv, List.range_zero, List.foldl_nil]
  | succ n ih =>
    rw [List.range_succ, List.foldl_append, ih (by omega), List.foldl_cons, List.foldl_nil,
      hb n hn, show k - n = k - 1 - n + 1 by omega, show k - (n + 1) = k - 1 - n by omega,
      ← div_two_pow_pred]

theorem sampleAt_eq {m : Memory} {base p k v : Nat} (hv : v < 2 ^ k)
    (hb : ∀ j < k, streamBit m base (p + j) = v.testBit (k - 1 - j)) :
    sampleAt m base p k = v := by
  have hbits := foldl_bits_eq (b := fun j => streamBit m base (p + j)) hv hb (Nat.le_refl k)
  rw [Nat.sub_self, Nat.pow_zero, Nat.div_one] at hbits
  exact hbits

/-- Packed samples are read back in order, from the cursor on. -/
theorem readSamples_ok {k : Nat} {vs : List Nat} {p : Nat} {s : State}
    (hv : ∀ v ∈ vs, v < 2 ^ k)
    (hb : ∀ i v, vs[i]? = some v → ∀ j < k,
      streamBit s.mem s.bitBase.toNat (p + i * k + j) = v.testBit (k - 1 - j))
    (hfit : s.bitBase.toNat * 8 + p + vs.length * k ≤ s.cfg.resMemSize * 8) :
    readSamples k vs.length (s.atBit p) = .ok vs (s.atBit (p + vs.length * k)) := by
  induction vs generalizing p with
  | nil => simp [readSamples]
  | cons v vs ih =>
    have hlen : (v :: vs).length * k = k + vs.length * k := by
      rw [List.length_cons, Nat.succ_mul, Nat.add_comm]
    rw [hlen] at hfit ⊢
    have hfirst : sampleAt s.mem s.bitBase.toNat p k = v := by
      refine sampleAt_eq (hv v List.mem_cons_self) fun j hj => ?_
      have := hb 0 v rfl j hj
      rwa [Nat.zero_mul, Nat.add_zero] at this
    have hread := bitRead_ok (s := s) (p := p) (k := k) (.inr (by omega))
    rw [hfirst] at hread
    have hrest := ih (p := p + k) (fun u hu => hv u (List.mem_cons_of_mem v hu))
      (fun i u hu j hj => by
        have := hb (i + 1) u hu j hj
        rwa [Nat.succ_mul, Nat.add_comm (i * k) k, ← Nat.add_assoc] at this) (by omega)
    rw [← Nat.add_assoc]
    exact (cmd_bind_ok hread).trans (cmd_bind_ok hrest)

/-- The cursor stands at its own position. -/
theorem atBit_bitPos {s : State} (h : s.bitOver = none) : s.atBit s.bitPos.toNat = s := by
  have hlt : s.bitPos.toNat < 2 ^ 35 := s.bitPos.isLt
  rw [State.atBit, if_pos hlt, if_pos hlt, BitVec.ofNat_toNat, BitVec.setWidth_eq, ← h]

/-- Settles O45: each sample is the number its bits spell. -/
theorem bitReaderRoundTrip : Obligations.BitReaderRoundTrip := by
  unfold Obligations.BitReaderRoundTrip
  intro k p vs s _ _ hp hover hv hb hfit
  have hrun := readSamples_ok hv hb hfit
  rw [← hp, atBit_bitPos hover, hp] at hrun
  refine ⟨hrun, fun hlt => hrun.trans ?_⟩
  rw [State.atBit, if_pos hlt, if_pos hlt]

/-! ## TEXT (R270 to R272) -/

theorem glyphWidthOk_mod {w : Byte} (h : glyphWidthOk w = true) : w.toNat % 8 = 0 :=
  (of_decide_eq_true h).2

/-- Settles O46: the loop of TEXT, and no command but WRITE and BITMAP moves the cursor. -/
theorem textDraws : Obligations.TextDraws := by
  unfold Obligations.TextDraws
  intro font w h first last str n x y fg bg s a chs hready hw hread halloc
  obtain ⟨hc, hup⟩ := hready
  obtain ⟨hstr, hglyphs⟩ := hread
  obtain ⟨v, hv, hrun⟩ := gives_textLoop a n.toNat 0 (s16 x) (s := { s with busy := true }) hup
    (glyphWidthOk_mod hw) hstr hglyphs halloc
  rw [textEvents_congr (s := s) (t := { s with busy := true }) rfl rfl rfl rfl] at hrun
  have hbody : commandBody (.text font w h first last str n x y fg bg) { s with busy := true } =
    .ok () _ := hrun
  have hexec := exec_of_ok hc (i := .text font w h first last str n x y fg bg) hw hbody
  have hcursor := exec_keeps_cursor rfl hexec
  obtain ⟨line, sc, held, base, pos, pos', alloc⟩ := v
  simp only [Prod.mk.injEq] at hcursor
  obtain ⟨hbase, hpos, -⟩ := hcursor
  change base = s.bitBase at hbase
  change pos = s.bitPos at hpos
  subst hbase hpos hv
  exact ⟨sc, hexec⟩

/-! ## WRITE and WRITE_LEN (R279 to R290) -/

/-- Settles O47: the loop of WRITE, then RESULT and the free values of the cursor. -/
theorem writeDraws : Obligations.WriteDraws := by
  unfold Obligations.WriteDraws
  intro k ow map mlen widths offsets bits hgt str n x y fg bg s a plan hready hk how hread halloc
  obtain ⟨hc, hup⟩ := hready
  have hplan := writePlan_congr (s := s) (t := { s with busy := true }) rfl rfl rfl rfl a
  have hread' := writeReadable_congr (s := s) (t := { s with busy := true }) rfl rfl rfl a
    n.toNat 0 (s16 x) hread
  obtain ⟨v, hv, hrun⟩ := gives_writeLoop a n.toNat 0 (s16 x) 0 (s := { s with busy := true }) hup
    hread' (by rw [hplan]; exact halloc)
  rw [hplan] at hv hrun
  have hbody : commandBody (.write k ow map mlen widths offsets bits hgt str n x y fg bg)
    { s with busy := true } = .ok () _ := cmd_bind_ok hrun
  have hwf : (Instr.write k ow map mlen widths offsets bits hgt str n x y fg bg).wf = true := by
    rw [Instr.wf, hk, how, Bool.and_self]
  have hexec := exec_of_ok hc hwf hbody
  rw [Nat.zero_add] at hexec
  obtain ⟨line, sc, held, base, pos, pos', alloc⟩ := v
  subst hv
  exact ⟨_, _, sc, hexec⟩

/-- Settles O48: the loop of WRITE_LEN, which changes nothing, then RESULT. -/
theorem writeLenMeasures : Obligations.WriteLenMeasures := by
  unfold Obligations.WriteLenMeasures
  intro map mlen widths str n s chs hc hread hchars
  have hrun := measureLoop_ok map.toNat mlen.toNat widths.toNat str.toNat n.toNat 0 0
    (s := { s with busy := true }) hread hchars
  have hbody : commandBody (.writeLen map mlen widths str n) { s with busy := true } = .ok () _ :=
    cmd_bind_ok hrun
  have hexec := exec_of_ok hc rfl hbody
  rw [Nat.zero_add] at hexec
  rw [hexec, State.completed, performs_nil]
  rfl

end Sys2Proof.Machine
end

section
/-! PROOF. BITMAP, and the acquisitions that fail: where a sample, a palette entry or the scratch is not
to be had, the command ends at that point (spec/43_glyph_bitmap.md R262, R300 to R305,
spec/60_exceptions.md R354, R356). -/

namespace Sys2Proof.Machine

/-! ## Reads past the end of resource memory (R71, R354) -/

theorem memRead8_fault {s : State} {addr : Nat} (h : s.cfg.resMemSize ≤ addr) :
    memRead8 addr s = .error (.resourceBounds addr) s :=
  cmd_bind_error (memRead_fault Nat.one_ne_zero (Nat.lt_succ_of_le h))

/-- A sample that is not all inside resource memory: the read of one of its bits faults. -/
theorem bitReadFrom_fault (v k p : Nat) {s : State} (hk : k ≠ 0)
    (h : s.cfg.resMemSize * 8 < s.bitBase.toNat * 8 + p + k) :
    ∃ addr q, bitReadFrom v k (s.atBit p) = .error (.resourceBounds addr) (s.atBit q) := by
  induction k generalizing v p with
  | zero => exact absurd rfl hk
  | succ k ih =>
    by_cases hr : s.bitBase.toNat + p / 8 < s.cfg.resMemSize
    · have hread := memRead8_ok (s := s.atBit p) (addr := s.bitBase.toNat + p / 8) hr
      obtain ⟨addr, q, hrest⟩ := ih
        (2 * v + ((s.mem.read (s.bitBase.toNat + p / 8)).getLsbD (7 - p % 8)).toNat) (p + 1)
        (by omega) (by omega)
      have hstep : update (fun t => t.atBit (t.bitIndex + 1)) (s.atBit p)
          = .ok () (s.atBit (p + 1)) := by
        rw [update_apply, State_atBit_bitIndex, State_atBit_atBit]
      refine ⟨addr, q, ?_⟩
      rw [bitReadFrom, withState_apply, State_atBit_bitIndex, State_atBit_bitBase,
        cmd_bind_ok hread, cmd_bind_ok hstep]
      exact hrest
    · refine ⟨s.bitBase.toNat + p / 8, p, ?_⟩
      rw [bitReadFrom, withState_apply, State_atBit_bitIndex, State_atBit_bitBase]
      exact cmd_bind_error (memRead8_fault (s := s.atBit p) (Nat.le_of_not_lt hr))

/-! ## The pixels of a bitmap (R300, R303) -/

/-- The sample at bit p, its index and its palette entry can be read. -/
def PixelReadable (s : State) (pal plen k p : Nat) : Prop :=
  s.bitBase.toNat * 8 + p + k ≤ s.cfg.resMemSize * 8 ∧
    sampleAt s.mem s.bitBase.toNat p k < plen ∧
    Readable s (pal + 2 * sampleAt s.mem s.bitBase.toNat p k) 2

theorem bitmapReadable_of_pixels {s : State} {bits : Word} {pal plen k start npx : Nat}
    (h : ∀ i < npx, PixelReadable { s with bitBase := bits } pal plen k (start + i * k)) :
    BitmapReadable s bits.toNat pal plen k start npx := by
  cases npx with
  | zero => exact .inl rfl
  | succ n =>
    obtain ⟨hlast, -⟩ := h n (Nat.lt_succ_self n)
    refine .inr ⟨?_, fun i hi => (h i hi).2⟩
    have hend : start + n * k + k = start + (n + 1) * k := by rw [Nat.succ_mul, Nat.add_assoc]
    rw [Nat.add_assoc, ← hend, ← Nat.add_assoc, ← Nat.add_assoc]
    rwa [← Nat.add_assoc] at hlast

theorem palettePixel_fault {s : State} {pal plen k p : Nat} (hk : k ≠ 0)
    (h : ¬ PixelReadable s pal plen k p) :
    ∃ addr q, palettePixel k pal plen (s.atBit p) = .error (.resourceBounds addr) (s.atBit q) := by
  by_cases hbits : s.bitBase.toNat * 8 + p + k ≤ s.cfg.resMemSize * 8
  · have hread := bitRead_ok (s := s) (p := p) (k := k) (.inr hbits)
    generalize hidx : sampleAt s.mem s.bitBase.toNat p k = idx at hread
    by_cases hplen : idx < plen
    · have hentry : s.cfg.resMemSize < pal + 2 * idx + 2 := by
        by_contra hle
        exact h ⟨hbits, hidx ▸ hplen, .inr (hidx ▸ by omega)⟩
      rw [palettePixel, cmd_bind_ok hread, if_neg (by omega)]
      by_cases hlow : pal + 2 * idx < s.cfg.resMemSize
      · have hhigh := memRead8_fault (s := s.atBit (p + k)) (addr := pal + 2 * idx + 1)
          (show s.cfg.resMemSize ≤ pal + 2 * idx + 1 by omega)
        exact ⟨_, p + k, (cmd_bind_ok (memRead8_ok (s := s.atBit (p + k)) hlow)).trans
          (cmd_bind_error hhigh)⟩
      · exact ⟨_, p + k, cmd_bind_error (memRead8_fault (s := s.atBit (p + k))
          (Nat.le_of_not_lt hlow))⟩
    · refine ⟨pal + 2 * idx, p + k, ?_⟩
      rw [palettePixel, cmd_bind_ok hread, if_pos (by omega)]
      rfl
  · obtain ⟨addr, q, hfault⟩ := bitReadFrom_fault 0 k p hk (Nat.lt_of_not_le hbits)
    exact ⟨addr, q, cmd_bind_error hfault⟩

/-- The first pixel that cannot be read ends the loop. -/
theorem collectPixels_fault {s : State} {pal plen k n p : Nat} (a : Nat) (hk : k ≠ 0)
    (h : ¬ ∀ i < n, PixelReadable s pal plen k (p + i * k)) :
    ∃ addr q, collectBytes n a (fun _ => palettePixel k pal plen) (s.atBit p) =
      .error (.resourceBounds addr) (s.atBit q) := by
  induction n generalizing a p with
  | zero => exact absurd (fun _ hi => absurd hi (Nat.not_lt_zero _)) h
  | succ n ih =>
    by_cases hp : PixelReadable s pal plen k p
    · obtain ⟨hbits, hplen, hentry⟩ := hp
      have hpixel := palettePixel_ok (.inr hbits) rfl hplen hentry
      obtain ⟨addr, q, hrest⟩ := ih (a := a + 1) (p := p + k) fun hall => h fun i hi => by
        cases i with
        | zero => simpa using ⟨hbits, hplen, hentry⟩
        | succ i =>
          rw [Nat.succ_mul, Nat.add_comm (i * k) k, ← Nat.add_assoc]
          exact hall i (Nat.lt_of_succ_lt_succ hi)
      exact ⟨addr, q, (cmd_bind_ok hpixel).trans (cmd_bind_error hrest)⟩
    · obtain ⟨addr, q, hfault⟩ := palettePixel_fault hk hp
      exact ⟨addr, q, cmd_bind_error hfault⟩

/-! ## Uses of the scratch (R262) -/

theorem withScratch_ok {α : Type} {s : State} {n : Nat} (h : ScratchFor s n) (ha : AllocUp s 1) :
    ∃ b, ∀ body : Cmd α, withScratch n body s = releasing body (s.holding n b) := by
  obtain ⟨b, e⟩ := acquireScratch_ok h ha
  exact ⟨b, fun body => cmd_bind_ok e⟩

theorem releasing_error {α : Type} {body : Cmd α} {s t : State} {f : Raised}
    (h : body s = .error f t) : releasing body s = .error f t.releaseScratch := by
  rw [releasing, h]

/-- More bytes than a resident buffer has. -/
theorem withScratch_resident_fault {α : Type} {body : Cmd α} {s : State} {n : Nat} {cap : Int}
    (hs : s.cfg.scratch = .resident cap) (h : cap < (n : Nat)) :
    withScratch n body s = .error (.resourceError n) s :=
  cmd_bind_error (by simp only [acquireScratch, hs]; rw [if_pos h])

/-- A draw that fails. -/
theorem withScratch_transient_fault {α : Type} {body : Cmd α} {s : State} {n : Nat}
    {rest : List Bool} (hs : s.cfg.scratch = .transient) (hd : s.allocDraws = false :: rest) :
    withScratch n body s = .error (.resourceError n) { s with allocDraws := rest } :=
  cmd_bind_error (by simp [acquireScratch, hs, State.nextAllocOk, hd])

/-! ## BITMAP (R300 to R305) -/

theorem sampleWidthOk_ne_zero {k : Byte} (h : sampleWidthOk k = true) : k.toNat ≠ 0 :=
  Nat.one_le_iff_ne_zero.mp (of_decide_eq_true h).1

theorem half_eq_zero_iff (h : Half) : h = 0 ↔ h.toNat = 0 :=
  (BitVec.toNat_inj (y := 0#16)).symm

theorem frame_in_range {fcount fidx : Half} (h : fcount = 0 ∨ fidx.toNat < fcount.toNat) :
    fcount.toNat = 0 ∨ fidx.toNat < fcount.toNat :=
  h.imp_left (half_eq_zero_iff fcount).mp

/-- Behind the frame check BITMAP uses the scratch, and ends where that use ends with a fault. -/
theorem bitmapOp_error {k : Nat} {bits : Word} {pal plen : Nat} {w h : Int} {fcount fidx : Nat}
    {x y : Int} {s t : State} {f : Raised} (hframe : fcount = 0 ∨ fidx < fcount)
    (e : withScratch (extent w * extent h * 2) (do
        seedCursor bits (frameStart fcount fidx (extent w * extent h) k)
        let pix ← collectBytes (extent w * extent h) 0 fun _ => palettePixel k pal plen
        blitDecoded pix x y w h) s = .error f t) :
    bitmapOp k bits pal plen w h fcount fidx x y s = .error f t := by
  have hstart : (if fcount ≠ 0 then fidx * (extent w * extent h) * k else 0)
      = frameStart fcount fidx (extent w * extent h) k := by
    simp only [frameStart, ne_eq, ite_not]
  refine (cmd_bind_ok (frameCheck_ok hframe s)).trans ?_
  simp only [hstart]
  exact cmd_bind_error e

/-- BITMAP whose acquisition succeeds and whose pixels cannot all be read. -/
theorem bitmapOp_fault {k : Nat} {bits : Word} {pal plen : Nat} {w h : Int} {fcount fidx : Nat}
    {x y : Int} {s : State} (hk : k ≠ 0) (hframe : fcount = 0 ∨ fidx < fcount)
    (hs : ScratchFor s (extent w * extent h * 2)) (ha : AllocUp s 1)
    (hr : ¬ BitmapReadable s bits.toNat pal plen k
      (frameStart fcount fidx (extent w * extent h) k) (extent w * extent h)) :
    ∃ addr b q, bitmapOp k bits pal plen w h fcount fidx x y s = .error (.resourceBounds addr)
      ((s.holding (extent w * extent h * 2) b).seeded bits q).releaseScratch := by
  obtain ⟨b, hscratch⟩ := withScratch_ok (α := Bool) hs ha
  obtain ⟨addr, q, hloop⟩ := collectPixels_fault
    (s := { s.holding (extent w * extent h * 2) b with bitBase := bits }) 0 hk
    fun hall => hr (bitmapReadable_of_pixels hall)
  have hseed : seedCursor bits (frameStart fcount fidx (extent w * extent h) k)
      (s.holding (extent w * extent h * 2) b) = .ok () _ := rfl
  refine ⟨addr, b, q, bitmapOp_error hframe ((hscratch _).trans (releasing_error ?_))⟩
  exact (cmd_bind_ok hseed).trans (cmd_bind_error hloop)

/-- Settles O49: the whole decode, or the first pixel of it that cannot be read. -/
theorem bitmapDraws : Obligations.BitmapDraws := by
  unfold Obligations.BitmapDraws
  intro k bits pal plen w h fcount fidx x y s npx start hk hframe hscratch halloc
  have hwf : (Instr.bitmap k bits pal plen w h fcount fidx x y).wf = true := hk
  simp only [npx, start, ← extent_eq_toNat] at hscratch ⊢
  constructor
  · intro hready hread
    obtain ⟨hc, hup⟩ := hready
    obtain ⟨v, hv, hrun⟩ := bitmapOp_ok (s := { s with busy := true }) hup k.toNat bits pal.toNat
      plen.toNat (s16 w) (s16 h) fcount.toNat fidx.toNat (s16 x) (s16 y) (frame_in_range hframe)
      hscratch halloc hread
    have hbody : commandBody (.bitmap k bits pal plen w h fcount fidx x y) { s with busy := true } =
      .ok () _ := hrun
    have hexec := exec_of_ok hc hwf hbody
    obtain ⟨line, sc, held, base, pos, pos', alloc⟩ := v
    subst hv
    exact ⟨_, _, sc, hexec⟩
  · intro hc hread
    obtain ⟨addr, b, q, hrun⟩ := bitmapOp_fault (s := { s with busy := true }) (x := s16 x)
      (y := s16 y) (sampleWidthOk_ne_zero hk) (frame_in_range hframe) hscratch halloc hread
    have hbody : commandBody (.bitmap k bits pal plen w h fcount fidx x y) { s with busy := true } =
      .error _ _ := hrun
    exact ⟨_, _, _, exec_of_raised hc hwf hbody⟩

/-! ## RESOURCE_ERROR (R262, R356) -/

/-- Characters outside FIRST..LAST draw nothing and move nothing. -/
theorem textLoop_skip {a : TextArgs} {m : Nat} (n i : Nat) (x : Int) {s : State}
    (hr : Readable s (a.str + i) m)
    (hout : (s.mem.readBytes (a.str + i) m).countP (inRange a) = 0) :
    textLoop a (m + n) i x s = textLoop a n (i + m) x s := by
  induction m generalizing i with
  | zero => rw [Nat.zero_add, Nat.add_zero]
  | succ m ih =>
    have hr := hr.resolve_left (Nat.succ_ne_zero m)
    rw [Memory_readBytes_succ, List.countP_cons, Nat.add_assoc] at hout
    obtain ⟨hrest, hfirst⟩ := Nat.add_eq_zero_iff.mp hout
    have hchar : ¬ (a.first ≤ (s.mem.read (a.str + i)).toNat ∧
        (s.mem.read (a.str + i)).toNat ≤ a.last) := by
      intro hin
      simp [inRange, hin] at hfirst
    rw [show m + 1 + n = m + n + 1 by omega, textLoop,
      cmd_bind_ok (memRead8_ok (show a.str + i < s.cfg.resMemSize by omega)), if_neg hchar,
      ih (i + 1) (Or.inr (by omega)) hrest, show i + 1 + m = i + (m + 1) by omega]

/-- A character in range whose glyph ends with a fault ends the loop. -/
theorem textLoop_error {a : TextArgs} {n i : Nat} {x : Int} {s t : State} {f : Raised}
    (hr : a.str + i < s.cfg.resMemSize) (hin : inRange a (s.mem.read (a.str + i)) = true)
    (e : ∀ body : Cmd Bool, withScratch (a.w * a.h * 2) body s = .error f t) :
    textLoop a (n + 1) i x s = .error f t := by
  have hchar : a.first ≤ (s.mem.read (a.str + i)).toNat ∧
      (s.mem.read (a.str + i)).toNat ≤ a.last := by simpa [inRange] using hin
  rw [textLoop, cmd_bind_ok (memRead8_ok hr), if_pos hchar]
  exact cmd_bind_error (e _)

/-- Characters that are not in the map draw nothing and move nothing. -/
theorem writeLoop_skip {a : WriteArgs} {m : Nat} (n i : Nat) (x : Int) (total : Nat) {s : State}
    (hr : Readable s (a.str + i) m)
    (hl : ∀ j < m, LookupReadable s a.map a.mlen (s.mem.read (a.str + (i + j))))
    (hout : ∀ j < m, mapIndex s.mem a.map a.mlen (s.mem.read (a.str + (i + j))) = none) :
    writeLoop a (m + n) i x total s = writeLoop a n (i + m) x total s := by
  induction m generalizing i with
  | zero => rw [Nat.zero_add, Nat.add_zero]
  | succ m ih =>
    have hr := hr.resolve_left (Nat.succ_ne_zero m)
    have hshift : ∀ j, i + 1 + j = i + (j + 1) := fun j => by omega
    have hlook := lookup_ok _ (hl 0 (Nat.succ_pos m))
    rw [hout 0 (Nat.succ_pos m), Nat.add_zero] at hlook
    rw [show m + 1 + n = m + n + 1 by omega, writeLoop,
      cmd_bind_ok (memRead8_ok (show a.str + i < s.cfg.resMemSize by omega)), cmd_bind_ok hlook,
      ← hshift m]
    refine ih (i + 1) (Or.inr (by omega)) (fun j hj => ?_) fun j hj => ?_
    · rw [hshift]
      exact hl (j + 1) (Nat.succ_lt_succ hj)
    · rw [hshift]
      exact hout (j + 1) (Nat.succ_lt_succ hj)

/-- A mapped character whose glyph ends with a fault at its acquisition ends the loop. -/
theorem writeLoop_error {a : WriteArgs} {n i j : Nat} {x : Int} {total : Nat} {s t : State}
    {f : Raised} (hr : a.str + i < s.cfg.resMemSize)
    (hl : LookupReadable s a.map a.mlen (s.mem.read (a.str + i)))
    (hj : mapIndex s.mem a.map a.mlen (s.mem.read (a.str + i)) = some j)
    (hw : Readable s (a.widths + j) 1) (ho : Readable s (a.offsets + j * a.ow) a.ow)
    (e : ∀ body : Cmd (Nat × Bool),
      withScratch (glyphWidth s.mem a.widths j * a.hgt * 2) body s = .error f t) :
    writeLoop a (n + 1) i x total s = .error f t := by
  have hlook := lookup_ok _ hl
  rw [hj] at hlook
  have hwidth := memRead8_ok (show a.widths + j < s.cfg.resMemSize from hw.resolve_left (by decide))
  rw [writeLoop, cmd_bind_ok (memRead8_ok hr), cmd_bind_ok hlook]
  refine cmd_bind_error ?_
  rw [writeGlyph, cmd_bind_ok hwidth, cmd_bind_ok (readOffset_ok ho)]
  exact e _

/-- The first k draws of a transient scratch succeed and the next one fails. -/
theorem allocUp_of_replicate {s : State} {k : Nat} {rest : List Bool}
    (h : s.allocDraws = List.replicate k true ++ false :: rest) : AllocUp s k := by
  intro _ b hb
  rw [h, List.take_left' List.length_replicate] at hb
  exact List.eq_of_mem_replicate hb

theorem allocLeft_of_replicate {s : State} {k : Nat} {rest : List Bool}
    (hs : s.cfg.scratch = .transient)
    (h : s.allocDraws = List.replicate k true ++ false :: rest) :
    allocLeft s k = false :: rest := by
  rw [allocLeft, hs, h]
  exact List.drop_left' List.length_replicate

theorem scratchFor_transient {s : State} (hs : s.cfg.scratch = .transient) (n : Nat) :
    ScratchFor s n := by
  intro cap hcap
  cases hs.symm.trans hcap

section
variable {k : Byte} {bits pal plen : Word} {w h fcount fidx x y : Half} {s : State}

/-- BITMAP whose acquisition fails. -/
theorem exec_bitmap_unacquired {t : State} {n : Nat} (hc : configLegal s.cfg = true)
    (hk : sampleWidthOk k = true) (hframe : fcount = 0 ∨ fidx.toNat < fcount.toNat)
    (e : ∀ body : Cmd Bool, withScratch ((s16 w).toNat * (s16 h).toNat * 2) body
      { s with busy := true } = .error (.resourceError n) t) :
    exec (.bitmap k bits pal plen w h fcount fidx x y) s = .next (t.ended 7 .resourceError) := by
  simp only [← extent_eq_toNat] at e
  exact exec_of_raised (i := .bitmap k bits pal plen w h fcount fidx x y) hc hk
    (bitmapOp_error (frame_in_range hframe) (e _))

theorem exec_bitmap_resident {cap : Int} (hc : configLegal s.cfg = true)
    (hk : sampleWidthOk k = true) (hframe : fcount = 0 ∨ fidx.toNat < fcount.toNat)
    (hs : s.cfg.scratch = .resident cap) (hcap : cap < ((s16 w).toNat * (s16 h).toNat * 2 : Nat)) :
    exec (.bitmap k bits pal plen w h fcount fidx x y) s =
      .next (s.ended 7 .resourceError) :=
  exec_bitmap_unacquired (t := { s with busy := true }) hc hk hframe fun _ =>
    withScratch_resident_fault (s := { s with busy := true }) hs hcap

theorem exec_bitmap_transient {rest : List Bool} (hc : configLegal s.cfg = true)
    (hk : sampleWidthOk k = true) (hframe : fcount = 0 ∨ fidx.toNat < fcount.toNat)
    (hs : s.cfg.scratch = .transient) (hd : s.allocDraws = false :: rest) :
    exec (.bitmap k bits pal plen w h fcount fidx x y) s =
      .next (State.ended { s with allocDraws := rest } 7 .resourceError) :=
  exec_bitmap_unacquired (t := { s with busy := true, allocDraws := rest }) hc hk hframe fun _ =>
    withScratch_transient_fault (s := { s with busy := true }) hs hd

end

section
variable {font : Word} {w h first last : Byte} {str n : Word} {x y fg bg : Half} {s : State}
  {m : Nat}

/-- The operands of a TEXT that no character changes. -/
def textArgs (font : Word) (w h first last : Byte) (str : Word) (y fg bg : Half) : TextArgs :=
  ⟨font.toNat, w.toNat, h.toNat, first.toNat, last.toNat, str.toNat, s16 y, fg, bg⟩

/-- TEXT of a glyph larger than the resident scratch, the first in range. -/
theorem exec_text_resident {cap : Int} (hc : configLegal s.cfg = true)
    (hw : glyphWidthOk w = true) (hm : m < n.toNat) (hr : Readable s str.toNat (m + 1))
    (hin : inRange (textArgs font w h first last str y fg bg) (s.mem.read (str.toNat + m)) = true)
    (hs : s.cfg.scratch = .resident cap) (hcap : cap < (w.toNat * h.toNat * 2 : Nat))
    (hbefore : (s.mem.readBytes str.toNat m).countP
      (inRange (textArgs font w h first last str y fg bg)) = 0) :
    exec (.text font w h first last str n x y fg bg) s = .next (s.ended 7 .resourceError) := by
  obtain ⟨k, hk⟩ := Nat.exists_eq_add_of_lt hm
  have hr := hr.resolve_left (Nat.succ_ne_zero m)
  have hskip := textLoop_skip (a := textArgs font w h first last str y fg bg) (m := m)
    (s := { s with busy := true }) (k + 1) 0 (s16 x)
    (.inr (Nat.le_of_succ_le hr)) hbefore
  have herror := textLoop_error (a := textArgs font w h first last str y fg bg) (n := k)
    (i := m) (x := s16 x) (s := { s with busy := true }) (Nat.lt_of_succ_le hr) hin
    fun body => withScratch_resident_fault hs hcap
  rw [Nat.zero_add, ← Nat.add_assoc, ← hk] at hskip
  exact exec_of_raised hc (i := .text font w h first last str n x y fg bg) hw (hskip.trans herror)

/-- TEXT of a glyph whose draw fails, behind the glyphs before it. -/
theorem exec_text_transient {rest : List Bool} (hc : configLegal s.cfg = true)
    (hw : glyphWidthOk w = true) (hm : m < n.toNat) (hr : Readable s str.toNat (m + 1))
    (hin : inRange (textArgs font w h first last str y fg bg) (s.mem.read (str.toNat + m)) = true)
    (hs : s.cfg.scratch = .transient) (hup : TransportUp s)
    (hglyphs : ∀ ch ∈ s.mem.readBytes str.toNat m,
      inRange (textArgs font w h first last str y fg bg) ch = true →
      Readable s (glyphAddress (textArgs font w h first last str y fg bg) ch.toNat)
        (h.toNat * (w.toNat / 8)))
    (hd : s.allocDraws = List.replicate ((s.mem.readBytes str.toNat m).countP
      (inRange (textArgs font w h first last str y fg bg))) true ++ false :: rest) :
    ∃ sc, exec (.text font w h first last str n x y fg bg) s = .next (State.ended
      (State.performs { s with allocDraws := rest, scratch := sc }
        (textEvents s (textArgs font w h first last str y fg bg) (s.mem.readBytes str.toNat m)
          (s16 x))) 7 .resourceError) := by
  obtain ⟨k, hk⟩ := Nat.exists_eq_add_of_lt hm
  have hr := hr.resolve_left (Nat.succ_ne_zero m)
  obtain ⟨v, hv, hrun⟩ := textLoop_prefix (textArgs font w h first last str y fg bg) m (k + 1) 0
    (s16 x) (s := { s with busy := true }) hup (glyphWidthOk_mod hw)
    (.inr (Nat.le_of_succ_le hr))
    (fun ch hch hch' => ⟨hglyphs ch hch hch', scratchFor_transient hs _⟩)
    (allocUp_of_replicate hd)
  have hleft : v.alloc = false :: rest := hv.trans (allocLeft_of_replicate hs hd)
  rw [textEvents_congr (s := s) (t := { s with busy := true }) rfl rfl rfl rfl,
    Nat.zero_add, ← Nat.add_assoc, ← hk] at hrun
  have herror := textLoop_error (a := textArgs font w h first last str y fg bg) (n := k)
    (i := m) (x := s16 x + (textArgs font w h first last str y fg bg).w *
      ((s.mem.readBytes str.toNat m).countP
        (inRange (textArgs font w h first last str y fg bg)) : Nat))
    (s := (State.performs { s with busy := true } (textEvents s
      (textArgs font w h first last str y fg bg) (s.mem.readBytes str.toNat m) (s16 x))).worked v)
    (Nat.lt_of_succ_le hr) hin fun body => withScratch_transient_fault hs hleft
  have hexec := exec_of_raised hc (i := .text font w h first last str n x y fg bg) hw
    (hrun.trans herror)
  have hcursor := exec_keeps_cursor rfl hexec
  obtain ⟨line, sc, held, base, pos, pos', alloc⟩ := v
  simp only [Prod.mk.injEq] at hcursor
  obtain ⟨hbase, hpos, -⟩ := hcursor
  change base = s.bitBase at hbase
  change pos = s.bitPos at hpos
  subst hbase hpos
  exact ⟨sc, hexec⟩

end

section
variable {k ow : Byte} {map mlen widths offsets bits : Word} {hgt : Byte} {str n : Word}
  {x y fg bg : Half} {s : State} {m j : Nat}

/-- WRITE whose first mapped character is not acquired. -/
theorem exec_write_unacquired {t : State} {size : Nat} (hc : configLegal s.cfg = true)
    (hk : sampleWidthOk k = true) (how : offsetWidthOk ow = true) (hm : m < n.toNat)
    (hr : Readable s str.toNat (m + 1))
    (hl : ∀ i ≤ m, LookupReadable s map.toNat mlen.toNat (s.mem.read (str.toNat + i)))
    (hout : ∀ i < m, mapIndex s.mem map.toNat mlen.toNat (s.mem.read (str.toNat + i)) = none)
    (hj : mapIndex s.mem map.toNat mlen.toNat (s.mem.read (str.toNat + m)) = some j)
    (hw : Readable s (widths.toNat + j) 1)
    (ho : Readable s (offsets.toNat + j * ow.toNat) ow.toNat)
    (e : ∀ body : Cmd (Nat × Bool), withScratch (glyphWidth s.mem widths.toNat j * hgt.toNat * 2)
      body { s with busy := true } = .error (.resourceError size) t) :
    exec (.write k ow map mlen widths offsets bits hgt str n x y fg bg) s =
      .next (t.ended 11 .resourceError) := by
  obtain ⟨l, hl'⟩ := Nat.exists_eq_add_of_lt hm
  have hr := hr.resolve_left (Nat.succ_ne_zero m)
  have hskip := writeLoop_skip (a := ⟨k.toNat, ow.toNat, map.toNat, mlen.toNat, widths.toNat,
    offsets.toNat, bits, hgt.toNat, str.toNat, s16 y, fg, bg⟩) (m := m)
    (s := { s with busy := true }) (l + 1) 0 (s16 x) 0 (.inr (Nat.le_of_succ_le hr))
    (fun i hi => by rw [Nat.zero_add]; exact hl i (Nat.le_of_lt hi))
    (fun i hi => by rw [Nat.zero_add]; exact hout i hi)
  have herror := writeLoop_error (a := ⟨k.toNat, ow.toNat, map.toNat, mlen.toNat, widths.toNat,
    offsets.toNat, bits, hgt.toNat, str.toNat, s16 y, fg, bg⟩) (n := l) (i := m) (x := s16 x)
    (total := 0) (s := { s with busy := true }) (Nat.lt_of_succ_le hr) (hl m (Nat.le_refl m)) hj hw
    ho e
  rw [Nat.zero_add, ← Nat.add_assoc, ← hl'] at hskip
  have hwf : (Instr.write k ow map mlen widths offsets bits hgt str n x y fg bg).wf = true := by
    rw [Instr.wf, hk, how, Bool.and_self]
  exact exec_of_raised hc hwf (cmd_bind_error (hskip.trans herror))

end

/-- Settles O51: what comes before the acquisition reads and draws nothing, or the glyphs before it. -/
theorem resourceErrorAtAcquisition : Obligations.ResourceErrorAtAcquisition := by
  unfold Obligations.ResourceErrorAtAcquisition
  refine ⟨?_, ?_, ?_⟩
  · intro k bits pal plen w h fcount fidx x y s hc hk hframe
    exact ⟨fun cap hs hcap => exec_bitmap_resident hc hk hframe hs hcap,
      fun rest hs hd => exec_bitmap_transient hc hk hframe hs hd⟩
  · intro font w h first last str n x y fg bg s m a before hc hw hm hr hin
    exact ⟨fun cap hs hcap hbefore => exec_text_resident hc hw hm hr hin hs hcap hbefore,
      fun rest hs hup hglyphs hd => exec_text_transient hc hw hm hr hin hs hup hglyphs hd⟩
  · intro k ow map mlen widths offsets bits hgt str n x y fg bg s m j size hc hk how hm hr hl hout
      hj hw ho
    refine ⟨fun cap hs hcap => ?_, fun rest hs hd => ?_⟩
    · exact exec_write_unacquired (t := { s with busy := true }) hc hk how hm hr hl hout hj hw ho
        fun _ => withScratch_resident_fault (s := { s with busy := true }) hs hcap
    · exact exec_write_unacquired (t := { s with busy := true, allocDraws := rest }) hc hk how hm hr hl
        hout hj hw ho fun _ => withScratch_transient_fault (s := { s with busy := true }) hs hd

end Sys2Proof.Machine
end

section
/-! PROOF. Pixel streams into a valid window: FILL of the whole screen in every reachable state, and a
BLIT that runs past the end of resource memory (spec/41_fill_raster.md R195, spec/42_blit.md R240,
spec/60_exceptions.md R354). -/

namespace Sys2Proof.Machine

/-! ## A pixel stream into a valid window -/

theorem pixelStream_valid {s : State} (h : TransportUp s) {x0 y0 x1 y1 : Int}
    (hv : validWindow s x0 y0 x1 y1 = true) (body : Cmd Unit) :
    pixelStream x0 y0 x1 y1 body s =
      dataBracket body (s.performs (windowEvents s.cfg x0 y0 x1 y1)) := by
  have hopen := openWindow_eq h x0 y0 x1 y1
  rw [if_pos hv] at hopen
  rw [pixelStream, cmd_bind_ok hopen, withState_apply, if_pos (.inl rfl)]

/-- A data bracket, to the end of its body. -/
theorem dataBracket_eq (body : Cmd Unit) (s : State) :
    dataBracket body s =
      mapState State.csRelease (body (s.performs (csOn s.cfg ++ [.dc .data]))) := by
  have hdc : setDc .data s.csAssert = .ok () (s.performs (csOn s.cfg ++ [.dc .data])) := by
    rw [csAssert_eq, ← performs_append]
    exact makes_setDc _ _
  rw [dataBracket, bracketed_eq, cmd_bind_ok hdc]

/-- What the transfers inside a data bracket come to with the bracket around them. -/
theorem performs_dataEvents (s : State) (ts : List (List Byte)) :
    ((s.performs (csOn s.cfg ++ [.dc .data])).performs (ts.map .xfer)).csRelease =
      s.performs (dataEvents s.cfg ts) := by
  rw [csRelease_eq, State_performs_cfg, State_performs_cfg, performs_append, performs_append,
    dataEvents]
  simp only [List.append_assoc]

/-! ## FILL in every reachable state (R195) -/

/-- The fill stream inside a data bracket, with what it leaves in the fill scratch. -/
theorem dataBracket_fillStream {s : State} (h : TransportUp s) (c : Half) (n : Nat) :
    ∃ l, dataBracket (fillStream c n) s =
      .ok () ((s.performs (dataEvents s.cfg (fillTransfers c n))).working (pixels c 128) l) := by
  obtain ⟨l, hfill⟩ := fillStream_ok (transportUp_performs h (csOn s.cfg ++ [.dc .data])) c n
  refine ⟨l, ?_⟩
  rw [dataBracket_eq, hfill, ← performs_dataEvents]
  simp only [mapState, csRelease_eq, performs_working, working_cfg]

/-- WIDTH and HEIGHT in a state between two steps, under a legal configuration (R35, R50). -/
theorem State.Inv.geometry {s : State} (h : s.Inv) (hc : configLegal s.cfg = true) :
    (s.width = 240 ∧ s.height = 320) ∨ (s.width = 320 ∧ s.height = 240) := by
  have hphys : (s.cfg.physW = 240 ∧ s.cfg.physH = 320) ∨
      (s.cfg.physW = 320 ∧ s.cfg.physH = 240) :=
    ((cfgBad_eq_false_iff s).mp (by rw [cfgBad, hc]; rfl)).1
  rw [h.widthFollows, h.heightFollows]
  rcases hphys with ⟨hw, hh⟩ | ⟨hw, hh⟩ <;> rw [hw, hh] <;> split <;> simp

theorem fillTransfers_screen (c : Half) :
    fillTransfers c 76800 = List.replicate 600 (pixels c 128) := by
  rw [fillTransfers_eq]
  exact List.append_nil _

/-- Settles O34: the window is the whole screen of 76800 pixels, which 128 divides. -/
theorem fillMakesSixHundredTransfers : Obligations.FillMakesSixHundredTransfers := by
  unfold Obligations.FillMakesSixHundredTransfers
  intro c s hinv hready
  obtain ⟨hc, hup⟩ := hready
  have hgeometry := hinv.geometry hc
  have hsize : s.width.toNat * s.height.toNat = 76800 := by
    rcases hgeometry with ⟨hw, hh⟩ | ⟨hw, hh⟩ <;> rw [hw, hh] <;> rfl
  have hvalid : validWindow { s with busy := true } 0 0 (s.width.toNat - 1) (s.height.toNat - 1)
      = true := by
    rcases hgeometry with ⟨hw, hh⟩ | ⟨hw, hh⟩ <;>
      simp only [validWindow, hw, hh] <;> decide
  obtain ⟨l, hfill⟩ := dataBracket_fillStream (transportUp_performs (s := { s with busy := true })
    hup (windowEvents s.cfg 0 0 (s.width.toNat - 1) (s.height.toNat - 1))) c
    (s.width.toNat * s.height.toNat)
  have hbody : commandBody (.fill c) { s with busy := true } = .ok () _ :=
    (pixelStream_valid (by exact hup) hvalid _).trans hfill
  rw [exec_of_ok hc rfl hbody, hsize, fillTransfers_screen, performs_append]
  rfl

/-! ## BLIT past the end of resource memory (R240, R354) -/

theorem forUp_add (m n a : Nat) (body : Nat → Cmd Unit) :
    forUp (m + n) a body = forUp m a body >>= fun _ => forUp n (a + m) body := by
  induction m generalizing a with
  | zero => rw [Nat.zero_add]; rfl
  | succ m ih =>
    rw [show m + 1 + n = m + n + 1 by omega, forUp, forUp, bind_assoc]
    simp only [ih, show a + 1 + m = a + (m + 1) by omega]

/-- The first whole chunks of a byte list. -/
theorem chunksOf_take {k q : Nat} {bytes : List Byte} (h : q ≤ ceilDiv bytes.length k) :
    (chunksOf k bytes).take q = (List.range q).map fun i => (bytes.drop (i * k)).take k := by
  rw [chunksOf, ← List.map_take, List.take_range, Nat.min_eq_left h]

/-- The stream sends the chunks that lie inside resource memory and faults at the next one. -/
theorem memStream_fault {s : State} (h : TransportUp s) {addr n : Nat} (hn : n ≠ 0)
    (hend : s.cfg.resMemSize < addr + n) :
    ∃ a, memStream addr n 256 s = .error (.resourceBounds a)
      (s.performs (((chunksOf 256 (s.mem.readBytes addr n)).take
        ((s.cfg.resMemSize - addr) / 256)).map .xfer)) := by
  generalize hq : ((s.cfg.resMemSize : Nat) - addr) / 256 = q
  have hin : q * 256 < n ∧ ∀ i < q, addr + i * 256 + 256 ≤ s.cfg.resMemSize := by
    constructor
    · omega
    · intro i hi
      omega
  obtain ⟨hlt, hchunk⟩ := hin
  have hsent := makes_transfers (body := fun i => memRead (addr + i * 256) 256 >>= xferOut)
    (f := fun i => ((s.mem.readBytes addr n).drop (i * 256)).take 256) q h
    fun i hi t ht hcfg hmem _ _ => by
      rw [Memory_readBytes_drop_take _ _ _ _ _ (by omega), ← hmem]
      exact makes_readXfer ht (.inr (by rw [hcfg]; exact hchunk i hi))
  rw [← chunksOf_take (by rw [Memory_readBytes_length]; unfold ceilDiv; omega)] at hsent
  generalize (chunksOf 256 (s.mem.readBytes addr n)).take q = ts at hsent
  have hstop : ∀ m, m ≠ 0 → s.cfg.resMemSize < addr + q * 256 + m →
      (memRead (addr + q * 256) m >>= xferOut) (s.performs (ts.map .xfer)) =
        .error (.resourceBounds (addr + q * 256)) (s.performs (ts.map .xfer)) :=
    fun m hm hlast => cmd_bind_error (memRead_fault hm hlast)
  refine ⟨addr + q * 256, ?_⟩
  rw [memStream]
  by_cases hwhole : q < n / 256
  · obtain ⟨m, hm⟩ := Nat.exists_eq_add_of_lt hwhole
    refine cmd_bind_error ?_
    rw [show n / 256 = q + (m + 1) from hm, forUp_add, cmd_bind_ok hsent, Nat.zero_add]
    exact cmd_bind_error (hstop 256 (by decide) (by omega))
  · have hall : n / 256 = q := by omega
    have hrest : n % 256 ≠ 0 := by omega
    rw [hall, cmd_bind_ok hsent, if_neg hrest]
    exact hstop (n % 256) hrest (by omega)

/-- Settles O44: the window opens, the stream faults, and the bracket closes. -/
theorem blitOutOfBounds : Obligations.BlitOutOfBounds := by
  unfold Obligations.BlitOutOfBounds
  intro addr len x y w h s hready n hvalid hn hend
  obtain ⟨hc, hup⟩ := hready
  simp only [n, ← extent_eq_toNat] at hn hend ⊢
  obtain ⟨a, hstream⟩ := memStream_fault (s := ((State.performs { s with busy := true }
      (windowEvents s.cfg (s16 x) (s16 y) (s16 x + s16 w - 1) (s16 y + s16 h - 1))).performs
        (csOn s.cfg ++ [.dc .data]))) (transportUp_performs (transportUp_performs hup _) _) hn hend
  have hbody : commandBody (.blit addr len x y w h) { s with busy := true } = .error _ _ :=
    (pixelStream_valid (by exact hup) (by exact hvalid) _).trans
      ((dataBracket_eq _ _).trans (congrArg (mapState State.csRelease) hstream))
  rw [exec_of_raised hc rfl hbody]
  exact (congrArg (fun t : State => Host.Outcome.next (t.ended 5 .resourceBounds))
    ((performs_dataEvents _ _).trans (performs_append _ _ _))).trans rfl

end Sys2Proof.Machine
end

section
/-! PROOF. A run of length 1 beside PIXEL, under either window policy (spec/41_fill_raster.md R204, R207,
R221). -/

namespace Sys2Proof.Machine

/-! ## The window of a run of length 1 -/

theorem clampRun_one (start limit : Int) :
    clampRun start 1 limit = if start < limit then 1 else limit - start := by
  unfold clampRun
  split <;> omega

/-- The window of a horizontal run of length 1 is valid where its pixel is on the screen. -/
theorem validWindow_hrun (s : State) (x y : Int) :
    validWindow s x y (x + clampRun x 1 s.width.toNat - 1) y = onScreen s x y := by
  rw [clampRun_one]
  unfold validWindow onScreen
  congr 1
  split <;> apply propext <;> omega

theorem validWindow_vrun (s : State) (x y : Int) :
    validWindow s x y x (y + clampRun y 1 s.height.toNat - 1) = onScreen s x y := by
  rw [clampRun_one]
  unfold validWindow onScreen
  congr 1
  split <;> apply propext <;> omega

theorem validWindow_pixel (s : State) (x y : Int) : validWindow s x y x y = onScreen s x y := by
  unfold validWindow onScreen
  congr 1
  apply propext
  omega

/-! ## Under SUPPRESS: the same transfers, whatever becomes of them (R221) -/

/-- The second state is the first with other contents of the fill scratch. -/
def OtherFill (s s' : State) : Prop := ∃ f, s' = { s with fillScratch := f }

theorem sameOutcome_refl {α : Type} (r : EStateM.Result Raised State α) :
    SameOutcome OtherFill r r := by
  cases r <;> exact ⟨rfl, _, rfl⟩

theorem xferOut_sent {s : State} (h : s.nextXferOk = true) (bytes : List Byte) :
    xferOut bytes s = .ok ()
      (State.emit { s with xferDraws := s.xferDraws.tail } (.xfer bytes)) := by
  rw [xferOut, if_pos h]

theorem xferOut_failed {s : State} (h : s.nextXferOk = false) (bytes : List Byte) :
    xferOut bytes s = .error (.transportError bytes.length)
      (State.emit { s with xferDraws := s.xferDraws.tail } (.xferFail bytes)) := by
  rw [xferOut, if_neg (Bool.eq_false_iff.mp h)]

theorem xferOut_otherFill (bytes : List Byte) {s s' : State} (h : OtherFill s s') :
    SameOutcome OtherFill (xferOut bytes s) (xferOut bytes s') := by
  obtain ⟨f, rfl⟩ := h
  cases hok : s.nextXferOk with
  | true =>
    rw [xferOut_sent hok, xferOut_sent (s := { s with fillScratch := f }) hok]
    exact ⟨rfl, f, rfl⟩
  | false =>
    rw [xferOut_failed hok, xferOut_failed (s := { s with fillScratch := f }) hok]
    exact ⟨rfl, f, rfl⟩

/-- A fill stream of one pixel is one transfer of its two bytes, once the fill scratch is loaded. -/
theorem fillStream_one (c : Half) (s : State) :
    fillStream c 1 s = xferOut (be16 c) { s with fillScratch := pixels c 128 } := by
  have htake : (pixels c 128).take 2 = be16 c := pixels_take c 128 1
  have hload : fillStream c 1 s = xferOut ((pixels c 128).take 2)
    { s with fillScratch := pixels c 128 } := rfl
  rw [hload, htake]

theorem csRelease_otherFill {s s' : State} (h : OtherFill s s') :
    OtherFill s.csRelease s'.csRelease := by
  obtain ⟨f, rfl⟩ := h
  rw [csRelease_eq, csRelease_eq]
  exact ⟨f, rfl⟩

theorem dataBracket_otherFill (c : Half) (s : State) :
    SameOutcome OtherFill (dataBracket (xferOut (be16 c)) s) (dataBracket (fillStream c 1) s) := by
  rw [dataBracket_eq, dataBracket_eq, fillStream_one]
  exact (xferOut_otherFill _ ⟨_, rfl⟩).mapState fun _ _ => csRelease_otherFill

/-- The pixel stream of one pixel, sent at once or filled. -/
theorem pixelStream_otherFill (x0 y0 x1 y1 : Int) (c : Half) (s : State) :
    SameOutcome OtherFill (pixelStream x0 y0 x1 y1 (xferOut (be16 c)) s)
      (pixelStream x0 y0 x1 y1 (fillStream c 1) s) := by
  unfold pixelStream
  cases e : openWindow x0 y0 x1 y1 s with
  | error f t =>
    rw [cmd_bind_error e, cmd_bind_error e]
    exact sameOutcome_refl (α := Unit) (.error f t)
  | ok ok t =>
    rw [cmd_bind_ok e, cmd_bind_ok e, withState_apply, withState_apply]
    split
    · exact dataBracket_otherFill c t
    · exact sameOutcome_refl _

/-- An invalid window sends nothing under SUPPRESS (R159). -/
theorem pixelStream_suppressed {s : State} {x0 y0 x1 y1 : Int} (body : Cmd Unit)
    (hp : s.cfg.windowPolicy = .suppress) (hv : validWindow s x0 y0 x1 y1 = false) :
    pixelStream x0 y0 x1 y1 body s = .ok () s := by
  have hopen : openWindow x0 y0 x1 y1 s = .ok false s := by
    rw [openWindow, withState_apply, if_neg (by simp [hv])]
    rfl
  rw [pixelStream, cmd_bind_ok hopen, withState_apply, if_neg (by simp [hp])]
  rfl

/-- A run of length 1 on the screen is its pixel. -/
theorem hlineOp_onScreen {s : State} {x y : Int} (c : Half) (h : onScreen s x y = true) :
    hlineOp x y 1 c s = pixelStream x y x y (fillStream c 1) s := by
  have hx : x < s.width.toNat := (of_decide_eq_true h).2.1
  have hpixels : runPixels s x y 1 1 = 1 := by
    rw [runPixels, validWindow_pixel, h, if_neg (by simp)]
    rfl
  rw [hlineOp, withState_apply]
  simp only [clampRun_eq, clampRun_one, if_pos hx, hpixels, Int.add_sub_cancel]

theorem vlineOp_onScreen {s : State} {x y : Int} (c : Half) (h : onScreen s x y = true) :
    vlineOp x y 1 c s = pixelStream x y x y (fillStream c 1) s := by
  have hy : y < s.height.toNat := (of_decide_eq_true h).2.2.2
  have hpixels : runPixels s x y 1 1 = 1 := by
    rw [runPixels, validWindow_pixel, h, if_neg (by simp)]
    rfl
  rw [vlineOp, withState_apply]
  simp only [clampRun_eq, clampRun_one, if_pos hy, hpixels, Int.add_sub_cancel]

/-- Under SUPPRESS a pixel and the two runs of length 1 from it make the same events. -/
theorem runs_otherFill {s : State} (hp : s.cfg.windowPolicy = .suppress) (x y : Int) (c : Half) :
    SameOutcome OtherFill (pixelOp x y c s) (hlineOp x y 1 c s) ∧
      SameOutcome OtherFill (pixelOp x y c s) (vlineOp x y 1 c s) := by
  cases hon : onScreen s x y with
  | true =>
    rw [hlineOp_onScreen c hon, vlineOp_onScreen c hon]
    exact ⟨pixelStream_otherFill x y x y c s, pixelStream_otherFill x y x y c s⟩
  | false =>
    have hpixel : pixelOp x y c s = .ok () s :=
      pixelStream_suppressed _ hp ((validWindow_pixel s x y).trans hon)
    have hh : hlineOp x y 1 c s = .ok () s := by
      rw [hlineOp, withState_apply]
      simp only [clampRun_eq]
      exact pixelStream_suppressed _ hp ((validWindow_hrun s x y).trans hon)
    have hv : vlineOp x y 1 c s = .ok () s := by
      rw [vlineOp, withState_apply]
      simp only [clampRun_eq]
      exact pixelStream_suppressed _ hp ((validWindow_vrun s x y).trans hon)
    rw [hpixel, hh, hv]
    exact ⟨sameOutcome_refl _, sameOutcome_refl _⟩

/-- Two commands whose bodies differ in the fill scratch alone leave the same trace and code. -/
theorem exec_otherFill {i j : Instr} {s t u : State} (hi : i.wf = true) (hj : j.wf = true)
    (h : SameOutcome OtherFill (commandBody i { s with busy := true })
      (commandBody j { s with busy := true }))
    (ht : exec i s = .next t) (hu : exec j s = .next u) : u.trace = t.trace ∧ u.last = t.last := by
  rw [exec_eq_commandBody, Host.Outcome.next.injEq] at ht hu
  subst ht hu
  unfold runCommand
  rw [hi, hj]
  split
  · exact ⟨rfl, rfl⟩
  · simp only [Bool.true_eq_false, if_false]
    cases e : commandBody i { s with busy := true } with
    | ok a v =>
      obtain ⟨v', e', f, rfl⟩ := h.of_ok e
      rw [e']
      exact ⟨rfl, rfl⟩
    | error f v =>
      obtain ⟨v', e', g, rfl⟩ := h.of_error e
      rw [e']
      exact ⟨rfl, rfl⟩

/-! ## Under STREAM: off the screen (R204, R207, R221) -/

/-- Off the screen a pixel stream under STREAM is its data bracket alone. -/
theorem streamEvents_offScreen {s : State} {x0 y0 x1 y1 : Int} (ts : List (List Byte))
    (hp : s.cfg.windowPolicy = .stream) (hv : validWindow s x0 y0 x1 y1 = false) :
    streamEvents s x0 y0 x1 y1 ts = dataEvents s.cfg ts := by
  rw [streamEvents, if_neg (by simp [hv]), if_pos hp]

/-- The transfers of a run of length 1 off the screen. -/
theorem runTransfers_one {s : State} {x y : Int} (c : Half) (len' : Int)
    (hoff : onScreen s x y = false) :
    runTransfers s x y 1 len' c =
      if s.cfg.offscreenRun = .emptyBracket then [] else fillTransfers c len'.toNat := by
  simp [runTransfers, runEmptied, hoff]

theorem fillTransfers_one (c : Half) : fillTransfers c 1 = [be16 c] := by
  rw [fillTransfers_eq]
  simp [pixels]

/-- Where the clamp leaves no pixel or the configuration says so, a run of length 1 off the screen
streams nothing; elsewhere its pixel. -/
theorem runTransfers_offScreen {s : State} {x y start limit : Int} (c : Half)
    (hoff : onScreen s x y = false) :
    (s.cfg.offscreenRun = .emptyBracket ∨ limit ≤ start →
      runTransfers s x y 1 (clampRun start 1 limit) c = []) ∧
    (s.cfg.offscreenRun = .streamsPixel → start < limit →
      runTransfers s x y 1 (clampRun start 1 limit) c = [be16 c]) := by
  rw [runTransfers_one c _ hoff, clampRun_one]
  constructor
  · rintro (hrun | hlimit)
    · rw [if_pos hrun]
    · rw [if_neg (show ¬ start < limit by omega), show (limit - start).toNat = 0 by omega,
        fillTransfers_zero, ite_self]
  · intro hrun hlimit
    rw [if_neg (by simp [hrun]), if_pos hlimit]
    exact fillTransfers_one c

theorem hlineEvents_offScreen {s : State} {x y : Int} (c : Half)
    (hp : s.cfg.windowPolicy = .stream) (hoff : onScreen s x y = false) :
    hlineEvents s x y 1 c =
      dataEvents s.cfg (runTransfers s x y 1 (clampRun x 1 s.width.toNat) c) :=
  streamEvents_offScreen _ hp ((validWindow_hrun s x y).trans hoff)

theorem vlineEvents_offScreen {s : State} {x y : Int} (c : Half)
    (hp : s.cfg.windowPolicy = .stream) (hoff : onScreen s x y = false) :
    vlineEvents s x y 1 c =
      dataEvents s.cfg (runTransfers s x y 1 (clampRun y 1 s.height.toNat) c) :=
  streamEvents_offScreen _ hp ((validWindow_vrun s x y).trans hoff)

/-- Settles O42: under SUPPRESS the run is the pixel or nothing, under STREAM its data bracket. -/
theorem runOfOneIsPixel : Obligations.RunOfOneIsPixel := by
  unfold Obligations.RunOfOneIsPixel
  constructor
  · intro x y c s t u v hp ht hu hv
    obtain ⟨hh, hvert⟩ := runs_otherFill (s := { s with busy := true }) hp (s16 x) (s16 y) c
    obtain ⟨htrace, hlast⟩ := exec_otherFill (i := .pixel x y c) (j := .hline x y 1 c) rfl rfl hh ht hu
    obtain ⟨htrace', hlast'⟩ :=
      exec_otherFill (i := .pixel x y c) (j := .vline x y 1 c) rfl rfl hvert ht hv
    exact ⟨htrace, hlast, htrace', hlast'⟩
  · intro x y c s hready hp hoff run
    have hpixel := pixelDraws x y c s hready
    rw [pixelEvents, streamEvents_offScreen _ hp ((validWindow_pixel s _ _).trans hoff)] at hpixel
    have hh := hlineDraws x y 1 c s hready
    rw [show s16 1 = 1 from rfl, hlineEvents_offScreen c hp hoff] at hh
    have hv := vlineDraws x y 1 c s hready
    rw [show s16 1 = 1 from rfl, vlineEvents_offScreen c hp hoff] at hv
    refine ⟨hpixel, fun hnone => ?_, fun hnone => ?_, fun hrun hlt => ?_, fun hrun hlt => ?_⟩
    · rwa [(runTransfers_offScreen c hoff).1 hnone] at hh
    · rwa [(runTransfers_offScreen c hoff).1 hnone] at hv
    · rwa [(runTransfers_offScreen c hoff).2 hrun hlt] at hh
    · rwa [(runTransfers_offScreen c hoff).2 hrun hlt] at hv

end Sys2Proof.Machine
end

section
/-! PROOF. The invariant of the states between two steps: it holds after reset, every command keeps it,
and so does every move of the host (spec/10_state.md sections 2 to 7, spec/40_protocol_window.md R150,
spec/60_exceptions.md R350, spec/70_reset_and_hazards.md R390, R391). -/

namespace Sys2Proof.Machine

/-! ## After reset (R51) -/

/-- The reset values, whatever stands in the fields that are no block state. -/
theorem inv_of_reset (c : Config) {m : Memory} (hm : m.wf = true) (xs as : List Bool) (n : Nat)
    (ops : List HostOp) (v : Word) :
    State.Inv { State.resetWith c m xs as with freeCount := n, inbox := ops, readData := v } where
  memory := hm
  rotation := by cases h : c.variant <;> simp [State.resetWith, h, Variant.count]
  widthFollows := rfl
  heightFollows := rfl
  partialCommand h := absurd rfl h
  counted := Nat.zero_le _
  idle := ⟨rfl, rfl, rfl, rfl⟩
  fillBuffer := List.length_replicate
  scratchBuffer := Nat.zero_le _
  resetDiscards _ := rfl
  codeWritten := Code.noConfusion
  brackets := rfl
  events := rfl
  lines := rfl

theorem resetWith_inv (c : Config) {m : Memory} (hm : m.wf = true) (xs as : List Bool) :
    (State.resetWith c m xs as).Inv :=
  inv_of_reset c hm xs as 0 [] 0

theorem blockReset_inv {s : State} (hm : s.mem.wf = true) : (blockReset s).Inv :=
  inv_of_reset s.cfg hm s.xferDraws s.allocDraws s.freeCount s.inbox s.readData

/-- Settles O16: every value of the reset table is one the invariant allows. -/
theorem invAfterReset : Obligations.InvAfterReset := by
  unfold Obligations.InvAfterReset
  exact ⟨resetWith_inv _ rfl _ _, fun c m xs as hm => resetWith_inv c hm xs as⟩

/-! ## The geometry (R34 to R36) -/

/-- The three clauses of the invariant on ROT, WIDTH and HEIGHT. -/
theorem followsRotation_iff {s : State} :
    FollowsRotation s ↔ s.rot.toNat < s.cfg.variant.count ∧
      s.width = (if s.rot.toNat % 2 = 1 then s.cfg.physH else s.cfg.physW) ∧
      s.height = (if s.rot.toNat % 2 = 1 then s.cfg.physW else s.cfg.physH) := by
  refine and_congr_right fun hlt => ?_
  have hlt' := Nat.lt_of_lt_of_le hlt (variant_count_le _)
  rw [rotatedWidth_eq _ hlt', rotatedHeight_eq _ hlt']

theorem HoldsRotation.follows {c : Config} {n : Nat} {t : State}
    (h : HoldsRotation c (n % c.variant.count) t) : FollowsRotation t := by
  obtain ⟨rfl, hrot, hwidth, hheight⟩ := h
  have hcount : 0 < t.cfg.variant.count := by cases t.cfg.variant <;> decide
  have hr : t.rot.toNat = n % t.cfg.variant.count := by
    rw [hrot, BitVec.toNat_ofNat, Nat.mod_eq_of_lt (rotation_lt t n)]
  exact ⟨hr ▸ Nat.mod_lt n hcount, hr ▸ hwidth, hr ▸ hheight⟩

theorem exec_followsRotation {i : Instr} {s t : State} (hs : FollowsRotation s)
    (h : exec i s = .next t) : FollowsRotation t := by
  have hcfg : t.cfg = s.cfg := congrArg Prod.fst (exec_keeps_owned h)
  have hstands : t.rot = s.rot ∧ t.width = s.width ∧ t.height = s.height → FollowsRotation t :=
    fun hgeometry => SameGeometry.follows ⟨hcfg, hgeometry⟩ hs
  cases i with
  | init => exact hstands (exec_init_keeps_geometry hs h)
  | rotation n =>
    cases hc : configLegal s.cfg with
    | true =>
      have hholds := exec_rotation_holds hc h
      rw [← hcfg] at hholds
      exact hholds.follows
    | false =>
      rw [exec_of_cfgBad ((cfgBad_iff s).mpr hc), Host.Outcome.next.injEq] at h
      subst h
      exact hs
  | _ => exact hstands (by simpa using exec_keeps_geometry rfl h)

/-! ## The lines (R46) -/

/-- The trace grows, and each line follows what it grows by. -/
def LinesFollow (s t : State) : Prop :=
  ∃ es, t.trace = s.trace ++ es ∧ t.levels = es.foldl levelAfter s.levels

theorem linesFollow_silent {s t : State} (htrace : t.trace = s.trace) (hlevels : t.levels = s.levels) :
    LinesFollow s t :=
  ⟨[], by rw [htrace, List.append_nil], hlevels⟩

theorem linesFollow_respects (i : Instr) : RespectsCommand LinesFollow i where
  base :=
    { refl := fun _ => linesFollow_silent rfl rfl
      trans := by
        rintro s t u ⟨es, htrace, hlevels⟩ ⟨es', htrace', hlevels'⟩
        exact ⟨es ++ es', by rw [htrace', htrace, List.append_assoc],
          by rw [hlevels', hlevels, List.foldl_append]⟩
      emit := fun s e => ⟨[e], State_emit_trace s e, by cases e <;> rfl⟩
      xferDraw := fun _ => linesFollow_silent rfl rfl
      line := fun _ _ => linesFollow_silent rfl rfl }
  fill _ _ _ := linesFollow_silent rfl rfl
  glyph _ := ⟨fun _ => linesFollow_silent rfl rfl, fun _ _ _ _ => linesFollow_silent rfl rfl,
    fun _ _ _ => linesFollow_silent rfl rfl, fun _ _ => linesFollow_silent rfl rfl,
    fun _ => linesFollow_silent rfl rfl⟩
  cursor _ _ _ _ := linesFollow_silent rfl rfl
  forget _ _ _ _ _ := linesFollow_silent rfl rfl
  result _ _ _ := linesFollow_silent rfl rfl
  geometry _ _ _ _ _ := linesFollow_silent rfl rfl

theorem exec_linesFollow {i : Instr} {s t : State} (h : exec i s = .next t) : LinesFollow s t := by
  obtain ⟨u, code, rfl, rfl | hu⟩ := exec_after (linesFollow_respects i) h
  · exact linesFollow_silent rfl rfl
  · exact hu

theorem exec_lines {i : Instr} {s t : State} (h : exec i s = .next t)
    (hs : s.levels = s.trace.foldl levelAfter resetLevels) :
    t.levels = t.trace.foldl levelAfter resetLevels := by
  obtain ⟨es, htrace, hlevels⟩ := exec_linesFollow h
  rw [hlevels, htrace, List.foldl_append, hs]

/-! ## The two scratches (R47, R48) -/

/-- What holds of a state holds behind it. -/
def Carries (P : State → Prop) (s t : State) : Prop := P s → P t

/-- The fill scratch is its whole buffer, and the glyph/bitmap scratch holds no byte past its end. -/
def ScratchesFit (s : State) : Prop :=
  s.fillScratch.length = 256 ∧ s.scratch.length ≤ s.scratchSize

theorem emit_scratchSize (s : State) (e : Event) : (s.emit e).scratchSize = s.scratchSize := by
  simp [State.scratchSize]

theorem scratchesFit_respects (i : Instr) : RespectsCommand (Carries ScratchesFit) i where
  base :=
    { refl := fun _ => id
      trans := fun _ _ _ h h' hs => h' (h hs)
      emit := fun s e hs => by
        unfold ScratchesFit
        rwa [emit_scratchSize, State_emit_fillScratch, State_emit_scratch]
      xferDraw := fun _ => id
      line := fun _ _ => id }
  fill _ s c hs := ⟨pixels_length c 128, hs.2⟩
  glyph _ :=
    { allocDraw := fun _ => id
      acquireResident := fun s cap n hres hs => by
        refine ⟨hs.1, ?_⟩
        have hfit := hs.2
        unfold State.scratchSize at hfit ⊢
        rwa [hres] at hfit ⊢
      acquireTransient := fun s n _ hs => ⟨hs.1, Nat.zero_le _⟩
      store := fun s bs hs => ⟨hs.1, List.length_take_le _ _⟩
      release := fun s hs => by
        obtain ⟨hfill, hfit⟩ := hs
        refine ⟨hfill, ?_⟩
        unfold State.scratchSize at hfit ⊢
        unfold State.releaseScratch
        revert hfit
        cases s.cfg.scratch with
        | resident cap => exact id
        | transient => exact fun _ => Nat.zero_le _ }
  cursor _ _ _ _ := id
  forget _ _ _ _ _ := id
  result _ _ _ := id
  geometry _ _ _ _ _ := id

/-- The acquisition in progress stands, or has been released. -/
def Released (s t : State) : Prop := t.scratchHeld = s.scratchHeld ∨ t.scratchHeld = none

theorem released_respects : Respects Released where
  refl _ := .inl rfl
  trans := by
    rintro s t u ht (hu | hu)
    · unfold Released
      rwa [hu]
    · exact .inr hu
  emit s e := .inl (State_emit_scratchHeld s e)
  xferDraw _ := .inl rfl
  line _ _ := .inl rfl

/-- A change that pseudocode makes by itself acquires and releases nothing. -/
theorem Change.plain_scratchHeld {m : Uses} {u : Change} (hu : u.plain m = true) (s : State) :
    (u.apply s).scratchHeld = s.scratchHeld := by
  cases u with
  | emit e => exact State_emit_scratchHeld s e
  | hold | release => cases hu
  | _ => rfl

theorem acquireScratch_error {n : Nat} {s t : State} {f : Raised}
    (e : acquireScratch n s = .error f t) : t.scratchHeld = s.scratchHeld := by
  rw [acquireScratch_eq] at e
  revert e
  cases s.cfg.scratch with
  | resident cap =>
    simp only
    split
    · rintro ⟨⟩; rfl
    · exact nofun
  | transient =>
    simp only
    split
    · exact nofun
    · rintro ⟨⟩; rfl

theorem after_releasing_scratchHeld {α : Type} (body : Cmd α) :
    After (fun _ t => t.scratchHeld = none) (fun _ => True) (releasing body) := by
  intro s
  rw [releasing_eq]
  cases body s with
  | ok a t => exact rfl
  | error f t => exact ⟨rfl, trivial⟩

/-- Every use of the scratch releases it, whether it ends with a fault or not. -/
theorem Built.released {m : Uses} {α : Type} {c : Cmd α} (h : Built m c) :
    After Released (fun _ => True) c := by
  have hR := released_respects
  induction h with
  | pure a => exact after_pure hR a
  | bind _ _ ihc ihk => exact after_bind hR ihc ihk
  | raise f _ => exact after_raise hR trivial
  | look _ _ ih => exact after_withState ih
  | memRead addr n _ => exact after_memRead hR (fun _ => trivial) addr n
  | change u hu => exact after_update fun s => .inl (Change.plain_scratchHeld hu s)
  | seeded base pos _ ih => exact after_bind hR (after_update fun s => .inl rfl) fun _ => ih
  | xferOut bytes _ => exact after_xferOut hR (fun _ => trivial) bytes
  | bracketed _ _ ih => exact after_bracketed hR ih
  | @withScratch m α body n _ ih =>
    intro s
    cases e : acquireScratch n s with
    | error f t =>
      rw [Machine.withScratch, cmd_bind_error e]
      exact ⟨.inl (acquireScratch_error e), trivial⟩
    | ok a t =>
      rw [Machine.withScratch, cmd_bind_ok e]
      have hnone := after_releasing_scratchHeld body t
      revert hnone
      cases releasing body t with
      | ok b v => exact .inr
      | error g v => exact fun h => ⟨.inr h.1, trivial⟩

theorem exec_scratches {i : Instr} {s t : State} (hs : ScratchesFit s) (hheld : s.scratchHeld = none)
    (h : exec i s = .next t) : ScratchesFit t := by
  have hfit := after_commandBody (scratchesFit_respects i)
  have hreleased := (built_commandBody i).released
  have hend : ∀ (u : State) code, ScratchesFit u → u.scratchHeld = none →
      ScratchesFit (u.ended (1 + i.operandCount) code) := by
    intro u code hu hnone
    have hsize : (u.ended (1 + i.operandCount) code).scratchSize = u.scratchSize := by
      unfold State.scratchSize
      rw [hnone]
      rfl
    exact ⟨hu.1, hsize ▸ hu.2⟩
  have hnone : ∀ {u : State}, Released { s with busy := true } u → u.scratchHeld = none :=
    fun hu => hu.elim (·.trans hheld) id
  obtain ⟨u, code, rfl, ⟨rfl, -⟩ | ⟨rfl, -⟩ | ⟨e, -⟩ | ⟨f, e, -⟩⟩ := exec_cases h
  · exact hend _ code hs hheld
  · exact hend _ code hs hheld
  · exact hend u code (hfit.ok e hs) (hnone (hreleased.ok e))
  · exact hend u code ((hfit.error e).1 hs) (hnone (hreleased.error e).1)

/-! ## Every command keeps the invariant -/

/-- A command runs with an empty buffer, whose words it has consumed. -/
theorem exec_inv {i : Instr} {s t : State} (hs : s.Inv) (hpending : s.pending = [])
    (h : exec i s = .next t) : t.Inv := by
  have howned := exec_keeps_owned h
  simp only [State.owned, Prod.mk.injEq] at howned
  obtain ⟨hcfg, hmem, hpending', -, -, -⟩ := howned
  have hempty : t.pending = [] := hpending'.trans hpending
  obtain ⟨-, -, hheld, -⟩ := hs.idle
  obtain ⟨hrot, hwidth, hheight⟩ :=
    followsRotation_iff.mp (exec_followsRotation hs.followsRotation h)
  obtain ⟨hfill, hscratch⟩ := exec_scratches ⟨hs.fillBuffer, hs.scratchBuffer⟩ hheld h
  obtain ⟨es, htrace, hscan, hok⟩ := bracketsClose i s t h
  obtain ⟨u, hu, -, -, -, hbusy⟩ := everyCommandEnds i s
  cases h.symm.trans hu
  exact
    { memory := hmem ▸ hs.memory
      rotation := hrot
      widthFollows := hwidth
      heightFollows := hheight
      partialCommand := fun hne => absurd hempty hne
      counted := by rw [hempty]; exact Nat.zero_le _
      idle := ⟨hbusy, exec_leaves_nothing h⟩
      fillBuffer := hfill
      scratchBuffer := hscratch
      resetDiscards := fun _ => hempty
      codeWritten := last_ne_decodeError h
      brackets := by rw [hcfg, htrace, bracketScan_append, hs.brackets, Option.bind_some, hscan]
      events := by rw [hcfg, htrace, List.all_append, hs.events, hok, Bool.and_self]
      lines := exec_lines h hs.lines }

/-! ## Every move of the host keeps the invariant -/

/-- The next states that an action of the port can lead to meet the invariant. -/
def PortAction.KeepsInv : PortAction → Prop
  | .run i s => ∀ t, exec i s = .next t → t.Inv
  | .settled o => ∀ t, o = .next t → t.Inv

theorem keepsInv_next {s : State} (h : s.Inv) : (PortAction.settled (.next s)).KeepsInv := by
  rintro t ⟨⟩
  exact h

theorem keepsInv_refused (r : Refusal) : (PortAction.settled (.refused r)).KeepsInv := by
  rintro t ⟨⟩

theorem keepsInv_fault (f : Fault) : (PortAction.settled (.fault f)).KeepsInv := by
  rintro t ⟨⟩

theorem decodeWords_incomplete_pos {ws : List Word} {n : Nat}
    (h : decodeWords ws = .incomplete n) : 0 < n := by
  cases ws with
  | nil =>
    cases h
    exact Nat.one_pos
  | cons w ops =>
    cases hr : opcodeRow (headerOpc w) with
    | none => cases (decodeWords_unknown ops hr).symm.trans h
    | some row =>
      rw [decodeWords_known hr] at h
      split at h
      case isTrue hlt =>
        cases h
        omega
      case isFalse =>
        obtain ⟨i, hread⟩ := readFields_of_opcodeRow hr (ops.take row.formats.length)
        rcases checkCommand_cases (row := row) hread with ⟨-, -, -, -, -, hc⟩ | ⟨why, -, hc⟩
        · cases hc.symm.trans h
        · cases hc.symm.trans h

/-- The state a command runs from: the buffer is emptied and CP goes back. -/
theorem atHeader_inv {s : State} (h : s.Inv) (cp : Nat) :
    State.Inv { s with pending := [], cp := cp } :=
  { h with
    partialCommand := fun hne => absurd rfl hne
    counted := Nat.zero_le _
    resetDiscards := fun _ => rfl }

/-- The end of a command that ran no body. -/
theorem ended_inv {s : State} (h : s.Inv) (hpending : s.pending = []) (len : Nat) {code : Code}
    (hcode : code ≠ .decodeError) : (s.ended len code).Inv := by
  obtain ⟨-, -, hheld, -⟩ := h.idle
  have hsize : (s.ended len code).scratchSize = s.scratchSize := by
    unfold State.scratchSize
    rw [hheld]
    rfl
  exact
    { h with
      counted := by
        rw [show (s.ended len code).pending = [] from hpending]
        exact Nat.zero_le _
      idle := ⟨rfl, rfl, rfl, rfl⟩
      scratchBuffer := hsize ▸ h.scratchBuffer
      codeWritten := hcode }

theorem illegalCommand_inv {s : State} (h : s.Inv) (hpending : s.pending = []) (len : Nat) :
    (illegalCommand len s).Inv := by
  cases hc : configLegal s.cfg with
  | true =>
    rw [illegalCommand_eq_ended hc]
    exact ended_inv h hpending len Code.noConfusion
  | false =>
    rw [illegalCommand_of_cfgBad ((cfgBad_iff s).mpr hc)]
    exact ended_inv h hpending len Code.noConfusion

/-- A word that does not complete a command. -/
theorem stored_inv {s : State} (h : s.Inv) (hheld : s.resetHeld = false) {w : Word} {n : Nat}
    (hdecode : decodeWords (s.pending ++ [w]) = .incomplete n) :
    State.Inv { s with pending := s.pending ++ [w], cp := s.cp + 1 } :=
  { h with
    partialCommand := fun _ => ⟨n, decodeWords_incomplete_pos hdecode, hdecode⟩
    counted := by
      have := h.counted
      simp only [List.length_append, List.length_singleton]
      omega
    resetDiscards := fun hreset => absurd (hheld.symm.trans hreset) Bool.false_ne_true }

theorem acceptWord_keepsInv {s : State} (h : s.Inv) (hheld : s.resetHeld = false) (w : Word) :
    (acceptWord w s).KeepsInv := by
  cases hdecode : decodeWords (s.pending ++ [w]) with
  | command i =>
    simp only [acceptWord, hdecode]
    exact fun t ht => exec_inv (atHeader_inv h _) rfl ht
  | illegal why len =>
    simp only [acceptWord, hdecode]
    exact keepsInv_next (illegalCommand_inv (atHeader_inv h _) rfl len)
  | incomplete n =>
    simp only [acceptWord, hdecode]
    exact keepsInv_next (stored_inv h hheld hdecode)

theorem writeCtrl_inv {s : State} (h : s.Inv) (v : Word) : (writeCtrl v s).Inv := by
  have hsome : (writeCtrl v s).pending ≠ [] → (writeCtrl v s).pending = s.pending := by
    rw [writeCtrl_pending]
    split
    · exact fun hne => absurd rfl hne
    · exact fun _ => rfl
  exact
    { h with
      partialCommand := fun hne => hsome hne ▸ h.partialCommand (hsome hne ▸ hne)
      counted := by
        rw [writeCtrl_pending]
        split
        · exact Nat.zero_le _
        · exact h.counted
      resetDiscards := fun hreset => by
        rw [writeCtrl_pending, h.resetDiscards hreset, ite_self] }

/-- The host's coming moves and the value of its last read are no part of the invariant. -/
theorem State.Inv.withHost {s : State} (h : s.Inv) (ops : List HostOp) (v : Word) :
    State.Inv { s with inbox := ops, readData := v } :=
  { h with }

theorem writeMem_inv {s : State} (h : s.Inv) (addr : Nat) (b : Byte) :
    State.Inv { s with mem := s.mem.write addr b } :=
  { h with memory := Memory_write_wf s.mem addr b h.memory }

theorem assertReset_inv {s : State} (h : s.Inv) : (assertReset s).Inv :=
  { h with
    partialCommand := fun hne => absurd rfl hne
    counted := Nat.zero_le _
    resetDiscards := fun _ => rfl }

theorem writeRegister_keepsInv {s : State} (h : s.Inv) (offset : BitVec 5) (v : Word) :
    (writeRegister offset v s).KeepsInv := by
  unfold writeRegister
  split
  · cases hheld : s.resetHeld with
    | true => exact keepsInv_next h
    | false => exact acceptWord_keepsInv h hheld v
  · exact keepsInv_next (writeCtrl_inv h v)
  · exact keepsInv_next h

theorem hostMove_keepsInv {s : State} (h : s.Inv) (op : HostOp) : (hostMove op s).KeepsInv := by
  cases op with
  | writeReg width offset v =>
    rw [hostMove]
    split
    · exact writeRegister_keepsInv h offset v
    · exact keepsInv_refused _
  | readReg width offset =>
    rw [hostMove]
    split
    · exact keepsInv_next (h.withHost s.inbox _)
    · exact keepsInv_refused _
  | writeMem addr b =>
    rw [hostMove]
    split
    · exact keepsInv_next (writeMem_inv h addr b)
    · exact keepsInv_fault _
  | assertReset => exact keepsInv_next (assertReset_inv h)
  | releaseReset =>
    refine keepsInv_next ?_
    cases hheld : s.resetHeld with
    | true =>
      rw [releaseReset_held s hheld]
      exact blockReset_inv h.memory
    | false =>
      rw [releaseReset_free s hheld]
      exact h

theorem portNext_keepsInv {s : State} (h : s.Inv) : (portNext s).KeepsInv := by
  obtain ⟨hbusy, -⟩ := h.idle
  cases hinbox : s.inbox with
  | nil =>
    have hidle : portNext s = .settled (.next s) := by simp [portNext, hbusy, hinbox]
    rw [hidle]
    exact keepsInv_next h
  | cons op rest =>
    rw [portNext_of_inbox_cons hbusy hinbox]
    exact hostMove_keepsInv (h.withHost rest s.readData) op

/-- Settles O17: a step is one move of the host, and with it at most one command. -/
theorem invKept : Obligations.InvKept := by
  unfold Obligations.InvKept
  intro s t hinv h
  have hkeeps := portNext_keepsInv hinv
  unfold step at h
  split at h
  case h_1 i u hrun =>
    rw [hrun] at hkeeps
    exact hkeeps t h
  case h_2 o hsettled =>
    rw [hsettled] at hkeeps
    exact hkeeps t h

end Sys2Proof.Machine
end

section
/-! PROOF. A failed transfer beside the run in which none fails: the two agree up to it, and from there
the bracket is closed and nothing follows (spec/60_exceptions.md R352, R355, R363). -/

namespace Sys2Proof.Machine

/-! ## Cutting events at a transfer -/

theorem cutAtTransfer_append_of_le {k : Nat} {a : List Event} (b : List Event)
    (h : xferCount a ≤ k) :
    cutAtTransfer k (a ++ b) = a ++ cutAtTransfer (k - xferCount a) b := by
  induction a generalizing k with
  | nil => rfl
  | cons e a ih =>
    cases e with
    | xfer bs | xferFail bs =>
      simp only [xferCount] at h
      simp only [List.cons_append, cutAtTransfer, if_neg (show k ≠ 0 by omega), xferCount]
      rw [ih (k := k - 1) (by omega), Nat.sub_sub, Nat.add_comm 1]
    | _ =>
      simp only [List.cons_append, cutAtTransfer, xferCount]
      rw [ih h]

theorem cutAtTransfer_append_of_lt {k : Nat} {a : List Event} (b : List Event)
    (h : k < xferCount a) : cutAtTransfer k (a ++ b) = cutAtTransfer k a := by
  induction a generalizing k with
  | nil => exact absurd h (Nat.not_lt_zero k)
  | cons e a ih =>
    cases e with
    | xfer bs | xferFail bs =>
      simp only [xferCount] at h
      simp only [List.cons_append, cutAtTransfer]
      split
      · rfl
      · rw [ih (k := k - 1) (by omega)]
    | _ =>
      simp only [List.cons_append, cutAtTransfer]
      rw [ih h]

theorem xferCount_csOn (c : Config) : xferCount (csOn c) = 0 := by
  unfold csOn
  split <;> rfl

theorem xferCount_csOff (c : Config) : xferCount (csOff c) = 0 := by
  unfold csOff
  split <;> rfl

/-! ## The two runs -/

/-- The state with these draws of the transfers to come. -/
def State.withDraws (d : List Bool) (s : State) : State := { s with xferDraws := d }

theorem withDraws_self {s : State} (h : s.xferDraws = []) : s.withDraws [] = s := by
  unfold State.withDraws
  rw [← h]

/-- The draws of k transfers that succeed and one that fails. -/
def drawsTo (k : Nat) (rest : List Bool) : List Bool := List.replicate k true ++ false :: rest

/-- The state a piece of pseudocode ended in. -/
def endState {α : Type} : EStateM.Result Raised State α → State
  | .ok _ t => t
  | .error _ t => t

@[simp] theorem endState_mapState {α : Type} (g : State → State)
    (r : EStateM.Result Raised State α) : endState (mapState g r) = g (endState r) := by
  cases r <;> rfl

theorem mapState_mapState {α : Type} (g h : State → State) (r : EStateM.Result Raised State α) :
    mapState g (mapState h r) = mapState (fun s => g (h s)) r := by
  cases r <;> rfl

/-- r is the run in which no transfer fails and makes the events es; r' is the one whose transfer k, counted
from 0, fails. -/
structure CutRun {α : Type} (inBracket : Bool) (s : State) (k : Nat) (rest : List Bool)
    (r r' : EStateM.Result Raised State α) (es : List Event) : Prop where
  trace : (endState r).trace = s.trace ++ es
  draws : (endState r).xferDraws = []
  cfg : (endState r).cfg = s.cfg
  /-- Where the run makes no transfer k, the other does the same. -/
  same : xferCount es ≤ k → r' = mapState (State.withDraws (drawsTo (k - xferCount es) rest)) r
  /-- Where it does, the other ends there, and outside a bracket it has closed the one of the transfer. -/
  cut : k < xferCount es → ∃ n t, r' = .error (.transportError n) t ∧
    t.trace = s.trace ++ (cutAtTransfer k es ++ if inBracket then [] else csOff s.cfg) ∧
    t.xferDraws = rest ∧ t.cfg = s.cfg

/-- A failed transfer cuts c at its point. -/
def Cuts {α : Type} (inBracket : Bool) (c : Cmd α) : Prop :=
  ∀ s k rest, ∃ es,
    CutRun inBracket s k rest (c (s.withDraws [])) (c (s.withDraws (drawsTo k rest))) es

section
variable {α β : Type} {inBracket : Bool}

/-- Pseudocode that makes no transfer and looks at none of their draws: it does the same under all of
them. -/
theorem cutRun_of_silent {c : Cmd α} {s : State} {k : Nat} {rest : List Bool} {es : List Event}
    (r : EStateM.Result Raised State α) (hes : xferCount es = 0)
    (hrun : ∀ d, c (s.withDraws d) = mapState (State.withDraws d) r)
    (htrace : (endState r).trace = s.trace ++ es) (hcfg : (endState r).cfg = s.cfg) :
    CutRun inBracket s k rest (c (s.withDraws [])) (c (s.withDraws (drawsTo k rest))) es where
  trace := by rw [hrun, endState_mapState]; exact htrace
  draws := by rw [hrun, endState_mapState]; rfl
  cfg := by rw [hrun, endState_mapState]; exact hcfg
  same _ := by
    rw [hrun, hrun, hes, Nat.sub_zero, mapState_mapState]
    rfl
  cut h := by
    rw [hes] at h
    exact absurd h (Nat.not_lt_zero k)

theorem cuts_pure (a : α) : Cuts inBracket (pure a : Cmd α) := fun s _ _ =>
  ⟨[], cutRun_of_silent (.ok a s) rfl (fun _ => rfl) (List.append_nil _).symm rfl⟩

theorem cuts_raise (f : Raised) : Cuts inBracket (raise f : Cmd α) := fun s _ _ =>
  ⟨[], cutRun_of_silent (.error f s) rfl (fun _ => rfl) (List.append_nil _).symm rfl⟩

theorem cuts_seedCursor (base : Word) (pos : Nat) : Cuts inBracket (seedCursor base pos) :=
  fun s _ _ => ⟨[], cutRun_of_silent (.ok () (s.seeded base pos)) rfl (fun _ => rfl)
    (List.append_nil _).symm rfl⟩

/-- What a change adds to the trace. -/
def Change.events : Change → List Event
  | .emit e => [e]
  | _ => []

/-- A change that pseudocode makes by itself is no transfer and looks at no draw of one. -/
theorem Change.plain_silent {m : Uses} {u : Change} (hu : u.plain m = true) (s : State) :
    xferCount u.events = 0 ∧ (∀ d, u.apply (s.withDraws d) = (u.apply s).withDraws d) ∧
      (u.apply s).trace = s.trace ++ u.events ∧ (u.apply s).cfg = s.cfg := by
  cases u with
  | emit e =>
    cases e with
    | cs | xfer | xferFail => cases hu
    | _ => exact ⟨rfl, fun _ => rfl, rfl, rfl⟩
  | hold | release | clear | allocDraw | xferDraw | seed => cases hu
  | _ => exact ⟨rfl, fun _ => rfl, (List.append_nil _).symm, rfl⟩

theorem cuts_change {m : Uses} {u : Change} (hu : u.plain m = true) :
    Cuts inBracket (update u.apply) := by
  intro s k rest
  obtain ⟨hes, hdraws, htrace, hcfg⟩ := Change.plain_silent hu s
  exact ⟨u.events, cutRun_of_silent (.ok () (u.apply s)) hes
    (fun d => congrArg (EStateM.Result.ok ()) (hdraws d)) htrace hcfg⟩

theorem cuts_memRead (addr n : Nat) : Cuts inBracket (memRead addr n) := by
  intro s k rest
  by_cases hr : Readable s addr n
  · exact ⟨[], cutRun_of_silent (.ok (s.mem.readBytes addr n) s) rfl
      (fun d => memRead_ok (s := s.withDraws d) hr) (List.append_nil _).symm rfl⟩
  · rw [Readable, not_or, Nat.not_le] at hr
    obtain ⟨hn, hend⟩ := hr
    exact ⟨[], cutRun_of_silent (.error (.resourceBounds addr) s) rfl
      (fun d => memRead_fault (s := s.withDraws d) hn hend) (List.append_nil _).symm rfl⟩

theorem cuts_acquireScratch (n : Nat) : Cuts inBracket (acquireScratch n) := by
  intro s k rest
  have hrun := fun d => acquireScratch_eq n (s.withDraws d)
  cases hs : s.cfg.scratch with
  | resident cap =>
    simp only [show ∀ d, (s.withDraws d).cfg.scratch = .resident cap from fun _ => hs] at hrun
    by_cases hcap : (n : Int) > cap
    · simp only [if_pos hcap] at hrun
      exact ⟨[], cutRun_of_silent (.error (.resourceError n) s) rfl hrun
        (List.append_nil _).symm rfl⟩
    · simp only [if_neg hcap] at hrun
      exact ⟨[], cutRun_of_silent (.ok () ((Change.hold n).apply s)) rfl hrun
        (List.append_nil _).symm rfl⟩
  | transient =>
    simp only [show ∀ d, (s.withDraws d).cfg.scratch = .transient from fun _ => hs,
      show ∀ d, (s.withDraws d).nextAllocOk = s.nextAllocOk from fun _ => rfl] at hrun
    by_cases hok : s.nextAllocOk = true
    · simp only [if_pos hok] at hrun
      exact ⟨[], cutRun_of_silent
        (.ok () (Change.clear.apply ((Change.hold n).apply (Change.allocDraw.apply s)))) rfl hrun
        (List.append_nil _).symm rfl⟩
    · simp only [if_neg hok] at hrun
      exact ⟨[], cutRun_of_silent (.error (.resourceError n) (Change.allocDraw.apply s)) rfl hrun
        (List.append_nil _).symm rfl⟩

theorem cuts_bind {c : Cmd α} {d : α → Cmd β} (hc : Cuts inBracket c)
    (hd : ∀ a, Cuts inBracket (d a)) : Cuts inBracket (c >>= d) := by
  intro s k rest
  obtain ⟨es, htrace, hdraws, hcfg, hsame, hcut⟩ := hc s k rest
  cases e : c (s.withDraws []) with
  | error f t =>
    rw [e] at htrace hdraws hcfg hsame
    rw [cmd_bind_error e]
    refine ⟨es, htrace, hdraws, hcfg, fun h => cmd_bind_error (hsame h), fun h => ?_⟩
    obtain ⟨n, u, hu, hrest⟩ := hcut h
    exact ⟨n, u, cmd_bind_error hu, hrest⟩
  | ok a t =>
    rw [e] at htrace hdraws hcfg hsame
    obtain ⟨es', htrace', hdraws', hcfg', hsame', hcut'⟩ := hd a t (k - xferCount es) rest
    have hself : t.withDraws [] = t := withDraws_self hdraws
    rw [hself] at htrace' hdraws' hcfg' hsame'
    rw [cmd_bind_ok e]
    refine ⟨es ++ es', ?_, hdraws', hcfg'.trans hcfg, fun h => ?_, fun h => ?_⟩
    · rw [htrace', ← List.append_assoc]
      exact congrArg (· ++ es') htrace
    · rw [xferCount_append] at h ⊢
      rw [cmd_bind_ok (hsame (by omega)), hsame' (by omega), Nat.sub_sub]
    · rw [xferCount_append] at h
      by_cases hk : k < xferCount es
      · obtain ⟨n, u, hu, hrest⟩ := hcut hk
        rw [cutAtTransfer_append_of_lt _ hk]
        exact ⟨n, u, cmd_bind_error hu, hrest⟩
      · obtain ⟨n, u, hu, htrace₁, hdraws₁, hcfg₁⟩ := hcut' (by omega)
        refine ⟨n, u, (cmd_bind_ok (hsame (by omega))).trans hu, ?_, hdraws₁, hcfg₁.trans hcfg⟩
        rw [cutAtTransfer_append_of_le _ (by omega), htrace₁, show t.cfg = s.cfg from hcfg,
          show t.trace = s.trace ++ es from htrace]
        simp only [List.append_assoc]

theorem cuts_xferOut (bytes : List Byte) : Cuts true (xferOut bytes) := by
  intro s k rest
  have hsent : xferOut bytes (s.withDraws []) = .ok () _ := xferOut_sent rfl bytes
  refine ⟨[.xfer bytes], ?_⟩
  rw [hsent]
  refine ⟨rfl, rfl, rfl, fun h => ?_, fun h => ?_⟩
  · obtain ⟨k, rfl⟩ : ∃ j, k = j + 1 := ⟨k - 1, by simp only [xferCount] at h; omega⟩
    exact xferOut_sent rfl bytes
  · obtain rfl : k = 0 := by simp only [xferCount] at h; omega
    exact ⟨_, _, xferOut_failed rfl bytes, rfl, rfl, rfl⟩

theorem csAssert_withDraws (s : State) (d : List Bool) :
    (s.withDraws d).csAssert = s.csAssert.withDraws d := by
  unfold State.csAssert State.withDraws
  simp only
  split <;> rfl

theorem csRelease_withDraws (s : State) (d : List Bool) :
    (s.withDraws d).csRelease = s.csRelease.withDraws d := by
  unfold State.csRelease State.withDraws
  simp only
  split <;> rfl

theorem csRelease_trace (s : State) : s.csRelease.trace = s.trace ++ csOff s.cfg := by
  rw [csRelease_eq, State_performs_trace]

theorem csAssert_trace (s : State) : s.csAssert.trace = s.trace ++ csOn s.cfg := by
  rw [csAssert_eq, State_performs_trace]

theorem cuts_bracketed {body : Cmd Unit} (h : Cuts true body) : Cuts false (bracketed body) := by
  intro s k rest
  obtain ⟨es, htrace, hdraws, hcfg, hsame, hcut⟩ := h s.csAssert k rest
  have hcount : xferCount (csOn s.cfg ++ (es ++ csOff s.cfg)) = xferCount es := by
    rw [xferCount_append, xferCount_append, xferCount_csOn, xferCount_csOff, Nat.zero_add,
      Nat.add_zero]
  rw [State_csAssert_cfg] at hcfg hcut
  rw [csAssert_trace] at htrace hcut
  refine ⟨csOn s.cfg ++ (es ++ csOff s.cfg), ?_⟩
  rw [bracketed_eq, bracketed_eq, csAssert_withDraws, csAssert_withDraws]
  refine ⟨?_, ?_, ?_, fun hk => ?_, fun hk => ?_⟩
  · rw [endState_mapState, csRelease_trace, htrace, hcfg]
    simp only [List.append_assoc]
  · rw [endState_mapState]
    simpa using hdraws
  · rw [endState_mapState, State_csRelease_cfg, hcfg]
  · rw [hcount] at hk ⊢
    rw [hsame hk, mapState_mapState, mapState_mapState]
    congr 1
    funext t
    exact csRelease_withDraws t _
  · rw [hcount] at hk
    obtain ⟨n, t, ht, htrace₁, hdraws₁, hcfg₁⟩ := hcut hk
    refine ⟨n, t.csRelease, by rw [ht]; rfl, ?_, by simpa using hdraws₁,
      (State_csRelease_cfg t).trans hcfg₁⟩
    rw [csRelease_trace, htrace₁, hcfg₁, cutAtTransfer_append_of_le _ (by simp [xferCount_csOn]),
      xferCount_csOn, Nat.sub_zero, cutAtTransfer_append_of_lt _ hk]
    simp only [if_true, Bool.false_eq_true, if_false, List.append_nil, List.append_assoc]

theorem cuts_releasing {body : Cmd α} (h : Cuts inBracket body) :
    Cuts inBracket (releasing body) := by
  intro s k rest
  obtain ⟨es, htrace, hdraws, hcfg, hsame, hcut⟩ := h s k rest
  refine ⟨es, ?_⟩
  rw [releasing_eq, releasing_eq]
  refine ⟨?_, ?_, ?_, fun hk => ?_, fun hk => ?_⟩
  · rw [endState_mapState]; exact htrace
  · rw [endState_mapState]; exact hdraws
  · rw [endState_mapState]; exact hcfg
  · rw [hsame hk, mapState_mapState, mapState_mapState]
    rfl
  · obtain ⟨n, t, ht, hrest⟩ := hcut hk
    exact ⟨n, t.releaseScratch, by rw [ht]; rfl, hrest⟩

/-- Everything built from the primitives is cut at its point by a failed transfer. -/
theorem Built.cuts {m : Uses} {c : Cmd α} (h : Built m c) : Cuts m.bracket c := by
  induction h with
  | pure a => exact cuts_pure a
  | bind _ _ ihc ihk => exact cuts_bind ihc ihk
  | raise f _ => exact cuts_raise f
  | look hg _ ih =>
    intro s k rest
    rw [withState_apply, withState_apply, hg (s.withDraws []) (s.withDraws (drawsTo k rest))
      ⟨rfl, rfl, rfl, rfl, rfl, rfl, fun _ => rfl, fun _ => rfl⟩]
    exact ih _ s k rest
  | memRead addr n _ => exact cuts_memRead addr n
  | change u hu => exact cuts_change hu
  | seeded base pos _ ih => exact cuts_bind (cuts_seedCursor base pos) fun _ => ih
  | xferOut bytes hb => exact hb ▸ cuts_xferOut bytes
  | bracketed hb _ ih => exact hb ▸ cuts_bracketed ih
  | withScratch n _ ih => exact cuts_bind (cuts_acquireScratch n) fun _ => cuts_releasing ih

end

/-! ## The command -/

/-- A command that ran no body makes no event. -/
theorem exec_without_body {i : Instr} {s t : State}
    (hno : configLegal s.cfg = false ∨ i.wf = false) (h : exec i s = .next t) :
    t.trace = s.trace := by
  rw [exec_eq_commandBody, Host.Outcome.next.injEq] at h
  subst h
  unfold runCommand
  split
  · rfl
  · rcases hno with hc | hwf
    · exact absurd hc ‹_›
    · rw [if_pos hwf]
      rfl

/-- Settles O22: the two runs of the body, and the end of the command. -/
theorem transportFailureCuts : Obligations.TransportFailureCuts := by
  unfold Obligations.TransportFailureCuts
  intro i s u es k rest hu htrace hk hdraws
  have hsome : es ≠ [] := by
    rintro rfl
    exact absurd hk (Nat.not_lt_zero k)
  have hran : configLegal s.cfg = true ∧ i.wf = true := by
    by_contra hno
    rw [not_and_or, Bool.not_eq_true, Bool.not_eq_true] at hno
    have hsame := exec_without_body (s := { s with xferDraws := [] }) hno hu
    rw [htrace] at hsame
    exact hsome (List.append_right_eq_self.mp hsame)
  obtain ⟨hc, hwf⟩ := hran
  obtain ⟨es', htrace', -, -, -, hcut⟩ := (built_commandBody i).cuts { s with busy := true } k rest
  have hes : es' = es := by
    refine List.append_cancel_left (htrace'.symm.trans (Eq.trans ?_ htrace))
    obtain ⟨v, code, rfl, ⟨rfl, -, hbad⟩ | ⟨rfl, -, hbad⟩ | ⟨e, -⟩ | ⟨f, e, -⟩⟩ := exec_cases hu
    · exact absurd (hc.symm.trans hbad) Bool.true_eq_false.mp
    · exact absurd (hwf.symm.trans hbad) Bool.true_eq_false.mp
    · exact congrArg (fun r => (endState r).trace) e
    · exact congrArg (fun r => (endState r).trace) e
  subst hes
  obtain ⟨n, t, ht, htrace₁, hdraws₁, -⟩ := hcut hk
  have hstate : State.withDraws (drawsTo k rest) { s with busy := true } =
      { s with busy := true } := by
    unfold State.withDraws drawsTo
    rw [← hdraws]
  rw [hstate] at ht
  have hexec := exec_of_raised hc hwf ht
  obtain ⟨v, hv, hcp, herr, -, -⟩ := everyCommandEnds i s
  cases hexec.symm.trans hv
  have hresult : t.result = s.result :=
    commandBody_error_result (s := { s with busy := true }) ht
  exact ⟨_, hexec, htrace₁, rfl, herr.trans (Bool.or_true _), hcp, hresult, hdraws₁⟩

end Sys2Proof.Machine
end

section
/-! PROOF. The runs of a line: the walk partitions the major coordinates from one endpoint to the other,
and the error register counts the minor steps (spec/41_fill_raster.md R216 to R219). -/

namespace Sys2Proof.Machine

/-! ## The setup (R216) -/

theorem lineSetup_steep (x0 y0 x1 y1 : Int) :
    (lineSetup x0 y0 x1 y1).steep = decide ((x1 - x0).natAbs < (y1 - y0).natAbs) := rfl

/-- What the setup leaves: the endpoints in rising order of the major coordinate, their distances, and
the registers of the walk at its start. -/
structure LineReady (r : LineRegs) : Prop where
  rising : r.x0 ≤ r.x1
  dx : r.dx = r.x1 - r.x0
  dy : r.dy = ((r.y1 - r.y0).natAbs : Int)
  dy_le : r.dy ≤ r.dx
  ystep : r.ystep = if r.y0 < r.y1 then 1 else -1
  err : r.err = r.dx / 2
  xs : r.xs = r.x0
  dlen : r.dlen = 0

theorem lineSetup_ready (x0 y0 x1 y1 : Int) : LineReady (lineSetup x0 y0 x1 y1) := by
  by_cases hsteep : (y1 - y0).natAbs > (x1 - x0).natAbs
  · by_cases hswap : y0 > y1 <;> constructor <;>
      simp [lineSetup, hsteep, hswap, -Nat.cast_natAbs] <;> omega
  · by_cases hswap : x0 > x1 <;> constructor <;>
      simp [lineSetup, hsteep, hswap, -Nat.cast_natAbs] <;> omega

theorem lineSetup_endpoints (x0 y0 x1 y1 : Int) :
    let r := lineSetup x0 y0 x1 y1
    let p := if r.steep then (r.y0, r.x0) else (r.x0, r.y0)
    let q := if r.steep then (r.y1, r.x1) else (r.x1, r.y1)
    (p = (x0, y0) ∧ q = (x1, y1)) ∨ (p = (x1, y1) ∧ q = (x0, y0)) := by
  by_cases hsteep : (y1 - y0).natAbs > (x1 - x0).natAbs
  · by_cases hswap : y0 > y1 <;> simp [lineSetup, hsteep, hswap]
  · by_cases hswap : x0 > x1 <;> simp [lineSetup, hsteep, hswap]

/-! ## Runs that follow one another -/

/-- Non-empty runs, each where the one before it ends and one minor step on, from (start, minor) up to
the major coordinate `stop`, which is not among them; the last lies at the minor coordinate `last`. -/
inductive Covers (ystep : Int) : Int → Int → Int → Int → List LineRun → Prop
  | last {start minor len : Int} : 0 < len →
    Covers ystep start minor (start + len) minor [⟨start, minor, len⟩]
  | cons {start minor len stop last : Int} {runs : List LineRun} : 0 < len →
    Covers ystep (start + len) (minor + ystep) stop last runs →
    Covers ystep start minor stop last (⟨start, minor, len⟩ :: runs)

section
variable {ystep start minor stop last : Int} {runs : List LineRun}

theorem Covers.len_pos (h : Covers ystep start minor stop last runs) : ∀ a ∈ runs, 0 < a.len := by
  induction h with
  | last hlen => simpa using hlen
  | cons hlen _ ih => simpa using ⟨hlen, ih⟩

theorem Covers.sum_len (h : Covers ystep start minor stop last runs) :
    (runs.map LineRun.len).sum = stop - start := by
  induction h with
  | last hlen => simp
  | cons hlen _ ih =>
    rw [List.map_cons, List.sum_cons, ih]
    dsimp only
    omega

theorem Covers.head? (h : Covers ystep start minor stop last runs) :
    ∃ a, runs.head? = some a ∧ a.start = start ∧ a.minor = minor := by
  cases h <;> exact ⟨_, rfl, rfl, rfl⟩

theorem Covers.getLast? (h : Covers ystep start minor stop last runs) :
    ∃ b, runs.getLast? = some b ∧ b.start + b.len = stop ∧ b.minor = last := by
  induction h with
  | last hlen => exact ⟨_, rfl, rfl, rfl⟩
  | cons hlen hrest ih =>
    obtain ⟨b, hb, hend⟩ := ih
    obtain ⟨a, ha, -⟩ := hrest.head?
    exact ⟨b, by rw [List.getLast?_cons, hb]; rfl, hend⟩

theorem Covers.isChain (h : Covers ystep start minor stop last runs) :
    runs.IsChain fun a b => b.start = a.start + a.len ∧ b.minor = a.minor + ystep := by
  induction h with
  | last hlen => exact List.isChain_singleton _
  | cons hlen hrest ih =>
    refine List.isChain_cons.mpr ⟨fun b hb => ?_, ih⟩
    obtain ⟨a, ha, hstart, hminor⟩ := hrest.head?
    cases ha.symm.trans hb
    exact ⟨hstart, hminor⟩

/-- A single run is the whole. -/
theorem Covers.eq_singleton (h : Covers ystep start minor stop last runs) (hlen : runs.length = 1) :
    runs = [⟨start, minor, stop - start⟩] := by
  cases h with
  | last => simp
  | cons _ hrest =>
    obtain ⟨a, ha, -⟩ := hrest.head?
    rw [List.length_cons, Nat.add_eq_right, List.length_eq_zero_iff] at hlen
    rw [hlen] at ha
    cases ha

end

/-- As many non-empty runs as they have pixels are runs of one pixel. -/
theorem len_eq_one_of_sum {runs : List LineRun} (hpos : ∀ a ∈ runs, 0 < a.len)
    (hsum : (runs.map LineRun.len).sum = runs.length) : ∀ a ∈ runs, a.len = 1 := by
  have hle : ∀ runs : List LineRun, (∀ a ∈ runs, 0 < a.len) →
      (runs.length : Int) ≤ (runs.map LineRun.len).sum := by
    intro runs hpos
    induction runs with
    | nil => exact Int.le_refl 0
    | cons a runs ih =>
      have := ih fun b hb => hpos b (List.mem_cons_of_mem a hb)
      have := hpos a List.mem_cons_self
      simp only [List.map_cons, List.sum_cons, List.length_cons]
      omega
  induction runs with
  | nil => exact nofun
  | cons a runs ih =>
    have hpos' := fun b hb => hpos b (List.mem_cons_of_mem a hb)
    have ha := hpos a List.mem_cons_self
    have hrest := hle runs hpos'
    simp only [List.map_cons, List.sum_cons, List.length_cons] at hsum
    intro b hb
    rcases List.mem_cons.mp hb with rfl | hb
    · omega
    · exact ih hpos' (by omega) b hb

/-! ## The walk (R217, R218) -/

/-- The runs of a walk, with the one that is left over behind it. -/
def closeRuns (walk : List LineRun × LineRegs) : List LineRun :=
  walk.1 ++ if walk.2.dlen > 0 then [⟨walk.2.xs, walk.2.y0, walk.2.dlen⟩] else []

theorem lineRuns_eq (x0 y0 x1 y1 : Int) :
    lineRuns x0 y0 x1 y1 = closeRuns (walkRuns (extent ((lineSetup x0 y0 x1 y1).dx + 1))
      (lineSetup x0 y0 x1 y1).x0 (lineSetup x0 y0 x1 y1)) := rfl

/-- The registers of a walk that has come to the major coordinate x: the open run reaches up to x, and
the error register holds a remainder of dx. -/
structure WalkAt (x : Int) (r : LineRegs) : Prop where
  open_run : r.xs + r.dlen = x
  dlen : 0 ≤ r.dlen
  dy : 0 ≤ r.dy
  dy_le : r.dy ≤ r.dx
  err : 0 ≤ r.err
  err_le : r.err < r.dx ∨ (r.dx = 0 ∧ r.err = 0)

theorem lineAdvance_keeps {r : LineRegs} {x : Int} (hr : r.err - r.dy ≥ 0) :
    lineAdvance r x = ({ r with err := r.err - r.dy, dlen := r.dlen + 1 }, none) := by
  unfold lineAdvance
  exact if_neg (by omega)

theorem lineAdvance_flushes {r : LineRegs} {x : Int} (hr : r.err - r.dy < 0) :
    lineAdvance r x =
      ({ r with err := r.err - r.dy + r.dx, dlen := 0, y0 := r.y0 + r.ystep, xs := x + 1 },
        some ⟨r.xs, r.y0, r.dlen + 1⟩) := by
  unfold lineAdvance
  exact if_pos hr

theorem WalkAt.keep {x : Int} {r : LineRegs} (h : WalkAt x r) (hr : r.err - r.dy ≥ 0) :
    WalkAt (x + 1) { r with err := r.err - r.dy, dlen := r.dlen + 1 } := by
  obtain ⟨hopen, hdlen, hdy, hle, herr, hlt⟩ := h
  constructor <;> dsimp only <;> omega

theorem WalkAt.flush {x : Int} {r : LineRegs} (h : WalkAt x r) (hr : r.err - r.dy < 0) :
    WalkAt (x + 1)
      { r with err := r.err - r.dy + r.dx, dlen := 0, y0 := r.y0 + r.ystep, xs := x + 1 } := by
  obtain ⟨hopen, hdlen, hdy, hle, herr, hlt⟩ := h
  constructor <;> dsimp only <;> omega

/-- What a walk over n + 1 major coordinates from x comes to: runs that cover them, one more than the
minor steps between them, whose number the error register settles. -/
structure Walked (n : Nat) (x : Int) (r : LineRegs) (steps : Int) (runs : List LineRun) : Prop where
  covers : Covers r.ystep r.xs r.y0 (x + (n + 1)) (r.y0 + steps * r.ystep) runs
  length : (runs.length : Int) = steps + 1
  err : 0 ≤ r.err - n * r.dy + steps * r.dx
  err_lt : r.err - n * r.dy + steps * r.dx < r.dx ∨ (r.dx = 0 ∧ steps = 0)

/-- One coordinate: the open run ends with it, flushed or left over. -/
theorem walked_zero {x : Int} {r : LineRegs} (h : WalkAt x r) :
    Walked 0 x r 0 [⟨r.xs, r.y0, r.dlen + 1⟩] := by
  have hstop : x + ((0 : Nat) + 1) = r.xs + (r.dlen + 1) := by
    have := h.open_run
    omega
  have hlast : r.y0 + 0 * r.ystep = r.y0 := by omega
  refine ⟨?_, rfl, ?_, ?_⟩
  · rw [hstop, hlast]
    exact .last (by have := h.dlen; omega)
  · simpa using h.err
  · simpa using h.err_le.imp_right And.left

theorem closeRuns_cons (run : LineRun) (walk : List LineRun × LineRegs) :
    closeRuns (run :: walk.1, walk.2) = run :: closeRuns walk := rfl

theorem walkRuns_covers (n : Nat) {x : Int} {r : LineRegs} (h : WalkAt x r) :
    ∃ steps, Walked n x r steps (closeRuns (walkRuns (n + 1) x r)) := by
  induction n generalizing x r with
  | zero =>
    refine ⟨0, ?_⟩
    have hclose : closeRuns (walkRuns 1 x r) = [⟨r.xs, r.y0, r.dlen + 1⟩] := by
      by_cases hr : r.err - r.dy < 0
      · simp [walkRuns, lineAdvance_flushes hr, closeRuns]
      · have := h.dlen
        simp [walkRuns, lineAdvance_keeps (Int.not_lt.mp hr), closeRuns,
          show 0 < r.dlen + 1 by omega]
    exact hclose ▸ walked_zero h
  | succ n ih =>
    by_cases hr : r.err - r.dy < 0
    · obtain ⟨steps, hcovers, hlength, herr, hlt⟩ := ih (h.flush hr)
      refine ⟨steps + 1, ?_⟩
      have hclose : closeRuns (walkRuns (n + 1 + 1) x r) =
          ⟨r.xs, r.y0, r.dlen + 1⟩ :: closeRuns (walkRuns (n + 1) (x + 1)
            { r with err := r.err - r.dy + r.dx, dlen := 0, y0 := r.y0 + r.ystep, xs := x + 1 }) := by
        rw [walkRuns, lineAdvance_flushes hr]
        exact closeRuns_cons _ _
      rw [hclose]
      have hsum : ∀ e : Int, e - r.dy + r.dx - n * r.dy + steps * r.dx =
          e - ((n + 1 : Nat) : Int) * r.dy + (steps + 1) * r.dx := by
        intro e; push_cast; ring
      rw [hsum] at herr hlt
      have hdx : r.dx ≠ 0 := by
        obtain ⟨-, -, hdy, hle, he, -⟩ := h
        omega
      refine ⟨?_, by rw [List.length_cons]; push_cast; omega, herr,
        .inl (hlt.resolve_right fun hzero => hdx hzero.1)⟩
      have hstart : x + 1 = r.xs + (r.dlen + 1) := by
        have := h.open_run
        omega
      have hstop : x + 1 + ((n : Int) + 1) = x + (((n + 1 : Nat) : Int) + 1) := by push_cast; ring
      have hlast : r.y0 + r.ystep + steps * r.ystep = r.y0 + (steps + 1) * r.ystep := by ring
      dsimp only at hcovers
      rw [hstop, hlast] at hcovers
      refine .cons (by have := h.dlen; omega) ?_
      rwa [← hstart]
    · obtain ⟨steps, hcovers, hlength, herr, hlt⟩ := ih (h.keep (Int.not_lt.mp hr))
      refine ⟨steps, ?_⟩
      have hclose : closeRuns (walkRuns (n + 1 + 1) x r) =
          closeRuns (walkRuns (n + 1) (x + 1)
            { r with err := r.err - r.dy, dlen := r.dlen + 1 }) := by
        rw [walkRuns, lineAdvance_keeps (Int.not_lt.mp hr)]
        rfl
      rw [hclose]
      have hsum : ∀ e : Int, e - r.dy - n * r.dy + steps * r.dx =
          e - ((n + 1 : Nat) : Int) * r.dy + steps * r.dx := by
        intro e; push_cast; ring
      rw [hsum] at herr hlt
      refine ⟨?_, hlength, herr, hlt⟩
      have hstop : x + 1 + ((n : Int) + 1) = x + (((n + 1 : Nat) : Int) + 1) := by push_cast; ring
      dsimp only at hcovers
      rwa [hstop] at hcovers

/-! ## The line (R219) -/

/-- A remainder of dx that is half of it leaves dy minor steps. -/
theorem steps_eq_dy {dx dy steps : Int} (hdy : 0 ≤ dy) (hle : dy ≤ dx)
    (hpos : 0 ≤ dx / 2 - dx * dy + steps * dx)
    (hlt : dx / 2 - dx * dy + steps * dx < dx ∨ (dx = 0 ∧ steps = 0)) : steps = dy := by
  rcases hlt with hlt | ⟨hzero, rfl⟩
  · have hfactor : dx / 2 - dx * dy + steps * dx = dx / 2 + dx * (steps - dy) := by ring
    rw [hfactor] at hpos hlt
    have hdx : 0 < dx := by
      by_contra hdx
      obtain rfl : dx = 0 := by omega
      simp at hlt
    have hhalf : 0 ≤ dx / 2 ∧ dx / 2 < dx := by omega
    have hupper : steps - dy < 1 := by
      by_contra hge
      have := mul_le_mul_of_nonneg_left (Int.not_lt.mp hge) hdx.le
      omega
    have hlower : -1 < steps - dy := by
      by_contra hge
      have := mul_le_mul_of_nonneg_left (Int.not_lt.mp hge) hdx.le
      omega
    omega
  · omega

/-- The runs of a walk from the setup, from the first endpoint to the second in dy minor steps. -/
theorem LineReady.covers {r : LineRegs} (h : LineReady r) :
    let runs := closeRuns (walkRuns (extent (r.dx + 1)) r.x0 r)
    Covers r.ystep r.x0 r.y0 (r.x1 + 1) r.y1 runs ∧ (runs.length : Int) = r.dy + 1 := by
  intro runs
  obtain ⟨hrising, hdx, hdy, hdy_le, hystep, herr, hxs, hdlen⟩ := h
  have hn : extent (r.dx + 1) = r.dx.toNat + 1 := by
    rw [extent_eq_toNat]
    omega
  obtain ⟨steps, hcovers, hlength, hpos, hlt⟩ := walkRuns_covers r.dx.toNat (x := r.x0) (r := r)
    ⟨by omega, by omega, by omega, hdy_le, by omega, by omega⟩
  have hcast : ((r.dx.toNat : Nat) : Int) = r.dx := by omega
  rw [hcast, herr] at hpos hlt
  obtain rfl := steps_eq_dy (by omega) hdy_le hpos hlt
  have hlast : r.y0 + r.dy * r.ystep = r.y1 := by
    rw [hystep, hdy]
    split <;> omega
  have hstop : r.x0 + (r.dx + 1) = r.x1 + 1 := by omega
  rw [← hn] at hcovers hlength
  rw [hlast, hxs, hcast, hstop] at hcovers
  exact ⟨hcovers, hlength⟩

/-- Settles O41: the runs cover the line, and there is one more of them than minor steps. -/
theorem lineRunsPartition : Obligations.LineRunsPartition := by
  unfold Obligations.LineRunsPartition
  intro x0 y0 x1 y1 r runs p q
  have hready : LineReady r := lineSetup_ready x0 y0 x1 y1
  obtain ⟨hcovers, hlength⟩ : Covers r.ystep r.x0 r.y0 (r.x1 + 1) r.y1 runs ∧
      (runs.length : Int) = r.dy + 1 := by
    rw [show runs = _ from lineRuns_eq x0 y0 x1 y1]
    exact hready.covers
  obtain ⟨hrising, hdx, hdy, -, hystep, -⟩ := hready
  have hsum : (runs.map LineRun.len).sum = r.dx + 1 := by
    rw [hcovers.sum_len, hdx]
    ring
  refine ⟨lineSetup_steep x0 y0 x1 y1, lineSetup_endpoints x0 y0 x1 y1, hrising, hdx, hdy, hystep,
    hcovers.len_pos, hsum, hcovers.isChain, hcovers.head?, ?_, fun hzero => ?_, fun hdiag => ?_⟩
  · obtain ⟨b, hb, hstop, hminor⟩ := hcovers.getLast?
    exact ⟨b, hb, by omega, hminor⟩
  · have hone : runs.length = 1 := by
      have : (runs.length : Int) = r.dy + 1 := hlength
      omega
    rw [hcovers.eq_singleton hone, hdx]
    congr 2
    ring
  · exact len_eq_one_of_sum hcovers.len_pos (by rw [hsum, hdiag]; exact hlength.symm)

end Sys2Proof.Machine
end

section
/-! PROOF. What the reference panel makes of a pixel stream of one colour: the window commands set its
registers, and the pixels fill the window row by row (spec/20_memory.md R80 to R84). -/

namespace Sys2Proof.Machine

/-! ## The pixels the panel holds -/

theorem gramRead_cons (k : Nat × Nat) (v : Half) (g : Gram) (x y : Nat) :
    gramRead ((k, v) :: g) x y = if k = (y, x) then some v else gramRead g x y := rfl

/-- A pixel reads back, and no other pixel changes, whatever the order of the listed pixels. -/
theorem gramRead_gramWrite (g : Gram) (x y : Nat) (v : Half) (a b : Nat) :
    gramRead (gramWrite g x y v) a b = if a = x ∧ b = y then some v else gramRead g a b := by
  have hkey : ((y, x) = (b, a)) ↔ (a = x ∧ b = y) := by
    rw [Prod.mk.injEq]
    omega
  induction g with
  | nil => rw [gramWrite, gramRead_cons, if_congr hkey rfl rfl]
  | cons e g ih =>
    obtain ⟨k, u⟩ := e
    rw [gramWrite]
    split
    · rw [gramRead_cons (y, x), if_congr hkey rfl rfl]
    · split
      next hk =>
        rw [gramRead_cons, gramRead_cons, hk, if_congr hkey rfl rfl]
        by_cases hab : a = x ∧ b = y
        · rw [if_pos hab, if_pos hab]
        · rw [if_neg hab, if_neg hab, if_neg (hkey.not.mpr hab)]
      next hk =>
        rw [gramRead_cons, gramRead_cons, ih]
        by_cases hhere : k = (b, a)
        · rw [if_pos hhere, if_neg fun hab => hk (hhere.trans (hkey.mpr hab).symm), if_pos hhere]
        · rw [if_neg hhere, if_neg hhere]

/-! ## A window filled row by row (R82) -/

/-- The pixels of the window that lie before the write pointer. -/
def BeforePointer (x0 x1 y0 : Nat) (p : Panel) (a b : Nat) : Prop :=
  x0 ≤ a ∧ a ≤ x1 ∧ y0 ≤ b ∧ (b < p.page ∨ (b = p.page ∧ a < p.col))

/-- A panel that is filling the window x0..x1, y0..y1 with one colour, over the pixels `held`: it shows
the colour before the write pointer and what it held elsewhere. -/
structure Filling (held : Gram) (c : Half) (x0 x1 y0 y1 : Nat) (p : Panel) : Prop where
  window : p.xs.toNat = x0 ∧ p.xe.toNat = x1 ∧ p.ys.toNat = y0 ∧ p.ye.toNat = y1
  taking : p.dc = .driven .data ∧ p.mode = .writing ∧ p.half = none ∧ p.torn = false
  col : x0 ≤ p.col ∧ p.col ≤ x1
  page : y0 ≤ p.page
  before : ∀ a b, BeforePointer x0 x1 y0 p a b → gramRead p.gram a b = some c
  behind : ∀ a b, ¬ BeforePointer x0 x1 y0 p a b → gramRead p.gram a b = gramRead held a b

/-- The two bytes of a word stand for it. -/
theorem be16_append (v : Half) : v.extractLsb' 8 8 ++ v.extractLsb' 0 8 = v := by
  rw [BitVec.extractLsb'_append_extractLsb'_eq_extractLsb' (by rfl)]
  exact BitVec.extractLsb'_eq_self

/-- The two bytes of a pixel are one pixel word. -/
theorem panelByte_pixel (cfg : Config) (c : Half) {p : Panel}
    (h : p.dc = .driven .data ∧ p.mode = .writing ∧ p.half = none ∧ p.torn = false) :
    (be16 c).foldl (panelByte cfg) p = panelPixel p c := by
  obtain ⟨hdc, hmode, hhalf, -⟩ := h
  have hself : { p with half := none } = p := by rw [← hhalf]
  calc (be16 c).foldl (panelByte cfg) p
    _ = panelPixel { p with half := none } c := by
      simp only [be16, List.foldl_cons, List.foldl_nil, panelByte, hdc, panelData, hmode, hhalf,
        be16_append]
    _ = panelPixel p c := by rw [hself]

/-- The panel after a pixel, with the write pointer at (col, page). -/
def wrotePixel (p : Panel) (w : Half) (col page : Nat) : Panel :=
  { p with gram := gramWrite p.gram p.col p.page w, col := col, page := page }

/-- A pixel before the last column of its row. -/
theorem panelPixel_within_row {p : Panel} (htorn : p.torn = false) (hpage : p.page ≤ p.ye.toNat)
    (hcol : p.col < p.xe.toNat) (w : Half) : panelPixel p w = wrotePixel p w (p.col + 1) p.page := by
  rw [panelPixel, if_pos ⟨htorn, hpage⟩]
  exact if_neg (by omega)

/-- A pixel at the last column of its row. -/
theorem panelPixel_ends_row {p : Panel} (htorn : p.torn = false) (hpage : p.page ≤ p.ye.toNat)
    (hcol : p.col = p.xe.toNat) (w : Half) :
    panelPixel p w = wrotePixel p w p.xs.toNat (p.page + 1) := by
  rw [panelPixel, if_pos ⟨htorn, hpage⟩]
  exact if_pos (by omega)

section
variable {held : Gram} {c : Half} {x0 x1 y0 y1 : Nat} {p : Panel}

/-- A pixel moves the write pointer over itself alone. -/
theorem Filling.wrote (h : Filling held c x0 x1 y0 y1 p) {col page : Nat}
    (hcol : x0 ≤ col ∧ col ≤ x1) (hpage : y0 ≤ page)
    (hnext : ∀ a b, BeforePointer x0 x1 y0 (wrotePixel p c col page) a b ↔
      (a = p.col ∧ b = p.page) ∨ BeforePointer x0 x1 y0 p a b) :
    Filling held c x0 x1 y0 y1 (wrotePixel p c col page) := by
  refine ⟨h.window, h.taking, hcol, hpage, fun a b hab => ?_, fun a b hab => ?_⟩
  all_goals
    rw [hnext] at hab
    refine (gramRead_gramWrite p.gram p.col p.page c a b).trans ?_
  · split
    · rfl
    next hother => exact h.before a b (hab.resolve_left hother)
  · obtain ⟨hother, hbehind⟩ := not_or.mp hab
    rw [if_neg hother]
    exact h.behind a b hbehind

/-- The write pointer goes on along its row. -/
theorem Filling.pixel_within_row (h : Filling held c x0 x1 y0 y1 p) (hpage : p.page ≤ y1)
    (hcol : p.col < x1) :
    panelPixel p c = wrotePixel p c (p.col + 1) p.page ∧
      Filling held c x0 x1 y0 y1 (panelPixel p c) := by
  obtain ⟨-, hxe, -, hye⟩ := h.window
  obtain ⟨-, -, -, htorn⟩ := h.taking
  have hpixel := panelPixel_within_row htorn (by omega) (by omega) c
  rw [hpixel]
  refine ⟨rfl, h.wrote (by have := h.col; omega) h.page fun a b => ?_⟩
  have := h.col
  have := h.page
  simp only [BeforePointer, wrotePixel]
  omega

/-- The write pointer goes on behind the last column at the start of the next row. -/
theorem Filling.pixel_ends_row (h : Filling held c x0 x1 y0 y1 p) (hpage : p.page ≤ y1)
    (hcol : p.col = x1) :
    panelPixel p c = wrotePixel p c x0 (p.page + 1) ∧
      Filling held c x0 x1 y0 y1 (panelPixel p c) := by
  obtain ⟨hxs, hxe, -, hye⟩ := h.window
  obtain ⟨-, -, -, htorn⟩ := h.taking
  have hpixel := panelPixel_ends_row htorn (by omega) (by omega) c
  rw [hpixel, hxs]
  refine ⟨rfl, h.wrote (by have := h.col; omega) (by have := h.page; omega) fun a b => ?_⟩
  have := h.col
  have := h.page
  simp only [BeforePointer, wrotePixel]
  omega

/-- The n pixels that are left of a row. -/
theorem Filling.row (cfg : Config) (n : Nat) (h : Filling held c x0 x1 y0 y1 p)
    (hpage : p.page ≤ y1) (hn : p.col + n = x1) :
    let q := (pixels c (n + 1)).foldl (panelByte cfg) p
    Filling held c x0 x1 y0 y1 q ∧ q.col = x0 ∧ q.page = p.page + 1 := by
  induction n generalizing p with
  | zero =>
    obtain ⟨hpixel, hfill⟩ := h.pixel_ends_row hpage hn
    rw [show pixels c (0 + 1) = be16 c from rfl, panelByte_pixel cfg c h.taking]
    exact ⟨hfill, by rw [hpixel]; rfl, by rw [hpixel]; rfl⟩
  | succ n ih =>
    obtain ⟨hpixel, hfill⟩ := h.pixel_within_row hpage (by omega)
    have hcol : (panelPixel p c).col = p.col + 1 := by rw [hpixel]; rfl
    have hsame : (panelPixel p c).page = p.page := by rw [hpixel]; rfl
    rw [pixels_succ, List.foldl_append, panelByte_pixel cfg c h.taking]
    obtain ⟨hrest, hrestCol, hrestPage⟩ := ih hfill (hsame ▸ hpage) (by omega)
    exact ⟨hrest, hrestCol, by rw [hrestPage, hsame]⟩

/-- The m rows that are left of a window, from the start of the first of them. -/
theorem Filling.rows (cfg : Config) (m : Nat) (h : Filling held c x0 x1 y0 y1 p)
    (hcol : p.col = x0) (hm : p.page + m = y1 + 1) :
    let q := (pixels c (m * (x1 + 1 - x0))).foldl (panelByte cfg) p
    Filling held c x0 x1 y0 y1 q ∧ q.col = x0 ∧ q.page = y1 + 1 := by
  induction m generalizing p with
  | zero =>
    rw [Nat.zero_mul]
    exact ⟨h, hcol, hm⟩
  | succ m ih =>
    have hwidth : x1 + 1 - x0 = x1 - x0 + 1 := by
      have := h.col
      omega
    obtain ⟨hrow, hrowCol, hrowPage⟩ :=
      h.row cfg (x1 - x0) (by omega) (by have := h.col; omega)
    rw [Nat.add_mul, Nat.one_mul, Nat.add_comm (m * _), pixels_add, List.foldl_append, hwidth]
    have hrest := ih hrow hrowCol (by omega)
    rwa [hwidth] at hrest

/-- Behind its last row a window shows the colour in every pixel, and outside it what was held. -/
theorem Filling.shows (h : Filling held c x0 x1 y0 y1 p) (hcol : p.col = x0)
    (hpage : p.page = y1 + 1) (a b : Nat) :
    ((x0 ≤ a ∧ a ≤ x1 ∧ y0 ≤ b ∧ b ≤ y1) → gramRead p.gram a b = some c) ∧
      (¬ (x0 ≤ a ∧ a ≤ x1 ∧ y0 ≤ b ∧ b ≤ y1) → gramRead p.gram a b = gramRead held a b) := by
  have hwhole : BeforePointer x0 x1 y0 p a b ↔ x0 ≤ a ∧ a ≤ x1 ∧ y0 ≤ b ∧ b ≤ y1 := by
    unfold BeforePointer
    omega
  rw [← hwhole]
  exact ⟨h.before a b, h.behind a b⟩

end

/-! ## What the panel reads of the events of a window and of a data bracket -/

section
variable (c : Config) (arrived : List Nat) (p : Panel) (es : List Event)

@[simp] theorem panelRead_csOn : panelRead c arrived (csOn c ++ es) p = panelRead c arrived es p := by
  unfold csOn
  split <;> rfl

@[simp] theorem panelRead_csOff :
    panelRead c arrived (csOff c ++ es) p = panelRead c arrived es p := by
  unfold csOff
  split <;> rfl

/-- A `Send` of a command byte alone. -/
theorem panelRead_sendCommand (b : Byte) :
    panelRead c arrived (sendEvents c (some b) [] ++ es) p =
      panelRead c arrived es (panelCommand c { p with dc := .driven .command } b) := by
  simp only [sendEvents, List.append_assoc, panelRead_csOn]
  exact panelRead_csOff c arrived _ es

/-- A `Send` of a command byte with its parameter bytes. -/
theorem panelRead_sendEvents (b : Byte) {bs : List Byte} (hbs : bs ≠ []) :
    panelRead c arrived (sendEvents c (some b) bs ++ es) p =
      panelRead c arrived es (bs.foldl (panelByte c)
        { panelCommand c { p with dc := .driven .command } b with dc := .driven .data }) := by
  simp only [sendEvents, List.append_assoc, panelRead_csOn, payloadEvents, if_neg hbs]
  exact panelRead_csOff c arrived _ es

theorem panelRead_transfers (ts : List (List Byte)) :
    panelRead c arrived (ts.map Event.xfer ++ es) p =
      panelRead c arrived es (ts.flatten.foldl (panelByte c) p) := by
  induction ts generalizing p with
  | nil => rfl
  | cons t ts ih =>
    rw [List.flatten_cons, List.foldl_append]
    exact ih _

/-- The bytes of a data bracket. -/
theorem panelRead_dataEvents (ts : List (List Byte)) :
    panelRead c arrived (dataEvents c ts) p =
      ts.flatten.foldl (panelByte c) { p with dc := .driven .data } := by
  have hclosed := panelRead_csOff c arrived
    (ts.flatten.foldl (panelByte c) { p with dc := .driven .data }) []
  simp only [dataEvents, List.append_assoc, panelRead_csOn]
  refine (panelRead_transfers c arrived { p with dc := .driven .data } (csOff c) ts).trans ?_
  rwa [List.append_nil] at hclosed

/-- The panel takes the columns of a window (R81). -/
theorem panelRead_columns (hc : c.cmdCaset ≠ c.cmdRamwr) (u v : Half) :
    panelRead c arrived (sendEvents c (some c.cmdCaset) (be16 u ++ be16 v) ++ es) p =
      panelRead c arrived es { p with
        xs := u, xe := v, cur := some c.cmdCaset, par := be16 u ++ be16 v, half := none
        mode := .idle, torn := false, dc := .driven .data } := by
  rw [panelRead_sendEvents c arrived p es _ (by exact List.cons_ne_nil _ _)]
  congr 1
  simp [be16, panelByte, panelCommand, panelData, panelParam, hc, be16_append]

/-- The panel takes the pages of a window (R81). -/
theorem panelRead_pages (hp : c.cmdPaset ≠ c.cmdRamwr) (hne : c.cmdCaset ≠ c.cmdPaset)
    (u v : Half) :
    panelRead c arrived (sendEvents c (some c.cmdPaset) (be16 u ++ be16 v) ++ es) p =
      panelRead c arrived es { p with
        ys := u, ye := v, cur := some c.cmdPaset, par := be16 u ++ be16 v, half := none
        mode := .idle, torn := false, dc := .driven .data } := by
  rw [panelRead_sendEvents c arrived p es _ (by exact List.cons_ne_nil _ _)]
  congr 1
  simp [be16, panelByte, panelCommand, panelData, panelParam, hp, hne.symm, be16_append]

/-- The panel whose window registers are set and whose memory write has begun at their corner. -/
def windowOpened (x0 y0 x1 y1 : Half) : Panel :=
  { p with
    xs := x0, xe := x1, ys := y0, ye := y1, col := x0.toNat, page := y0.toNat, mode := .writing
    half := none, cur := some c.cmdRamwr, par := [], dc := .driven .command, torn := false }

/-- The three window commands open the window (R81, R156). -/
theorem panelRead_windowEvents (hc : c.cmdCaset ≠ c.cmdRamwr) (hp : c.cmdPaset ≠ c.cmdRamwr)
    (hne : c.cmdCaset ≠ c.cmdPaset) (x0 y0 x1 y1 : Int) :
    panelRead c arrived (windowEvents c x0 y0 x1 y1 ++ es) p =
      panelRead c arrived es (windowOpened c p (.ofInt 16 x0) (.ofInt 16 y0) (.ofInt 16 x1)
        (.ofInt 16 y1)) := by
  simp only [windowEvents, be16Int, List.append_assoc]
  rw [panelRead_columns c arrived p _ hc, panelRead_pages c arrived _ _ hp hne,
    panelRead_sendCommand, panelCommand, if_pos rfl]
  rfl

end

/-- An opened window takes pixels from its corner, with nothing before the write pointer. -/
theorem windowOpened_filling (cfg : Config) (p : Panel) (c : Half) {x0 y0 x1 y1 : Half}
    (hx : x0.toNat ≤ x1.toNat) :
    Filling p.gram c x0.toNat x1.toNat y0.toNat y1.toNat
      { windowOpened cfg p x0 y0 x1 y1 with dc := .driven .data } := by
  have hnone : ∀ a b, ¬ BeforePointer x0.toNat x1.toNat y0.toNat
      { windowOpened cfg p x0 y0 x1 y1 with dc := .driven .data } a b := by
    intro a b
    unfold BeforePointer windowOpened
    dsimp only
    omega
  exact ⟨⟨rfl, rfl, rfl, rfl⟩, ⟨rfl, rfl, rfl, rfl⟩, ⟨Nat.le_refl _, hx⟩, Nat.le_refl _,
    fun a b hab => absurd hab (hnone a b), fun _ _ _ => rfl⟩

/-! ## FILL_RECT on the panel (R198) -/

/-- A window coordinate that its 16 bits hold (R14). -/
theorem toNat_ofInt_coordinate {v : Int} (hv : 0 ≤ v) (hlt : v < 65536) :
    (BitVec.ofInt 16 v).toNat = v.toNat := by
  rw [BitVec.toNat_ofInt]
  omega

/-- A pixel stream of one colour that fills its window shows that colour in it. -/
theorem panel_shows_filled_window (cfg : Config) (arrived : List Nat) (p : Panel) (c : Half)
    (hc : cfg.cmdCaset ≠ cfg.cmdRamwr) (hp : cfg.cmdPaset ≠ cfg.cmdRamwr)
    (hne : cfg.cmdCaset ≠ cfg.cmdPaset) {x y w h : Nat} (hw : 0 < w) (hh : 0 < h)
    (hx : x + w ≤ 65536) (hy : y + h ≤ 65536) (a b : Nat) :
    let q := panelRead cfg arrived (windowEvents cfg x y (x + w - 1) (y + h - 1) ++
      dataEvents cfg (fillTransfers c (w * h))) p
    ((x ≤ a ∧ a < x + w ∧ y ≤ b ∧ b < y + h) → gramRead q.gram a b = some c) ∧
      (¬ (x ≤ a ∧ a < x + w ∧ y ≤ b ∧ b < y + h) →
        gramRead q.gram a b = gramRead p.gram a b) := by
  intro q
  have hx0 : (BitVec.ofInt 16 (x : Int)).toNat = x := toNat_ofInt_coordinate (by omega) (by omega)
  have hy0 : (BitVec.ofInt 16 (y : Int)).toNat = y := toNat_ofInt_coordinate (by omega) (by omega)
  have hx1 : (BitVec.ofInt 16 ((x : Int) + w - 1)).toNat = x + w - 1 := by
    rw [toNat_ofInt_coordinate (by omega) (by omega)]
    omega
  have hy1 : (BitVec.ofInt 16 ((y : Int) + h - 1)).toNat = y + h - 1 := by
    rw [toNat_ofInt_coordinate (by omega) (by omega)]
    omega
  have hq : q = _ := panelRead_windowEvents cfg arrived p _ hc hp hne x y (x + w - 1) (y + h - 1)
  rw [panelRead_dataEvents, fillTransfers_flatten] at hq
  have hfill := windowOpened_filling cfg p c (x0 := .ofInt 16 x) (y0 := .ofInt 16 y)
    (x1 := .ofInt 16 (x + w - 1)) (y1 := .ofInt 16 (y + h - 1)) (by omega)
  obtain ⟨hfilled, hcol, hpage⟩ := hfill.rows cfg h rfl (by
    show (BitVec.ofInt 16 (y : Int)).toNat + h = _
    omega)
  rw [hx0, hx1, show x + w - 1 + 1 - x = w by omega, Nat.mul_comm h w, ← hq] at hfilled hcol hpage
  rw [hy0, hy1] at hfilled
  rw [hy1] at hpage
  have hinside : (x ≤ a ∧ a < x + w ∧ y ≤ b ∧ b < y + h) ↔
      (x ≤ a ∧ a ≤ x + w - 1 ∧ y ≤ b ∧ b ≤ y + h - 1) := by omega
  rw [hinside]
  exact hfilled.shows hcol hpage a b

/-- Settles O60: the events of FILL_RECT are the window commands and one stream that fills the window,
which the panel takes row by row. -/
theorem panelShowsFillRect : Obligations.PanelShowsFillRect := by
  unfold Obligations.PanelShowsFillRect
  intro x y w h c s t p es arrived hready hc hp hne hx hy hw hh hxw hyh hexec htrace q a b
  obtain ⟨f, -, hrun⟩ := fillRectFills x y w h c s hready
  have hvalid : validWindow s (s16 x) (s16 y) (s16 x + s16 w - 1) (s16 y + s16 h - 1) = true :=
    decide_eq_true (by omega)
  have hes : es = windowEvents s.cfg (s16 x) (s16 y) (s16 x + s16 w - 1) (s16 y + s16 h - 1) ++
      dataEvents s.cfg (fillTransfers c ((s16 w).toNat * (s16 h).toNat)) := by
    cases hrun.symm.trans hexec
    rw [streamEvents, if_pos hvalid] at htrace
    exact (List.append_cancel_left htrace).symm
  have hwidth := s.width.isLt
  have hheight := s.height.isLt
  have hshown := panel_shows_filled_window s.cfg arrived p c hc hp hne (x := (s16 x).toNat)
    (y := (s16 y).toNat) (w := (s16 w).toNat) (h := (s16 h).toNat) (by omega) (by omega)
    (by omega) (by omega) a b
  rw [Int.toNat_of_nonneg hx, Int.toNat_of_nonneg hy, Int.toNat_of_nonneg hw.le,
    Int.toNat_of_nonneg hh.le, ← hes] at hshown
  have hinside : (s16 x ≤ a ∧ a < s16 x + s16 w ∧ s16 y ≤ b ∧ b < s16 y + s16 h) ↔
      ((s16 x).toNat ≤ a ∧ a < (s16 x).toNat + (s16 w).toNat ∧
        (s16 y).toNat ≤ b ∧ b < (s16 y).toNat + (s16 h).toNat) := by omega
  rw [hinside]
  exact hshown

end Sys2Proof.Machine
end
